-- ==== Sys2Proof/Word.lean ====
section
/-!
DEFINITION. Word.lean: the word types of the engine (spec/00_scope.md R8, R9).

A signed and an unsigned register of one width share one type: `toInt` is the signed reading, `toNat` the
unsigned one.
-/
namespace Sys2Proof

/-- A byte of a command frame or of a bus exchange (R8). -/
abbrev Byte := BitVec 8

/-- A 16-bit coefficient, u16 or s16 as R22 says of each. -/
abbrev Half := BitVec 16

/-- A 20-bit raw code, `ADC_P` or `ADC_T` (R24). -/
abbrev Code20 := BitVec 20

/-- A 32-bit integer register, s32 or u32 (R25, R26). -/
abbrev Word := BitVec 32

/-- The bit pattern of an IEEE-754 binary32 value (R27). -/
abbrev Binary32 := BitVec 32

/-- The bit pattern of an IEEE-754 binary64 value, the payload's timestamp (R190). -/
abbrev Binary64 := BitVec 64

end Sys2Proof
end

