-- ==== Sys2Proof/Config.lean ====
section
/-!
DEFINITION. Config.lean: the implementation parameters of spec/00_scope.md R7.

`Params` holds the parameters the datapath takes as arguments; `Config.hardware` is the row "value for this
hardware". The host-side constants are OPEN in the spec (92_eei_decisions.md D26, D27): they are opaque, so no
proof can see a value.
-/
namespace Sys2Proof

/-- The legal widths of the signed intermediates of COMP_T and COMP_H (R7). -/
inductive Width where
  | w32
  | w64
  deriving DecidableEq, Repr

/-- How many bits a width has. -/
def Width.bits : Width → Nat
  | .w32 => 32
  | .w64 => 64

/-- How integer results become binary32 (R7, R165). -/
inductive FloatConv where
  | single
  | staged
  deriving DecidableEq, Repr

/-- The parameters of R7 that an engine command depends on. `PRESS_WIDTH` has one legal value, 64. -/
structure Params where
  tempWidth : Width
  humWidth  : Width
  floatConv : FloatConv
  deriving DecidableEq, Repr

/-- The values R7 chooses for this hardware: `TEMP_WIDTH = 32`, `HUM_WIDTH = 32`, `FLOAT_CONV = SINGLE`. -/
def Config.hardware : Params :=
  { tempWidth := .w32, humWidth := .w32, floatConv := .single }

/-! The sensor register-map constants and configuration bytes: OPEN (R7, R185, R186, R188; log entry 11). -/

opaque Config.regChipId   : BitVec 7
opaque Config.chipIdValue : Byte
opaque Config.regReset    : BitVec 7
opaque Config.resetCmd    : Byte
opaque Config.regCtrlHum  : BitVec 7
opaque Config.regCtrlMeas : BitVec 7
opaque Config.regConfig   : BitVec 7
opaque Config.regData     : BitVec 7
opaque Config.regCalibA   : BitVec 7
opaque Config.regCalibB   : BitVec 7
opaque Config.cfgHum      : Byte
opaque Config.cfgMeas     : Byte
opaque Config.cfgConfig   : Byte

/-- The settling delay after the sensor's soft reset, in a unit the spec does not give: OPEN (R7, D27; log entry 12). -/
opaque Config.resetSettle : Nat

end Sys2Proof
end

