-- ==== Sys2Proof/Machine/State.lean ====
section
/-!
DEFINITION. Machine/State.lean: everything the spec gives the engine to hold (spec/10_state.md R20 to R40), as plain
data, and what the host presents to it.

Each coefficient is held at its own width (R22). `STATUS` is held as its fields: the reserved bits are hardwired to 0
and are no storage (R28, R35); the 16-bit word the host reads is `Status.word` in Machine/Flags.lean (log entry 6).
-/
namespace Sys2Proof.Machine

open Sys2Proof

/-- The calibration register file, the source's CalibrationSet (R22). -/
structure Calibration where
  /-- u16 -/
  digT1 : Half
  /-- s16 -/
  digT2 : Half
  /-- s16 -/
  digT3 : Half
  /-- u16 -/
  digP1 : Half
  /-- s16 -/
  digP2 : Half
  /-- s16 -/
  digP3 : Half
  /-- s16 -/
  digP4 : Half
  /-- s16 -/
  digP5 : Half
  /-- s16 -/
  digP6 : Half
  /-- s16 -/
  digP7 : Half
  /-- s16 -/
  digP8 : Half
  /-- s16 -/
  digP9 : Half
  /-- u8 -/
  digH1 : Byte
  /-- s16 -/
  digH2 : Half
  /-- u8 -/
  digH3 : Byte
  /-- s16 holding a signed 12-bit value -/
  digH4 : Half
  /-- s16 holding a signed 12-bit value -/
  digH5 : Half
  /-- s8 -/
  digH6 : Byte
  deriving DecidableEq, Repr

/-- The raw-sample registers, the source's RawSample (R24). -/
structure RawSample where
  adcP : Code20
  adcT : Code20
  adcH : Half
  deriving DecidableEq, Repr

/-- The outcome codes a command writes to `STATUS.ERR`; codes 6 to 15 are never written (R200, R35). -/
inductive ErrCode where
  | ok
  | illegal
  | noCal
  | calLocked
  | noRaw
  | noTfine
  deriving DecidableEq, Repr

/-- The fields of `STATUS` that hold a value (R28). -/
@[ext]
structure Status where
  /-- bit 0: calibration loaded (R29) -/
  calv  : Bool
  /-- bit 1: a raw sample has been loaded (R30) -/
  rawv  : Bool
  /-- bit 2: `TFINE` is valid for the current raw sample (R31) -/
  tfv   : Bool
  /-- bit 3: `T_OUT` and `TEMP_C` hold this cycle's result (R32) -/
  tv    : Bool
  /-- bit 4: `P_OUT` and `PRES_HPA` hold this cycle's result (R32) -/
  pv    : Bool
  /-- bit 5: `H_OUT` and `HUM_PCT` hold this cycle's result (R32) -/
  hv    : Bool
  /-- bit 7: some command has ended in an error since reset (R33) -/
  estky : Bool
  /-- bits 11:8: the outcome of the last command (R34) -/
  err   : ErrCode
  deriving DecidableEq, Repr

/-- One thing the host presents to the engine, in the order it presents them (log entry 2). -/
inductive HostInput where
  /-- the next byte of the frame sequence (R70, R57) -/
  | byte (b : Byte)
  /-- the reset input, taken between frames (R230; log entry 4) -/
  | reset
  /-- a frame from a second host, or one presented while a command is in progress (R65, R240; log entry 5) -/
  | contend
  deriving DecidableEq, Repr

/-- The engine's registers (R20) and, as the model's own field, what the host has presented and the engine has not
consumed. -/
@[ext]
structure State where
  /-- the frame index (R21) -/
  fi      : Nat
  cal     : Calibration
  raw     : RawSample
  /-- `TFINE`, s32 (R25) -/
  tfine   : Word
  /-- `T_OUT`, s32 (R26) -/
  tOut    : Word
  /-- `P_OUT`, u32 (R26) -/
  pOut    : Word
  /-- `H_OUT`, u32 (R26) -/
  hOut    : Word
  /-- `TEMP_C` (R27) -/
  tempC   : Binary32
  /-- `PRES_HPA` (R27) -/
  presHpa : Binary32
  /-- `HUM_PCT` (R27) -/
  humPct  : Binary32
  status  : Status
  /-- the host's input, oldest first: the model's own field (log entry 2) -/
  host    : List HostInput
  deriving DecidableEq, Repr

/-- The output ports, one per register the host can read (R37). -/
inductive Port where
  | digT1 | digT2 | digT3
  | digP1 | digP2 | digP3 | digP4 | digP5 | digP6 | digP7 | digP8 | digP9
  | digH1 | digH2 | digH3 | digH4 | digH5 | digH6
  | adcP | adcT | adcH
  | tfine
  | tOut | pOut | hOut
  | tempC | presHpa | humPct
  | status
  deriving DecidableEq, Repr

/-- The engine has no fault, so this type has no constructor: an engine error is an outcome the command records and the
engine goes on (R201, R204), and a read of a register that holds no value draws one (R38; log entry 7). -/
inductive Fault where
  deriving DecidableEq, Repr

/-- Why the model has no step. -/
inductive Refusal where
  /-- Raised by `exec` for an instruction with no meaning yet. Safe: the model stops. -/
  | notModelled (mnemonic : String)
  /-- Raised by the step when the host's bytes end inside a frame: the engine has no step for it (R82). Safe: the
  spec asks for a refusal. -/
  | incompleteFrame
  /-- Raised by the step when a frame contends with another (R65, R240). Safe: the spec asks for a refusal. -/
  | contendingHost
  deriving DecidableEq, Repr

/-- All coefficients zero: the spec gives no reset value (R39; log entry 1). -/
def Calibration.zero : Calibration :=
  { digT1 := 0, digT2 := 0, digT3 := 0
    digP1 := 0, digP2 := 0, digP3 := 0, digP4 := 0, digP5 := 0, digP6 := 0, digP7 := 0, digP8 := 0, digP9 := 0
    digH1 := 0, digH2 := 0, digH3 := 0, digH4 := 0, digH5 := 0, digH6 := 0 }

/-- `STATUS = 0x0000` (R39). -/
def Status.zero : Status :=
  { calv := false, rawv := false, tfv := false, tv := false, pv := false, hv := false, estky := false, err := .ok }

/-- The engine right after reset (R39, R230): `STATUS = 0`, `fi = 0`. The data registers are unspecified; the model
holds 0 in them, a DESIGN CHOICE no claim may rest on (log entry 1). Nothing is presented yet (log entry 2). -/
def State.reset : State :=
  { fi := 0
    cal := Calibration.zero
    raw := { adcP := 0, adcT := 0, adcH := 0 }
    tfine := 0
    tOut := 0, pOut := 0, hOut := 0
    tempC := 0, presHpa := 0, humPct := 0
    status := Status.zero
    host := [] }

end Sys2Proof.Machine
end

