-- ==== Sys2Proof/Machine/Operands.lean ====
section
/-!
DEFINITION. Machine/Operands.lean: every operand form of spec/30_encoding.md R78 to R81: the calibration blocks
(spec/40_calibration.md R103 to R108), the raw burst (spec/41_sample.md R122 to R125), and the widening of an
implicit operand to the width of an operation (R81).
-/
namespace Sys2Proof.Machine

open Sys2Proof

/-- A little-endian 16-bit word: the byte at the lower offset is bits 7:0 (R53). -/
def le16 (lo hi : Byte) : Half := hi ++ lo

/-- `sext_12` of a 12-bit field into its s16 register (R106). -/
def sext12 (v : BitVec 12) : Half := v.signExtend 16

/-- A 20-bit raw code: most-significant byte first, the low nibble of the third byte discarded (R54, R122, R125). -/
def code20 (b0 b1 b2 : Byte) : Code20 := b0 ++ b1 ++ b2.extractLsb' 4 4

/-- A 16-bit raw code: most-significant byte first, nothing discarded (R54, R124). -/
def code16 (b0 b1 : Byte) : Half := b0 ++ b1

/-- `dig_H4` from block B bytes 3 and 4: the second byte's low nibble is the low one (R106). -/
def packedH4 (b3 b4 : Byte) : Half := sext12 (b3 ++ b4.extractLsb' 0 4)

/-- `dig_H5` from block B bytes 5 and 4: the middle byte's high nibble is the low one (R106). -/
def packedH5 (b5 b4 : Byte) : Half := sext12 (b5 ++ b4.extractLsb' 4 4)

/-- The CalibrationSet of blocks A and B (R78, R79, R101); byte 24 of block A is not read (R108). -/
def decodeCalibration (a : Vector Byte 26) (b : Vector Byte 7) : Calibration :=
  { digT1 := le16 a[0] a[1]
    digT2 := le16 a[2] a[3]
    digT3 := le16 a[4] a[5]
    digP1 := le16 a[6] a[7]
    digP2 := le16 a[8] a[9]
    digP3 := le16 a[10] a[11]
    digP4 := le16 a[12] a[13]
    digP5 := le16 a[14] a[15]
    digP6 := le16 a[16] a[17]
    digP7 := le16 a[18] a[19]
    digP8 := le16 a[20] a[21]
    digP9 := le16 a[22] a[23]
    digH1 := a[25]
    digH2 := le16 b[0] b[1]
    digH3 := b[2]
    digH4 := packedH4 b[3] b[4]
    digH5 := packedH5 b[5] b[4]
    digH6 := b[6] }

/-- The RawSample of a burst: pressure, temperature, humidity (R80, R122, R123, R124). -/
def decodeRaw (burst : Vector Byte 8) : RawSample :=
  { adcP := code20 burst[0] burst[1] burst[2]
    adcT := code20 burst[3] burst[4] burst[5]
    adcH := code16 burst[6] burst[7] }

/-- `zext_W`: an unsigned register widened to the width of an operation (R81, R11). -/
def zext {n : Nat} (w : Nat) (v : BitVec n) : BitVec w := v.setWidth w

/-- `sext_W`: a signed register widened to the width of an operation (R81, R11). -/
def sext {n : Nat} (w : Nat) (v : BitVec n) : BitVec w := v.signExtend w

/-- `trunc_32` (R11). -/
def trunc32 {n : Nat} (v : BitVec n) : Word := v.setWidth 32

/-- The arithmetic right shift of a signed value: it rounds toward minus infinity (R10). -/
def asr {n : Nat} (v : BitVec n) (k : Nat) : BitVec n := v.sshiftRight k

/-- `clamp` of a signed value (R11). -/
def clamp {n : Nat} (v lo hi : BitVec n) : BitVec n :=
  if v.slt lo then lo else if hi.slt v then hi else v

end Sys2Proof.Machine
end

