-- ==== Sys2Proof/Machine/Convert.lean ====
section
/-!
DEFINITION. Machine/Convert.lean: from integer results to binary32 (spec/45_control.md R164 to R167; `fl32` is
spec/00_scope.md R11).

A rational is given as a numerator and a positive denominator, so `/` is exact. The engine has no rounding mode and
no exception flag (R167).
-/
namespace Sys2Proof.Machine

open Sys2Proof

/-- `num / den` to the nearest natural number, ties to even (R11). -/
def roundHalfEven (num den : Nat) : Nat :=
  let q := num / den
  let r := num % den
  if 2 * r < den then q else if den < 2 * r then q + 1 else q + q % 2

/-- `⌊log2 (num / den)⌋` of a positive rational. -/
def floorLog2 (num den : Nat) : Int :=
  let e : Int := (num.log2 : Int) - (den.log2 : Int)
  if num * 2 ^ (-e).toNat < den * 2 ^ e.toNat then e - 1 else e

/-- The exponent of the unit in the last place of the binary32 values next to `num / den`: 23 below the leading bit,
and never below that of the subnormals. -/
def ulpExponent (num den : Nat) : Int :=
  max (floorLog2 num den) (-126) - 23

/-- The pattern of infinity, which a magnitude too large for the format rounds to. -/
def infinityPattern : Nat := 0x7F800000

/-- The magnitude bits (exponent and fraction) of the binary32 value nearest to `num / den`, ties to even. Adding the
rounded significand to the exponent field lets a carry out of the significand move into the exponent. -/
def fl32Magnitude (num den : Nat) : Nat :=
  if num = 0 then 0
  else
    let k := ulpExponent num den
    let m := roundHalfEven (num * 2 ^ (-k).toNat) (den * 2 ^ k.toNat)
    min ((k + 149).toNat * 2 ^ 23 + m) infinityPattern

/-- `fl32 (num / den)`: round to nearest, ties to even; `+0.0` when the quotient is 0 (R11). -/
def fl32 (num : Int) (den : Nat) : Binary32 :=
  BitVec.ofBool (decide (num < 0)) ++ BitVec.ofNat 31 (fl32Magnitude num.natAbs den)

/-! ### Reading a binary32 pattern back, for the binary32 divisions of STAGED -/

/-- The exponent field of a pattern. -/
def exponentField (f : Binary32) : Nat := (f.extractLsb' 23 8).toNat

/-- The fraction field of a pattern. -/
def fractionField (f : Binary32) : Nat := (f.extractLsb' 0 23).toNat

/-- The significand of a finite pattern, with the implicit leading one of a normal value. -/
def significandOf (f : Binary32) : Nat :=
  if exponentField f = 0 then fractionField f else 2 ^ 23 + fractionField f

/-- A finite pattern's value is its signed significand times two to this power. -/
def scaleOf (f : Binary32) : Int := (max (exponentField f) 1 : Nat) - (150 : Int)

/-- The numerator of a finite pattern's value. -/
def numeratorOf (f : Binary32) : Int :=
  let m : Int := (significandOf f * 2 ^ (scaleOf f).toNat : Nat)
  if f.msb then -m else m

/-- The denominator of a finite pattern's value. -/
def denominatorOf (f : Binary32) : Nat := 2 ^ (-scaleOf f).toNat

/-- A correctly rounded binary32 division of a finite value by a positive integer: one `fl32 (f / d)` of R165. -/
def divide32 (f : Binary32) (d : Nat) : Binary32 :=
  fl32 (numeratorOf f) (denominatorOf f * d)

/-- `CvtT`: 0.01 degC to degC (R165). -/
def cvtT (conv : FloatConv) (t : Word) : Binary32 :=
  match conv with
  | .single => fl32 t.toInt 100
  | .staged => divide32 (fl32 t.toInt 1) 100

/-- `CvtP`: Pa times 256 to hPa (R165). -/
def cvtP (conv : FloatConv) (p : Word) : Binary32 :=
  match conv with
  | .single => fl32 (p.toNat : Int) 25600
  | .staged => divide32 (divide32 (fl32 (p.toNat : Int) 1) 256) 100

/-- `CvtH`: %RH times 1024 to %RH (R165). -/
def cvtH (conv : FloatConv) (h : Word) : Binary32 :=
  match conv with
  | .single => fl32 (h.toNat : Int) 1024
  | .staged => divide32 (fl32 (h.toNat : Int) 1) 1024

end Sys2Proof.Machine
end

