-- ==== Sys2Proof/Syntax.lean ====
section
/-!
DEFINITION. Syntax.lean: the engine's commands, one constructor per row of spec/opcode_table.json (R73).

A frame has no register, immediate or mode field (R71): an operand is a block of bytes of a fixed length, so its
length is part of its type and an operand of a wrong length cannot be written (R51, R58).
-/
namespace Sys2Proof

/-- A command of the engine. -/
inductive Instr where
  /-- `NOP` (R160). -/
  | nop
  /-- `CAL_LOAD` with calibration blocks A and B (R101, R78, R79). -/
  | calLoad (blockA : Vector Byte 26) (blockB : Vector Byte 7)
  /-- `RAW_LOAD` with an 8-byte raw burst (R121, R80). -/
  | rawLoad (burst : Vector Byte 8)
  /-- `COMP_T` (R132). -/
  | compT
  /-- `COMP_P` (R143). -/
  | compP
  /-- `COMP_H` (R152). -/
  | compH
  /-- `MEASURE` with an 8-byte raw burst (R162, R80). -/
  | measure (burst : Vector Byte 8)
  deriving DecidableEq, Repr

end Sys2Proof
end

