-- ==== Sys2Proof/WellFormed.lean ====
section
/-!
DEFINITION. WellFormed.lean: when a byte string is one whole command frame (spec/30_encoding.md R70, R72, R73, R82).

An `Instr` is well-formed by its type; what can be ill-formed is the byte string that stands for one. The table
below is R73's, written apart from the decoder so that the two check each other.
-/
namespace Sys2Proof

/-- A row of R73's table: opcode, mnemonic, and how many operand bytes the row's format has (R72). -/
structure OpcodeRow where
  opc          : Byte
  mnemonic     : String
  operandBytes : Nat
  deriving DecidableEq, Repr

/-- R73, row by row; F0, F8 and F33 have 0, 8 and 33 operand bytes (R72). -/
def opcodeTable : List OpcodeRow :=
  [ ⟨0x00, "NOP",      0⟩,
    ⟨0x01, "CAL_LOAD", 33⟩,
    ⟨0x02, "RAW_LOAD", 8⟩,
    ⟨0x10, "COMP_T",   0⟩,
    ⟨0x11, "COMP_P",   0⟩,
    ⟨0x12, "COMP_H",   0⟩,
    ⟨0x20, "MEASURE",  8⟩ ]

/-- The row whose opcode is `opc`: a decoder matches the whole byte (R73). -/
def opcodeRow (opc : Byte) : Option OpcodeRow :=
  opcodeTable.find? (fun r => r.opc == opc)

/-- `opc` is one of the seven legal opcodes (R73, R75). -/
def legalOpcode (opc : Byte) : Bool :=
  (opcodeRow opc).isSome

/-- The frame's operand bytes are all present and no byte is left over (R72, R82). -/
def wellFormedFrame : List Byte → Bool
  | [] => false
  | opc :: operands =>
    match opcodeRow opc with
    | none   => false
    | some r => operands.length == r.operandBytes

end Sys2Proof
end

