-- ==== Sys2Proof/Decode.lean ====
section
/-!
DEFINITION. Decode.lean: from the host's bytes to a command and back (spec/30_encoding.md R70 to R82).

`decode` is total on any bytes: it takes one frame off the front, or rejects by name. `encode` gives the bytes of
a command. `decodeTableWord` reads the opcode table's numbering of bits.
-/
namespace Sys2Proof

/-- Why no command is read from the host's bytes. -/
inductive DecodeError where
  /-- The host's sequence holds no byte: the engine is idle (R70). -/
  | noFrame
  /-- The opcode byte is not one of the seven: a one-byte frame that raises `ERR_ILLEGAL` (R75). -/
  | illegalOpcode (opc : Byte)
  /-- The sequence ends inside the frame: the engine has no step for it (R82). -/
  | incompleteFrame
  deriving DecidableEq, Repr

/-- What the decoder answers: a command and the bytes after its frame, or a rejection. -/
inductive Decoded where
  | instr (i : Instr) (rest : List Byte)
  | rejected (e : DecodeError)
  deriving DecidableEq, Repr

/-- The first `n` bytes and the rest, where there are `n` bytes (R72, R82). -/
def takeBytes (n : Nat) (bs : List Byte) : Option (Vector Byte n × List Byte) :=
  if h : n ≤ bs.length then
    some (⟨(bs.take n).toArray, by simp [h]⟩, bs.drop n)
  else
    none

/-- Blocks A and B of a CAL_LOAD: operand bytes 0 to 25, then 26 to 32 (R78, R79). -/
def decodeCalLoad (bs : List Byte) : Decoded :=
  match takeBytes 26 bs with
  | none => .rejected .incompleteFrame
  | some (a, bs') =>
    match takeBytes 7 bs' with
    | none => .rejected .incompleteFrame
    | some (b, rest) => .instr (.calLoad a b) rest

/-- The raw burst of a RAW_LOAD or MEASURE: operand bytes 0 to 7 (R80). -/
def decodeBurst (mk : Vector Byte 8 → Instr) (bs : List Byte) : Decoded :=
  match takeBytes 8 bs with
  | none => .rejected .incompleteFrame
  | some (burst, rest) => .instr (mk burst) rest

/-- One frame off the front of the host's bytes. The opcode byte is matched whole and alone decides the length
(R72, R73); every other value is illegal (R75, R76). -/
def decode : List Byte → Decoded
  | [] => .rejected .noFrame
  | opc :: bs =>
    match opc with
    | 0x00#8 => .instr .nop bs
    | 0x01#8 => decodeCalLoad bs
    | 0x02#8 => decodeBurst .rawLoad bs
    | 0x10#8 => .instr .compT bs
    | 0x11#8 => .instr .compP bs
    | 0x12#8 => .instr .compH bs
    | 0x20#8 => decodeBurst .measure bs
    | _      => .rejected (.illegalOpcode opc)

/-- The frame of a command: its opcode (R73), then its operand bytes (R72, R78, R79, R80). -/
def encode : Instr → List Byte
  | .nop           => [0x00#8]
  | .calLoad a b   => 0x01#8 :: (a.toList ++ b.toList)
  | .rawLoad burst => 0x02#8 :: burst.toList
  | .compT         => [0x10#8]
  | .compP         => [0x11#8]
  | .compH         => [0x12#8]
  | .measure burst => 0x20#8 :: burst.toList

/-- The length in bytes of a command's frame (R72). -/
def frameLength (i : Instr) : Nat := (encode i).length

/-- The longest frame, format F33 (R72). -/
def longestFrame : Nat := 34

/-- The `n` bytes of the number `w`, the least significant first: byte `k` is bits `8k+7 .. 8k` of the opcode
table's numbering. -/
def bytesOf : Nat → Nat → List Byte
  | 0, _     => []
  | n + 1, w => BitVec.ofNat 8 w :: bytesOf n (w / 256)

/-- The bytes of an instruction whose first `nbits` bits, a whole number of bytes, are those of `w`, every later bit
0, as far as the longest frame reaches. -/
def tableBytes (nbits w : Nat) : List Byte :=
  bytesOf (nbits / 8) w ++ List.replicate (longestFrame - nbits / 8) 0x00

/-- The instruction the decoder reads from an opcode-table word. -/
def decodeTableWord (nbits w : Nat) : Option Instr :=
  match decode (tableBytes nbits w) with
  | .instr i _ => some i
  | .rejected _ => none

/-- How many bytes the frame at the front of `bs` has: its opcode's format decides, one byte for an illegal opcode
(R72, R75). -/
def frameSpan (bs : List Byte) : Nat :=
  match decode bs with
  | .instr i _ => frameLength i
  | .rejected _ => 1

end Sys2Proof
end

