-- ==== Sys2Proof/Machine/Flags.lean ====
section
/-!
DEFINITION. Machine/Flags.lean: the fields of `STATUS` (spec/10_state.md R28 to R35): the word the host reads, and
what each command does to the flags.

The engine has no condition codes and no arithmetic flags (R40): these are all its flag computations.
-/
namespace Sys2Proof.Machine

open Sys2Proof

/-- The 4-bit code of an outcome (R200). -/
def ErrCode.code : ErrCode → BitVec 4
  | .ok        => 0
  | .illegal   => 1
  | .noCal     => 2
  | .calLocked => 3
  | .noRaw     => 4
  | .noTfine   => 5

/-- `STATUS` as the host reads it: bits 15:12 and bit 6 read 0 (R28, R35). -/
def Status.word (st : Status) : BitVec 16 :=
  0#4 ++ st.err.code ++ BitVec.ofBool st.estky ++ 0#1 ++ BitVec.ofBool st.hv ++ BitVec.ofBool st.pv
    ++ BitVec.ofBool st.tv ++ BitVec.ofBool st.tfv ++ BitVec.ofBool st.rawv ++ BitVec.ofBool st.calv

/-- A command ends in success: `ERR <- OK` (R34). -/
def Status.succeed (st : Status) : Status := { st with err := .ok }

/-- A command ends in an error: `ERR <- code`, `ESTKY <- 1` (R201, R33). -/
def Status.fail (code : ErrCode) (st : Status) : Status := { st with err := code, estky := true }

/-- CAL_LOAD: `CALV <- 1` (R101). -/
def Status.markCal (st : Status) : Status := { st with calv := true }

/-- A read cycle starts: `RAWV <- 1` and `TFV`, `TV`, `PV`, `HV` `<- 0` (R120, R121). -/
def Status.startCycle (st : Status) : Status :=
  { st with rawv := true, tfv := false, tv := false, pv := false, hv := false }

/-- COMP_T: `TFV <- 1`, `TV <- 1` (R132). -/
def Status.markTemp (st : Status) : Status := { st with tfv := true, tv := true }

/-- COMP_P: `PV <- 1` (R143). -/
def Status.markPres (st : Status) : Status := { st with pv := true }

/-- COMP_H: `HV <- 1` (R152). -/
def Status.markHum (st : Status) : Status := { st with hv := true }

/-- The check of CAL_LOAD: `ERR_CAL_LOCKED` once calibration is loaded (R102). -/
def Status.needUnlocked (st : Status) : Option ErrCode :=
  if st.calv then some .calLocked else none

/-- The check of RAW_LOAD and MEASURE (R29). -/
def Status.needCal (st : Status) : Option ErrCode :=
  if st.calv then none else some .noCal

/-- The checks of COMP_T, in the order of R206. -/
def Status.needRaw (st : Status) : Option ErrCode :=
  if !st.calv then some .noCal else if !st.rawv then some .noRaw else none

/-- The checks of COMP_P and COMP_H, in the order of R206; the last is the ordering invariant (R31). -/
def Status.needTfine (st : Status) : Option ErrCode :=
  if !st.calv then some .noCal else if !st.rawv then some .noRaw else if !st.tfv then some .noTfine else none

end Sys2Proof.Machine
end

