-- ==== Sys2Proof/Machine/Ops.lean ====
section
/-!
DEFINITION. Machine/Ops.lean: the operations every command is made of: the register writes, how a command ends in
success or in an error (spec/60_exceptions.md R201), the reset (spec/70_reset_and_hazards.md R230), and how the
engine takes the next frame from the host (spec/30_encoding.md R70, R72, R82).

The engine has no memory (R50), so there is no memory operation.
-/
namespace Sys2Proof.Machine

open Sys2Proof

/-! ### Register writes: each writes one group of registers and its STATUS flags -/

/-- All 18 coefficients in one step, and `CALV` (R23, R101). -/
def State.loadCal (c : Calibration) (s : State) : State :=
  { s with cal := c, status := s.status.markCal }

/-- The three raw registers together, and the flags of a new cycle (R121). -/
def State.loadRaw (r : RawSample) (s : State) : State :=
  { s with raw := r, status := s.status.startCycle }

/-- `TFINE`, `T_OUT`, `TEMP_C` and their flags (R132). -/
def State.writeTemp (fine centi : Word) (c : Binary32) (s : State) : State :=
  { s with tfine := fine, tOut := centi, tempC := c, status := s.status.markTemp }

/-- `P_OUT`, `PRES_HPA` and `PV` (R143). -/
def State.writePres (p : Word) (hpa : Binary32) (s : State) : State :=
  { s with pOut := p, presHpa := hpa, status := s.status.markPres }

/-- `H_OUT`, `HUM_PCT` and `HV` (R152). -/
def State.writeHum (h : Word) (pct : Binary32) (s : State) : State :=
  { s with hOut := h, humPct := pct, status := s.status.markHum }

/-! ### How a command ends -/

/-- A command ends in success: `ERR <- OK; fi <- fi + 1` (R34, R21). -/
def State.succeed (s : State) : State :=
  { s with status := s.status.succeed, fi := s.fi + 1 }

/-- `raise EngineError(code)`: `ERR <- code`, `ESTKY <- 1`, `fi <- fi + 1`, and nothing else (R201). It is no trap:
nothing is saved and there is nothing to return from (R204, R205). -/
def State.raise (code : ErrCode) (s : State) : State :=
  { s with status := s.status.fail code, fi := s.fi + 1 }

/-- A command: the first check that fails raises its error before any write (R201, R206); otherwise the command's
writes take effect together and it ends in success. -/
def command (failed : Option ErrCode) (body : State → State) (s : State) : Host.Outcome State Fault Refusal :=
  match failed with
  | some code => .next (s.raise code)
  | none      => .next (body s).succeed

/-! ### The host's input -/

/-- The frame bytes at the front of the host's input (R70): they end at the next reset or contending frame. -/
def frameBytes : List HostInput → List Byte
  | .byte b :: rest => b :: frameBytes rest
  | _               => []

/-- The host presents `bs`, in order, after what it has presented before (R70). -/
def State.present (bs : List Byte) (s : State) : State :=
  { s with host := s.host ++ bs.map HostInput.byte }

/-- The engine consumes `n` bytes of the host's input: those of the frame it executes (R21, R70). -/
def State.consume (n : Nat) (s : State) : State :=
  { s with host := s.host.drop n }

/-- The reset input: every register at its reset value, the host's later input still to come (R230; log entry 4). -/
def State.takeReset (s : State) : State :=
  { State.reset with host := s.host.drop 1 }

/-- An illegal opcode: a one-byte frame that executes as `raise EngineError(ERR_ILLEGAL)` (R75, R202). -/
def State.takeIllegal (s : State) : State :=
  (s.consume 1).raise .illegal

/-- What the engine finds when it looks for its next frame. -/
inductive Fetched where
  /-- the machine goes on to this state without a command -/
  | goesOn (s : State)
  /-- a command, and the state with its frame consumed -/
  | run (i : Instr) (s : State)
  /-- no step -/
  | stuck (r : Refusal)
  deriving DecidableEq, Repr

/-- The frame at the front of the host's bytes (R70, R72, R75, R82). -/
def fetchFrame (s : State) : Fetched :=
  match decode (frameBytes s.host) with
  | .instr i _                   => .run i (s.consume (frameLength i))
  | .rejected (.illegalOpcode _) => .goesOn s.takeIllegal
  | .rejected .incompleteFrame   => .stuck .incompleteFrame
  | .rejected .noFrame           => .goesOn s

/-- The engine's next move. With nothing presented it is idle and holds its state (R70, R217; log entry 3); the
reset input is taken between frames (R230); a contending frame has no step (R65); else it takes one frame. -/
def fetch (s : State) : Fetched :=
  match s.host with
  | []            => .goesOn s
  | .reset :: _   => .goesOn s.takeReset
  | .contend :: _ => .stuck .contendingHost
  | .byte _ :: _  => fetchFrame s

/-- The host presents the instruction of an opcode-table word as the next frame: `n` bytes of it, before anything
else it has presented. -/
def State.presentFirst (bs : List Byte) (s : State) : State :=
  { s with host := bs.map HostInput.byte ++ s.host }

end Sys2Proof.Machine
end

