-- ==== Sys2Proof/Machine/Humidity.lean ====
section
/-!
DEFINITION. Machine/Humidity.lean: COMP_H (spec/44_humidity.md R150 to R159).

All arithmetic is at the signed width `w`, wrapping (R9); the terms are evaluated in the order R152 writes them.
-/
namespace Sys2Proof.Machine

open Sys2Proof

/-- Stage 1 (R153): `t_fine - 76800`. -/
def humFine (w : Nat) (tfine : Word) : BitVec w :=
  sext w tfine - 76800

/-- `u` of stage 2 (R154). -/
def humU {w : Nat} (x : BitVec w) (adcH : Half) (c : Calibration) : BitVec w :=
  asr ((((zext w adcH <<< 14) - (sext w c.digH4 <<< 20)) - (sext w c.digH5 * x)) + 16384) 15

/-- `v` of stage 2 (R154). -/
def humV {w : Nat} (x : BitVec w) (c : Calibration) : BitVec w :=
  let scaled := asr (asr (x * sext w c.digH6) 10 * (asr (x * zext w c.digH3) 11 + 32768)) 10
  asr ((scaled + 2097152) * sext w c.digH2 + 8192) 14

/-- Stage 3 (R155): `x - (((((x >> 15) * (x >> 15)) >> 7) * dig_H1) >> 4)`. -/
def humCorrect {w : Nat} (x : BitVec w) (c : Calibration) : BitVec w :=
  x - asr (asr (asr x 15 * asr x 15) 7 * zext w c.digH1) 4

/-- The value before the clamp, at width `w`. -/
def humUnclamped (w : Nat) (adcH : Half) (tfine : Word) (c : Calibration) : BitVec w :=
  let x := humFine w tfine
  humCorrect (humU x adcH c * humV x c) c

/-- `H_OUT` (R152): the clamp (R156), then the shift by 12 (R157). -/
def humidity (w : Nat) (adcH : Half) (tfine : Word) (c : Calibration) : Word :=
  trunc32 (asr (clamp (humUnclamped w adcH tfine c) 0 419430400) 12)

/-- The writes of COMP_H (R152). -/
def compHBody (P : Params) (s : State) : State :=
  let h := humidity P.humWidth.bits s.raw.adcH s.tfine s.cal
  s.writeHum h (cvtH P.floatConv h)

/-- COMP_H under the parameters `P`. -/
def compHWith (P : Params) (s : State) : Host.Outcome State Fault Refusal :=
  command s.status.needTfine (compHBody P) s

/-- `COMP_H` (R152) on this hardware (R7). -/
def execCompH (s : State) : Host.Outcome State Fault Refusal :=
  compHWith Config.hardware s

end Sys2Proof.Machine
end

