-- ==== Sys2Proof/Machine/Load.lean ====
section
/-!
DEFINITION. Machine/Load.lean: CAL_LOAD (spec/40_calibration.md R101, R102) and RAW_LOAD (spec/41_sample.md R121).
-/
namespace Sys2Proof.Machine

open Sys2Proof

/-- The writes of CAL_LOAD (R101): any 33 bytes decode, with no validation (R109). -/
def calLoadBody (a : Vector Byte 26) (b : Vector Byte 7) (s : State) : State :=
  s.loadCal (decodeCalibration a b)

/-- `CAL_LOAD` (R101): refused with `ERR_CAL_LOCKED` once calibration is loaded (R102). -/
def execCalLoad (a : Vector Byte 26) (b : Vector Byte 7) (s : State) : Host.Outcome State Fault Refusal :=
  command s.status.needUnlocked (calLoadBody a b) s

/-- The writes of RAW_LOAD (R121): any 8 bytes are accepted (R126). -/
def rawLoadBody (burst : Vector Byte 8) (s : State) : State :=
  s.loadRaw (decodeRaw burst)

/-- `RAW_LOAD` (R121): a new read cycle starts (R120). -/
def execRawLoad (burst : Vector Byte 8) (s : State) : Host.Outcome State Fault Refusal :=
  command s.status.needCal (rawLoadBody burst) s

end Sys2Proof.Machine
end

