-- ==== Sys2Proof/Machine/Pressure.lean ====
section
/-!
DEFINITION. Machine/Pressure.lean: COMP_P (spec/43_pressure.md R140 to R149).

Every intermediate is a signed 64-bit value, wrapping (R140); products associate to the left (R142).
-/
namespace Sys2Proof.Machine

open Sys2Proof

/-- The fine temperature's offset in pressure, the first line of R142: `sext_64(TFINE) - 128000`. -/
def presFine (tfine : Word) : BitVec 64 :=
  sext 64 tfine - 128000

/-- `var2` of stage 1 (R142), from `v = TFINE - 128000`. -/
def presVar2 (v : BitVec 64) (c : Calibration) : BitVec 64 :=
  (v * v * sext 64 c.digP6 + ((v * sext 64 c.digP5) <<< 17)) + (sext 64 c.digP4 <<< 35)

/-- The polynomial that becomes the divisor, the fifth line of R142. -/
def presPoly (v : BitVec 64) (c : Calibration) : BitVec 64 :=
  asr (v * v * sext 64 c.digP3) 8 + ((v * sext 64 c.digP2) <<< 12)

/-- The divisor: the last `var1` of R142. -/
def presDivisor (v : BitVec 64) (c : Calibration) : BitVec 64 :=
  asr ((((1 : BitVec 64) <<< 47) + presPoly v c) * zext 64 c.digP1) 33

/-- The division stage (R145): truncated toward zero, and `(-2^63) / (-1) = -2^63` (R11). -/
def presQuotient (adcP : Code20) (var1 var2 : BitVec 64) : BitVec 64 :=
  ((((1048576 - zext 64 adcP) <<< 31) - var2) * 3125).sdiv var1

/-- The correction stage (R146). -/
def presCorrect (p : BitVec 64) (c : Calibration) : BitVec 64 :=
  let var1 := asr (sext 64 c.digP9 * asr p 13 * asr p 13) 25
  let var2 := asr (sext 64 c.digP8 * p) 19
  asr (p + var1 + var2) 8 + (sext 64 c.digP7 <<< 4)

/-- The pressure in Pa times 256 at s64 (R143): 0, the sentinel, where the divisor is 0 (R144). -/
def pressure (adcP : Code20) (tfine : Word) (c : Calibration) : BitVec 64 :=
  let v    := presFine tfine
  let var1 := presDivisor v c
  if var1 = 0 then 0 else presCorrect (presQuotient adcP var1 (presVar2 v c)) c

/-- The writes of COMP_P (R143); `P_OUT` is the low 32 bits (R147). -/
def compPBody (P : Params) (s : State) : State :=
  let p := trunc32 (pressure s.raw.adcP s.tfine s.cal)
  s.writePres p (cvtP P.floatConv p)

/-- COMP_P under the parameters `P`. -/
def compPWith (P : Params) (s : State) : Host.Outcome State Fault Refusal :=
  command s.status.needTfine (compPBody P) s

/-- `COMP_P` (R143) on this hardware (R7). -/
def execCompP (s : State) : Host.Outcome State Fault Refusal :=
  compPWith Config.hardware s

end Sys2Proof.Machine
end

