-- ==== Sys2Proof/Machine/Temperature.lean ====
section
/-!
DEFINITION. Machine/Temperature.lean: COMP_T (spec/42_temperature.md R130 to R137).

All arithmetic is at the signed width `w`, wrapping (R9); the terms are evaluated in the order the rules write them.
-/
namespace Sys2Proof.Machine

open Sys2Proof

/-- Stage 1 (R133): `(((ADC_T >> 3) - (dig_T1 << 1)) * dig_T2) >> 11`. -/
def tempVar1 {w : Nat} (a t1 t2 : BitVec w) : BitVec w :=
  asr ((asr a 3 - (t1 <<< 1)) * t2) 11

/-- Stage 2 (R134): with `d = (ADC_T >> 4) - dig_T1`, `(((d * d) >> 12) * dig_T3) >> 14`. -/
def tempVar2 {w : Nat} (a t1 t3 : BitVec w) : BitVec w :=
  let d := asr a 4 - t1
  asr (asr (d * d) 12 * t3) 14

/-- The fine temperature at width `w` (R135), from operands widened as R131 says. -/
def tempFine (w : Nat) (adcT : Code20) (c : Calibration) : BitVec w :=
  let a  := zext w adcT
  let t1 := zext w c.digT1
  tempVar1 a t1 (sext w c.digT2) + tempVar2 a t1 (sext w c.digT3)

/-- The temperature in 0.01 degC at width `w` (R135): `(t_fine * 5 + 128) >> 8`. -/
def tempCenti {w : Nat} (tf : BitVec w) : BitVec w :=
  asr (tf * 5 + 128) 8

/-- The writes of COMP_T (R132). -/
def compTBody (P : Params) (s : State) : State :=
  let tf := tempFine P.tempWidth.bits s.raw.adcT s.cal
  let t  := trunc32 (tempCenti tf)
  s.writeTemp (trunc32 tf) t (cvtT P.floatConv t)

/-- COMP_T under the parameters `P`. -/
def compTWith (P : Params) (s : State) : Host.Outcome State Fault Refusal :=
  command s.status.needRaw (compTBody P) s

/-- `COMP_T` (R132) on this hardware (R7). -/
def execCompT (s : State) : Host.Outcome State Fault Refusal :=
  compTWith Config.hardware s

end Sys2Proof.Machine
end

