-- ==== Sys2Proof/Machine/Control.lean ====
section
/-!
DEFINITION. Machine/Control.lean: NOP and MEASURE (spec/45_control.md R160 to R163).
-/
namespace Sys2Proof.Machine

open Sys2Proof

/-- `NOP` (R160): no check, no write but `ERR <- OK; fi <- fi + 1`. -/
def execNop (s : State) : Host.Outcome State Fault Refusal :=
  command none id s

/-- The writes of MEASURE (R162): the four bodies in order, each seeing the writes of the ones before. -/
def measureBody (P : Params) (burst : Vector Byte 8) (s : State) : State :=
  compHBody P (compPBody P (compTBody P (rawLoadBody burst s)))

/-- MEASURE under the parameters `P`. -/
def measureWith (P : Params) (burst : Vector Byte 8) (s : State) : Host.Outcome State Fault Refusal :=
  command s.status.needCal (measureBody P burst) s

/-- `MEASURE` (R162) on this hardware (R7). -/
def execMeasure (burst : Vector Byte 8) (s : State) : Host.Outcome State Fault Refusal :=
  measureWith Config.hardware burst s

end Sys2Proof.Machine
end

