-- ==== Sys2Proof/Machine/Dispatch.lean ====
section
/-!
DEFINITION. Machine/Dispatch.lean: the meaning of each command, one arm per row of spec/opcode_table.json.
-/
namespace Sys2Proof.Machine

open Sys2Proof

def exec (i : Instr) (s : State) : Host.Outcome State Fault Refusal :=
  match i with
  | .nop => Sys2Proof.Machine.execNop s
  | .calLoad blockA blockB => Sys2Proof.Machine.execCalLoad blockA blockB s
  | .rawLoad burst => Sys2Proof.Machine.execRawLoad burst s
  | .compT => Sys2Proof.Machine.execCompT s
  | .compP => Sys2Proof.Machine.execCompP s
  | .compH => Sys2Proof.Machine.execCompH s
  | .measure burst => Sys2Proof.Machine.execMeasure burst s

end Sys2Proof.Machine
end

