-- ==== Sys2Proof/Machine/Step.lean ====
section
/-!
DEFINITION. Machine/Step.lean: one step of the engine (spec/00_scope.md R6): one frame, whole.

Everything a step does stands in Machine/Ops.lean (`fetch`) and in the meanings; this file calls them.
-/
namespace Sys2Proof.Machine

open Sys2Proof

/-- One step: the engine takes the next frame and executes it (R6, R70). -/
def step (s : State) : Host.Outcome State Fault Refusal :=
  match fetch s with
  | .goesOn t => .next t
  | .run i t  => exec i t
  | .stuck r  => .refused r

/-- `s` with an instruction of the opcode table as the next frame the host presents: the instruction's bits below
`nbits` are those of `w`, its later bits 0 (log entries 2 and 16). -/
def State.withFetchWord (s : State) (nbits w : Nat) : State :=
  let bs := tableBytes nbits w
  s.presentFirst (bs.take (frameSpan bs))

end Sys2Proof.Machine
end

