-- ==== Sys2Proof/Machine/Assembler.lean ====
section
/-!
DEFINITION. Machine/Assembler.lean: the assembly syntax of spec/30_encoding.md R83 and the pseudo-instruction CYCLE
of R84, from a line of text to frame bytes.

It is a host-side tool: no step of the engine uses it. Lexical detail R83 does not give is log entry 17.
-/
namespace Sys2Proof.Assembler

open Sys2Proof

/-- One line of a program (R83, R84). -/
inductive AsmLine where
  /-- a mnemonic and its operand bytes -/
  | instr (i : Instr)
  /-- `.byte <x>`: one raw byte, the only way to write an illegal opcode -/
  | rawByte (b : Byte)
  /-- `CYCLE <b0> .. <b7>` -/
  | cycle (burst : Vector Byte 8)
  deriving DecidableEq, Repr

/-- The four commands CYCLE expands to (R84). -/
def cycleExpansion (burst : Vector Byte 8) : List Instr :=
  [.rawLoad burst, .compT, .compP, .compH]

/-- The bytes of a line. -/
def assembleLine : AsmLine → List Byte
  | .instr i     => encode i
  | .rawByte b   => [b]
  | .cycle burst => (cycleExpansion burst).flatMap encode

/-- The bytes of a program, line after line (R70). -/
def assemble (lines : List AsmLine) : List Byte :=
  lines.flatMap assembleLine

/-! ### Reading a line -/

/-- The value of a hexadecimal digit. -/
def hexDigit (c : Char) : Option Nat :=
  let n := c.toNat
  if 48 ≤ n ∧ n ≤ 57 then some (n - 48)
  else if 65 ≤ n ∧ n ≤ 70 then some (n - 55)
  else if 97 ≤ n ∧ n ≤ 102 then some (n - 87)
  else none

/-- A byte written as two hexadecimal digits. -/
def hexByte : List Char → Option Byte
  | [h, l] =>
    match hexDigit h, hexDigit l with
    | some a, some b => some (BitVec.ofNat 8 (16 * a + b))
    | _, _ => none
  | _ => none

/-- Bytes written one after another. -/
def hexBytes : List (List Char) → Option (List Byte)
  | [] => some []
  | w :: ws =>
    match hexByte w, hexBytes ws with
    | some b, some bs => some (b :: bs)
    | _, _ => none

/-- The line without its comment: `;` starts one (R83). -/
def withoutComment (line : List Char) : List Char :=
  line.takeWhile (fun c => !(c == ';'))

/-- The words of a line, `current` being the word read so far, in reverse. -/
def splitWords : List Char → List Char → List (List Char)
  | current, [] => if current.isEmpty then [] else [current.reverse]
  | current, c :: cs =>
    if c == ' ' || c == '\t' then
      if current.isEmpty then splitWords [] cs else current.reverse :: splitWords [] cs
    else splitWords (c :: current) cs

/-- The words of a line, comment left out. -/
def wordsOf (line : List Char) : List (List Char) :=
  splitWords [] (withoutComment line)

/-- The operand bytes `ws` of a command that takes a raw burst. -/
def burstLine (mk : Vector Byte 8 → AsmLine) (ws : List (List Char)) : Option AsmLine :=
  match hexBytes ws with
  | none => none
  | some bs =>
    match takeBytes 8 bs with
    | some (burst, []) => some (mk burst)
    | _ => none

/-- The operands of CAL_LOAD, `A=<a0> .. <a25> B=<b0> .. <b6>`: the two labels are part of the words of `a0` and
`b0`. -/
def calLoadLine (ws : List (List Char)) : Option AsmLine :=
  match ws with
  | ('A' :: '=' :: a0) :: ws' =>
    match ws'.drop 25 with
    | ('B' :: '=' :: b0) :: bs' =>
      match hexBytes (a0 :: ws'.take 25), hexBytes (b0 :: bs') with
      | some a, some b =>
        match takeBytes 26 a, takeBytes 7 b with
        | some (blockA, []), some (blockB, []) => some (.instr (.calLoad blockA blockB))
        | _, _ => none
      | _, _ => none
    | _ => none
  | _ => none

/-- `.byte <x>`, with or without `0x` before the digits. -/
def byteLine : List (List Char) → Option AsmLine
  | ['0' :: 'x' :: ds] => (hexByte ds).map .rawByte
  | [ds] => (hexByte ds).map .rawByte
  | _ => none

/-- One line that holds a frame (R83): a mnemonic in upper case, then its operands. A line without words, or one that
is no line of R83, gives none. -/
def parseLine (line : List Char) : Option AsmLine :=
  match wordsOf line with
  | [] => none
  | mnemonic :: ws =>
    if mnemonic = ['N', 'O', 'P'] then (if ws.isEmpty then some (.instr .nop) else none)
    else if mnemonic = ['C', 'O', 'M', 'P', '_', 'T'] then (if ws.isEmpty then some (.instr .compT) else none)
    else if mnemonic = ['C', 'O', 'M', 'P', '_', 'P'] then (if ws.isEmpty then some (.instr .compP) else none)
    else if mnemonic = ['C', 'O', 'M', 'P', '_', 'H'] then (if ws.isEmpty then some (.instr .compH) else none)
    else if mnemonic = ['R', 'A', 'W', '_', 'L', 'O', 'A', 'D'] then burstLine (fun b => .instr (.rawLoad b)) ws
    else if mnemonic = ['M', 'E', 'A', 'S', 'U', 'R', 'E'] then burstLine (fun b => .instr (.measure b)) ws
    else if mnemonic = ['C', 'Y', 'C', 'L', 'E'] then burstLine .cycle ws
    else if mnemonic = ['C', 'A', 'L', '_', 'L', 'O', 'A', 'D'] then calLoadLine ws
    else if mnemonic = ['.', 'b', 'y', 't', 'e'] then byteLine ws
    else none

end Sys2Proof.Assembler
end

