-- ==== Sys2Proof/Machine/Ports.lean ====
section
/-!
DEFINITION. Machine/Ports.lean: what the host reads on the engine's output ports (spec/10_state.md R37, R38).

A read has no side effect (R37, R59): it is a function of the state and yields no state.
-/
namespace Sys2Proof.Machine

open Sys2Proof

/-- The width of a port: that of its register (R22 to R28). -/
def Port.width : Port → Nat
  | .digH1 | .digH3 | .digH6 => 8
  | .adcP | .adcT => 20
  | .tfine | .tOut | .pOut | .hOut | .tempC | .presHpa | .humPct => 32
  | .digT1 | .digT2 | .digT3 => 16
  | .digP1 | .digP2 | .digP3 | .digP4 | .digP5 | .digP6 | .digP7 | .digP8 | .digP9 => 16
  | .digH2 | .digH4 | .digH5 => 16
  | .adcH => 16
  | .status => 16

/-- The register behind a port. -/
def Port.register (s : State) : (p : Port) → BitVec p.width
  | .digT1 => s.cal.digT1
  | .digT2 => s.cal.digT2
  | .digT3 => s.cal.digT3
  | .digP1 => s.cal.digP1
  | .digP2 => s.cal.digP2
  | .digP3 => s.cal.digP3
  | .digP4 => s.cal.digP4
  | .digP5 => s.cal.digP5
  | .digP6 => s.cal.digP6
  | .digP7 => s.cal.digP7
  | .digP8 => s.cal.digP8
  | .digP9 => s.cal.digP9
  | .digH1 => s.cal.digH1
  | .digH2 => s.cal.digH2
  | .digH3 => s.cal.digH3
  | .digH4 => s.cal.digH4
  | .digH5 => s.cal.digH5
  | .digH6 => s.cal.digH6
  | .adcP => s.raw.adcP
  | .adcT => s.raw.adcT
  | .adcH => s.raw.adcH
  | .tfine => s.tfine
  | .tOut => s.tOut
  | .pOut => s.pOut
  | .hOut => s.hOut
  | .tempC => s.tempC
  | .presHpa => s.presHpa
  | .humPct => s.humPct
  | .status => s.status.word

/-- The register holds a value: its validity flag is 1; `STATUS` always does (R38). -/
def Port.holdsValue (st : Status) : Port → Bool
  | .digT1 | .digT2 | .digT3 => st.calv
  | .digP1 | .digP2 | .digP3 | .digP4 | .digP5 | .digP6 | .digP7 | .digP8 | .digP9 => st.calv
  | .digH1 | .digH2 | .digH3 | .digH4 | .digH5 | .digH6 => st.calv
  | .adcP | .adcT | .adcH => st.rawv
  | .tfine => st.tfv
  | .tOut | .tempC => st.tv
  | .pOut | .presHpa => st.pv
  | .hOut | .humPct => st.hv
  | .status => true

/-- What the host draws at the ports whose registers hold no value. It is an argument of every read, so that whatever
observes a read quantifies over it (R38; log entry 7). -/
abbrev Draw := (p : Port) → BitVec p.width

/-- A host read of a port: the register's value, or what the host draws where the register holds none (R38). -/
def readPort (draw : Draw) (s : State) (p : Port) : BitVec p.width :=
  if p.holdsValue s.status then p.register s else draw p

end Sys2Proof.Machine
end

