-- ==== Sys2Proof/Machine/Boundary.lean ====
section
/-!
DEFINITION. Machine/Boundary.lean: the host-side byte formats of spec/48_boundary.md R180 to R192: bus requests and
responses, the initialisation and read sequences, and the wire payload.

None of it is engine state or an engine command: no step of the engine uses this file. The sensor behind the bus is
outside the model, so a bus is any function that answers requests. The engine is the machine of Machine/Step.lean: it
executes each frame the host issues, after whatever it still had to execute, before the host goes on (R5, R61; log
entry 19).
-/
namespace Sys2Proof.Boundary

open Sys2Proof Sys2Proof.Machine

/-- The source's four error kinds, all host-side; none changes engine state (R207). -/
inductive HostError where
  | transport
  | unexpectedChipId
  | calibration
  | read
  deriving DecidableEq, Repr

/-- What the host does, in order: an exchange on the bus, the fixed settling delay (R186), a frame for the engine, a
read of one of the engine's ports (R189). -/
inductive HostAction where
  | exchange (request : List Byte)
  | settle (delay : Nat)
  | issue (frame : List Byte)
  | read (port : Port)
  deriving DecidableEq, Repr

/-- A bus with whatever is behind it: one exchange answers a response or fails (R180). -/
structure Bus (σ : Type) where
  exchange : σ → List Byte → Option (List Byte) × σ

/-- The state a host program runs over: what is behind the bus, and the host's actions so far. -/
abbrev HostState (σ : Type) := σ × List HostAction

/-- A host program: a result or an error, and the state after it. -/
abbrev HostProgram (σ α : Type) := HostState σ → Except HostError α × HostState σ

variable {σ α β : Type}

/-- The program that does nothing and answers `a`. -/
def give (a : α) : HostProgram σ α := fun h => (.ok a, h)

/-- The program that fails. -/
def failWith (e : HostError) : HostProgram σ α := fun h => (.error e, h)

/-- One program after another; the first error ends the whole: nothing is retried (R189, R207). -/
def andThen (m : HostProgram σ α) (k : α → HostProgram σ β) : HostProgram σ β := fun h =>
  match m h with
  | (.ok a, h')    => k a h'
  | (.error e, h') => (.error e, h')

/-- A program whose failure is reported as `e`. -/
def reportAs (e : HostError) (m : HostProgram σ α) : HostProgram σ α := fun h =>
  match m h with
  | (.ok a, h')    => (.ok a, h')
  | (.error _, h') => (.error e, h')

/-- The host records an action. -/
def act (a : HostAction) : HostProgram σ Unit := fun h => (.ok (), h.1, h.2 ++ [a])

/-! ### Bus exchange and register protocol -/

/-- One exchange: the response is as long as the request, or the exchange failed (R180; log entry 15). -/
def exchange (bus : Bus σ) (request : List Byte) : HostProgram σ (List Byte) := fun h =>
  let answered := bus.exchange h.1 request
  let h' := (answered.2, h.2 ++ [HostAction.exchange request])
  match answered.1 with
  | none => (.error .transport, h')
  | some response => if response.length = request.length then (.ok response, h') else (.error .transport, h')

/-- The first byte of a read request: the read marker in bit 7, the address below it (R181). -/
def readMarker (addr : BitVec 7) : Byte := 0x80 ||| addr.setWidth 8

/-- The request of `readRegister` (R181). -/
def readRequest (addr : BitVec 7) : List Byte := [readMarker addr, 0x00]

/-- The request of `writeRegister` (R182). -/
def writeRequest (addr : BitVec 7) (value : Byte) : List Byte := [addr.setWidth 8 &&& 0x7F, value]

/-- The request of `readBlock`: the dummy bytes are 0x00 (R183, D28). -/
def blockRequest (addr : BitVec 7) (n : Nat) : List Byte := readMarker addr :: List.replicate n 0x00

/-- `readRegister`: response byte 1 (R181). -/
def readRegister (bus : Bus σ) (addr : BitVec 7) : HostProgram σ Byte :=
  andThen (exchange bus (readRequest addr)) fun response =>
    match response[1]? with
    | some b => give b
    | none   => failWith .transport

/-- `writeRegister`: the response is discarded (R182). -/
def writeRegister (bus : Bus σ) (addr : BitVec 7) (value : Byte) : HostProgram σ Unit :=
  andThen (exchange bus (writeRequest addr value)) fun _ => give ()

/-- `readBlock`: response bytes 1 to n (R183). -/
def readBlock (bus : Bus σ) (addr : BitVec 7) (n : Nat) : HostProgram σ (Vector Byte n) :=
  andThen (exchange bus (blockRequest addr n)) fun response =>
    match takeBytes n (response.drop 1) with
    | some (block, _) => give block
    | none            => failWith .transport

/-! ### Initialisation and read sequence -/

/-- Step 1: identification; a mismatch is fatal and not retried (R185). -/
def identify (bus : Bus σ) : HostProgram σ Unit :=
  andThen (readRegister bus Config.regChipId) fun b =>
    if b = Config.chipIdValue then give () else failWith .unexpectedChipId

/-- Step 2: the sensor's soft reset, then the fixed delay; no readiness is polled (R186). -/
def softReset (bus : Bus σ) : HostProgram σ Unit :=
  andThen (writeRegister bus Config.regReset Config.resetCmd) fun _ => act (.settle Config.resetSettle)

/-- Step 3: both calibration blocks, then one CAL_LOAD; if either read fails none is issued (R187, R110). DESIGN CHOICE:
after a failed read of block A the host does not read block B (log entry 20). -/
def loadCalibration (bus : Bus σ) : HostProgram σ Unit :=
  andThen (reportAs .calibration (readBlock bus Config.regCalibA 26)) fun a =>
  andThen (reportAs .calibration (readBlock bus Config.regCalibB 7)) fun b =>
    act (.issue (encode (.calLoad a b)))

/-- Step 4: the three configuration writes, humidity control before measurement control (R188, R238). -/
def configure (bus : Bus σ) : HostProgram σ Unit :=
  andThen (writeRegister bus Config.regCtrlHum Config.cfgHum) fun _ =>
  andThen (writeRegister bus Config.regCtrlMeas Config.cfgMeas) fun _ =>
    writeRegister bus Config.regConfig Config.cfgConfig

/-- The whole initialisation, in the order of R233 (R185 to R188). -/
def initialise (bus : Bus σ) : HostProgram σ Unit :=
  andThen (identify bus) fun _ =>
  andThen (softReset bus) fun _ =>
  andThen (loadCalibration bus) fun _ => configure bus

/-- The frame bytes the host issued, in order: what it presents to the engine. -/
def issuedBytes : List HostAction → List Byte
  | []                  => []
  | .issue frame :: acts => frame ++ issuedBytes acts
  | _ :: acts           => issuedBytes acts

/-! ### The engine beside the host, and the read cycle -/

/-- At most `n` steps of the engine, as far as it has one. -/
def drain : Nat → State → State
  | 0, s     => s
  | n + 1, s =>
    match step s with
    | .next t    => drain n t
    | .fault _   => s
    | .refused _ => s

/-- The engine once it has executed all that was presented to it before, in order, or is stuck on the way (R61, R82,
R65). Every step takes at least one entry of the input, so its length bounds the steps. That the engine does this before
it takes the frame the host issues is the model's reading of R61 (log entry 19). -/
def drained (s : State) : State := drain s.host.length s

/-- The engine executes the frame the host issues: first what was presented before, then the frame, one step on it alone
(R61, R70). `none` where it has no step for it: what was presented before has stuck it, and a frame presented then
contends with one that is not complete (R65, R240, R82; log entry 19). -/
def execute (frame : List Byte) (s : State) : Option State :=
  if (drained s).host = [] then
    match step ((drained s).present frame) with
    | .next t    => some t
    | .fault _   => none
    | .refused _ => none
  else none

/-- The engine after the host's actions, `s` being the engine before the first of them; `none` once it has no step for a
frame issued. Only a frame changes it: an exchange with the sensor does not (R232), and a port read has no side effect
(R37). -/
def engineAfter (s : State) : List HostAction → Option State
  | []                   => some s
  | .issue frame :: acts => (execute frame s).bind fun t => engineAfter t acts
  | _ :: acts            => engineAfter s acts

/-- The source's PhysicalReading (R27, R164). -/
structure PhysicalReading where
  tempC   : Binary32
  presHpa : Binary32
  humPct  : Binary32
  deriving DecidableEq, Repr

/-- The host reads the three outputs at the engine's ports (R189); where a flag is 0 it draws (R38). -/
def reading (draw : Draw) (s : State) : PhysicalReading :=
  { tempC := readPort draw s .tempC, presHpa := readPort draw s .presHpa, humPct := readPort draw s .humPct }

/-- The two checks R241 lets a host make before it takes what the result registers read as: their validity flags, or
the outcome of the command that wrote them. -/
inductive ResultCheck where
  | flags
  | outcome
  deriving DecidableEq, Repr

/-- The check on a `STATUS` word as the host reads it: `TV`, `PV` and `HV` in bits 3 to 5, or `ERR = OK` in bits 11:8
(R241, R28). `ERR` is the outcome of the last command executed (R34), so the word for that check is the one read right
after the command that wrote the results (R243). -/
def ResultCheck.passes (statusWord : BitVec 16) : ResultCheck → Bool
  | .flags   => statusWord.getLsbD 3 && statusWord.getLsbD 4 && statusWord.getLsbD 5
  | .outcome => statusWord.extractLsb' 8 4 == 0

/-- What the host takes of the result registers, `s` being the engine right after the command that wrote them: a reading
where its check of `STATUS` passes, and none otherwise, since they then hold values of no current cycle (R241; log entry
19). -/
def checkedReading (check : ResultCheck) (draw : Draw) (s : State) : Option PhysicalReading :=
  if check.passes (readPort draw s .status) then some (reading draw s) else none

/-- The host reads `STATUS` for its check (R241, R243), then `TEMP_C`, `PRES_HPA` and `HUM_PCT`, in that order (R189),
of the engine as its actions so far have left it; `engine` is the engine before the first of them. Where the engine had
no step for the frame issued there is nothing to take. -/
def readOutputs (check : ResultCheck) (draw : Draw) (engine : State) :
    HostProgram σ (Option PhysicalReading) := fun h =>
  (.ok ((engineAfter engine h.2).bind (checkedReading check draw)), h.1,
    h.2 ++ [.read .status, .read .tempC, .read .presHpa, .read .humPct])

/-- One read cycle: the burst, then one MEASURE of it, then the three outputs under the host's check. A failed burst is
`ReadError` and issues no frame, and nothing is retried (R189, R127, R241). -/
def readCycle (bus : Bus σ) (check : ResultCheck) (draw : Draw) (engine : State) :
    HostProgram σ (Option PhysicalReading) :=
  andThen (reportAs .read (readBlock bus Config.regData 8)) fun burst =>
  andThen (act (.issue (encode (.measure burst)))) fun _ => readOutputs check draw engine

/-! ### The wire payload -/

/-- Four bytes, most significant first (R55). -/
def be32 (v : BitVec 32) : List Byte :=
  [v.extractLsb' 24 8, v.extractLsb' 16 8, v.extractLsb' 8 8, v.extractLsb' 0 8]

/-- Eight bytes, most significant first (R55). -/
def be64 (v : BitVec 64) : List Byte :=
  be32 (v.extractLsb' 32 32) ++ be32 (v.extractLsb' 0 32)

/-- The wire payload: the host's timestamp, then the three readings, 20 bytes (R190). -/
def encodePayload (timestamp : Binary64) (r : PhysicalReading) : List Byte :=
  be64 timestamp ++ be32 r.tempC ++ be32 r.presHpa ++ be32 r.humPct

/-- What a payload decodes to: a timestamp and a reading, or the distinct result "invalid" (R191). -/
inductive Payload where
  | invalid
  | reading (timestamp : Binary64) (r : PhysicalReading)
  deriving DecidableEq, Repr

/-- Four bytes read back, most significant first. -/
def fromBe32 (b0 b1 b2 b3 : Byte) : BitVec 32 := b0 ++ b1 ++ b2 ++ b3

/-- A payload of any length but 20 is invalid, and no byte out of bounds is read (R191). -/
def decodePayload : List Byte → Payload
  | [t0, t1, t2, t3, t4, t5, t6, t7, c0, c1, c2, c3, p0, p1, p2, p3, h0, h1, h2, h3] =>
    .reading (fromBe32 t0 t1 t2 t3 ++ fromBe32 t4 t5 t6 t7)
      { tempC := fromBe32 c0 c1 c2 c3, presHpa := fromBe32 p0 p1 p2 p3, humPct := fromBe32 h0 h1 h2 h3 }
  | _ => .invalid

end Sys2Proof.Boundary
end

