-- ==== Sys2Proof/Safety.lean ====
section
/-!
DEFINITION. Safety.lean: the terms claims about runs use: the invariants of spec/10_state.md R36, the end of a run
(spec/70_reset_and_hazards.md R244), and "no error recorded" (R33).
-/
namespace Sys2Proof.Safety

open Sys2Proof Sys2Proof.Machine

/-- R36: how the validity flags depend on each other, and the range of `H_OUT` where it is valid. -/
structure FlagsOrdered (s : State) : Prop where
  tfv_needs_rawv : s.status.tfv = true → s.status.rawv = true
  rawv_needs_calv : s.status.rawv = true → s.status.calv = true
  tv_needs_tfv : s.status.tv = true → s.status.tfv = true
  pv_needs_tfv : s.status.pv = true → s.status.tfv = true
  hv_needs_tfv : s.status.hv = true → s.status.tfv = true
  hOut_in_range : s.status.hv = true → s.hOut.toNat ≤ 102400

/-- R22, R106: `dig_H4` and `dig_H5` hold a signed 12-bit value. -/
structure PackedInRange (s : State) : Prop where
  h4_low  : -2048 ≤ s.cal.digH4.toInt
  h4_high : s.cal.digH4.toInt ≤ 2047
  h5_low  : -2048 ≤ s.cal.digH5.toInt
  h5_high : s.cal.digH5.toInt ≤ 2047

/-- Every register whose flag is 1 holds the result of the current raw sample and calibration: no value is stale
(R120, R137, R149, R159). -/
structure ResultsCurrent (s : State) : Prop where
  tfine_current : s.status.tfv = true → s.tfine = trunc32 (tempFine Config.hardware.tempWidth.bits s.raw.adcT s.cal)
  tOut_current : s.status.tv = true →
    s.tOut = trunc32 (tempCenti (tempFine Config.hardware.tempWidth.bits s.raw.adcT s.cal))
  tempC_current : s.status.tv = true → s.tempC = cvtT Config.hardware.floatConv s.tOut
  pOut_current : s.status.pv = true → s.pOut = trunc32 (pressure s.raw.adcP s.tfine s.cal)
  presHpa_current : s.status.pv = true → s.presHpa = cvtP Config.hardware.floatConv s.pOut
  hOut_current : s.status.hv = true → s.hOut = humidity Config.hardware.humWidth.bits s.raw.adcH s.tfine s.cal
  humPct_current : s.status.hv = true → s.humPct = cvtH Config.hardware.floatConv s.hOut

/-- The host's sequence has ended and its last frame has completed (R244): the final state. -/
def Finished (s : State) : Prop := s.host = []

/-- The run is stuck: the engine has no step (R82, R65, R244). -/
def Stuck (s : State) : Prop := ∃ r, step s = .refused r

/-- The premise "no error recorded" (R33, R244). -/
def NoErrorRecorded (s : State) : Prop := s.status.estky = false

/-- The engine's registers, less the frame index and the host's input, agree: what R84 and R163 compare. -/
def SameRegisters (s t : State) : Prop :=
  { s with fi := 0, host := [] } = { t with fi := 0, host := [] }

end Sys2Proof.Safety
end

