-- ==== Sys2Proof/Certificates/Slice0/Obligations.lean ====
section
/-!
DEFINITION. Certificates/Slice0/Obligations.lean: the statements for the provers.

The first part gives the spec's arithmetic a second time, over the unbounded integers with every operation reduced to
its width as spec/00_scope.md R9 and R10 say, so that a result statement compares the bit-vector datapath with the
rule's own words and not with itself.
-/

namespace Sys2Proof.Reference

open Sys2Proof Sys2Proof.Machine

/-- Reduction modulo `2^w` into the signed range (R9). -/
def wrap (w : Nat) (x : Int) : Int := x.bmod (2 ^ w)

/-- `x << k` at width `w` (R10). -/
def shl (w k : Nat) (x : Int) : Int := wrap w (x * 2 ^ k)

/-- `x >> k` on a signed value: `floor (x / 2^k)` (R10). -/
def sar (k : Nat) (x : Int) : Int := x / 2 ^ k

/-! ### Temperature, R133 to R135 -/

def tempVar1 (w : Nat) (a t1 t2 : Int) : Int :=
  sar 11 (wrap w (wrap w (sar 3 a - shl w 1 t1) * t2))

def tempVar2 (w : Nat) (a t1 t3 : Int) : Int :=
  let d := wrap w (sar 4 a - t1)
  sar 14 (wrap w (sar 12 (wrap w (d * d)) * t3))

def tempFine (w : Nat) (a t1 t2 t3 : Int) : Int :=
  wrap w (tempVar1 w a t1 t2 + tempVar2 w a t1 t3)

def tempCenti (w : Nat) (tf : Int) : Int :=
  sar 8 (wrap w (wrap w (tf * 5) + 128))

/-- The exact intermediates of COMP_T, none reduced to a width (R130). -/
def tempTerms (a t1 t2 t3 : Int) : List Int :=
  let e := sar 3 a - 2 * t1
  let d := sar 4 a - t1
  let tf := sar 11 (e * t2) + sar 14 (sar 12 (d * d) * t3)
  [2 * t1, e, e * t2, d, d * d, sar 12 (d * d) * t3, tf, tf * 5, tf * 5 + 128]

/-! ### Pressure, R142 to R146, at s64 -/

def presVar2 (v : Int) (c : Calibration) : Int :=
  wrap 64 (wrap 64 (wrap 64 (wrap 64 (v * v) * c.digP6.toInt) + shl 64 17 (wrap 64 (v * c.digP5.toInt)))
    + shl 64 35 c.digP4.toInt)

def presDivisor (v : Int) (c : Calibration) : Int :=
  let poly := wrap 64 (sar 8 (wrap 64 (wrap 64 (v * v) * c.digP3.toInt)) + shl 64 12 (wrap 64 (v * c.digP2.toInt)))
  sar 33 (wrap 64 (wrap 64 (2 ^ 47 + poly) * c.digP1.toNat))

def presQuotient (adcP var1 var2 : Int) : Int :=
  wrap 64 ((wrap 64 (wrap 64 (shl 64 31 (1048576 - adcP) - var2) * 3125)).tdiv var1)

def presCorrect (p : Int) (c : Calibration) : Int :=
  let var1 := sar 25 (wrap 64 (wrap 64 (c.digP9.toInt * sar 13 p) * sar 13 p))
  let var2 := sar 19 (wrap 64 (c.digP8.toInt * p))
  wrap 64 (sar 8 (wrap 64 (wrap 64 (p + var1) + var2)) + shl 64 4 c.digP7.toInt)

def pressure (adcP tfine : Int) (c : Calibration) : Int :=
  let v := wrap 64 (tfine - 128000)
  if presDivisor v c = 0 then 0
  else presCorrect (presQuotient adcP (presDivisor v c) (presVar2 v c)) c

/-! ### Humidity, R153 to R157 -/

def humU (w : Nat) (x adcH : Int) (c : Calibration) : Int :=
  sar 15 (wrap w (wrap w (wrap w (shl w 14 adcH - shl w 20 c.digH4.toInt) - wrap w (c.digH5.toInt * x)) + 16384))

def humV (w : Nat) (x : Int) (c : Calibration) : Int :=
  let scaled := sar 10 (wrap w (sar 10 (wrap w (x * c.digH6.toInt)) * wrap w (sar 11 (wrap w (x * c.digH3.toNat)) + 32768)))
  sar 14 (wrap w (wrap w (wrap w (scaled + 2097152) * c.digH2.toInt) + 8192))

def humUnclamped (w : Nat) (adcH tfine : Int) (c : Calibration) : Int :=
  let x := wrap w (tfine - 76800)
  let y := wrap w (humU w x adcH c * humV w x c)
  wrap w (y - sar 4 (wrap w (sar 7 (wrap w (sar 15 y * sar 15 y)) * c.digH1.toNat)))

def humidity (w : Nat) (adcH tfine : Int) (c : Calibration) : Int :=
  sar 12 (max 0 (min 419430400 (humUnclamped w adcH tfine c)))

/-- The exact intermediates of COMP_H, none reduced to a width (R150). -/
def humTerms (adcH tfine : Int) (c : Calibration) : List Int :=
  let x := tfine - 76800
  let u1 := adcH * 2 ^ 14 - c.digH4.toInt * 2 ^ 20
  let u2 := u1 - c.digH5.toInt * x
  let v1 := sar 11 (x * c.digH3.toNat) + 32768
  let v2 := sar 10 (x * c.digH6.toInt) * v1
  let v3 := (sar 10 v2 + 2097152) * c.digH2.toInt
  let y := sar 15 (u2 + 16384) * sar 14 (v3 + 8192)
  let z := sar 15 y * sar 15 y
  [x, adcH * 2 ^ 14, c.digH4.toInt * 2 ^ 20, u1, c.digH5.toInt * x, u2, u2 + 16384,
   x * c.digH6.toInt, x * c.digH3.toNat, v1, v2, sar 10 v2 + 2097152, v3, v3 + 8192,
   y, z, sar 7 z * c.digH1.toNat, y - sar 4 (sar 7 z * c.digH1.toNat)]

/-- The value is in the s32 range. -/
def FitsS32 (x : Int) : Prop := -2147483648 ≤ x ∧ x ≤ 2147483647

/-! ### binary32, R11 -/

/-- The rational value of a finite binary32 pattern. -/
def binary32Value (f : Binary32) : ℚ :=
  (if f.msb then -1 else 1) *
    (if (f.extractLsb' 23 8).toNat = 0 then ((f.extractLsb' 0 23).toNat : ℚ) * 2 ^ (-149 : ℤ)
     else (2 ^ 23 + ((f.extractLsb' 0 23).toNat : ℚ)) * 2 ^ (((f.extractLsb' 23 8).toNat : ℤ) - 150))

/-- The pattern is neither infinite nor NaN. -/
def FiniteBinary32 (f : Binary32) : Prop := (f.extractLsb' 23 8).toNat ≠ 255

/-- `f` is `q` rounded to nearest, ties to even, and `+0.0` for 0 (R11). -/
structure IsFl32 (q : ℚ) (f : Binary32) : Prop where
  finite : FiniteBinary32 f
  nearest : ∀ g, FiniteBinary32 g → |q - binary32Value f| ≤ |q - binary32Value g|
  tie_even : ∀ g, FiniteBinary32 g → binary32Value g ≠ binary32Value f →
    |q - binary32Value g| = |q - binary32Value f| → f.getLsbD 0 = false
  zero : q = 0 → f = 0

/-! ### How commands end -/

/-- The command ends in `raise EngineError(e)`: three writes and nothing else (R201). -/
def Raises (i : Instr) (s : State) (e : ErrCode) : Prop :=
  exec i s = .next { s with fi := s.fi + 1, status := { s.status with err := e, estky := true } }

/-- Two states the host cannot tell apart: same frame index, status and input, and every port reads the same, whatever
the host draws. -/
structure SameToHost (s t : State) : Prop where
  fi : s.fi = t.fi
  status : s.status = t.status
  host : s.host = t.host
  ports : ∀ (draw : Draw) (p : Port), readPort draw s p = readPort draw t p

/-- The opcode values R75 lists as illegal. -/
def IllegalRange (b : Byte) : Prop :=
  (0x03 ≤ b.toNat ∧ b.toNat ≤ 0x0F) ∨ (0x13 ≤ b.toNat ∧ b.toNat ≤ 0x1F) ∨ (0x21 ≤ b.toNat ∧ b.toNat ≤ 0xFF)

/-! What the bus does, for the statements on the host's programs. -/

/-- The bus answers `request` with `response`, which is as long as the request (R180), and is then at `st'`. -/
def Answers {σ : Type} (bus : Boundary.Bus σ) (st : σ) (request response : List Byte) (st' : σ) : Prop :=
  bus.exchange st request = (some response, st') ∧ response.length = request.length

/-- The exchange of `request` fails, or its answer has another length (R180; log entry 15); the bus is then at `st'`. -/
def Fails {σ : Type} (bus : Boundary.Bus σ) (st : σ) (request : List Byte) (st' : σ) : Prop :=
  ∃ answer, bus.exchange st request = (answer, st') ∧
    ∀ response, answer = some response → response.length ≠ request.length

/-- R185: the identification is answered with the chip ID. -/
def ChipIdentified {σ : Type} (bus : Boundary.Bus σ) (st st' : σ) : Prop :=
  ∃ response, Answers bus st (Boundary.readRequest Config.regChipId) response st' ∧
    response[1]? = some Config.chipIdValue

/-- R182: a register write is answered, whatever the answer. -/
def WriteAnswered {σ : Type} (bus : Boundary.Bus σ) (st : σ) (addr : BitVec 7) (v : Byte) (st' : σ) : Prop :=
  ∃ response, Answers bus st (Boundary.writeRequest addr v) response st'

/-- R183: a block read is answered, and `block` is the answer less its first byte. -/
def BlockAnswered {σ : Type} {n : Nat} (bus : Boundary.Bus σ) (st : σ) (addr : BitVec 7) (block : Vector Byte n)
    (st' : σ) : Prop :=
  ∃ response, Answers bus st (Boundary.blockRequest addr n) response st' ∧ block.toList = response.drop 1

/-- R185, R186: steps 1 and 2 are answered. -/
def SensorReset {σ : Type} (bus : Boundary.Bus σ) (st st' : σ) : Prop :=
  ∃ s₁, ChipIdentified bus st s₁ ∧ WriteAnswered bus s₁ Config.regReset Config.resetCmd st'

/-- R185 to R187: steps 1 to 3 are answered, with the calibration blocks `a` and `b`. -/
def CalibrationRead {σ : Type} (bus : Boundary.Bus σ) (st : σ) (a : Vector Byte 26) (b : Vector Byte 7) (st' : σ) :
    Prop :=
  ∃ s₂ s₃, SensorReset bus st s₂ ∧ BlockAnswered bus s₂ Config.regCalibA a s₃ ∧
    BlockAnswered bus s₃ Config.regCalibB b st'

/-- R185 to R188: all seven exchanges of the initialisation are answered. -/
def InitialisationAnswered {σ : Type} (bus : Boundary.Bus σ) (st : σ) (a : Vector Byte 26) (b : Vector Byte 7)
    (st' : σ) : Prop :=
  ∃ s₄ s₅ s₆, CalibrationRead bus st a b s₄ ∧ WriteAnswered bus s₄ Config.regCtrlHum Config.cfgHum s₅ ∧
    WriteAnswered bus s₅ Config.regCtrlMeas Config.cfgMeas s₆ ∧
    WriteAnswered bus s₆ Config.regConfig Config.cfgConfig st'

/-- R185, R186: the host's actions in steps 1 and 2. -/
def resetActions : List Boundary.HostAction :=
  [.exchange (Boundary.readRequest Config.regChipId),
   .exchange (Boundary.writeRequest Config.regReset Config.resetCmd),
   .settle Config.resetSettle]

/-- R185 to R187: the host's actions in steps 1 to 3. -/
def calibrationActions (a : Vector Byte 26) (b : Vector Byte 7) : List Boundary.HostAction :=
  resetActions ++
    [.exchange (Boundary.blockRequest Config.regCalibA 26),
     .exchange (Boundary.blockRequest Config.regCalibB 7),
     .issue (encode (.calLoad a b))]

/-- R188: the host's actions in step 4, in order. -/
def configActions : List Boundary.HostAction :=
  [.exchange (Boundary.writeRequest Config.regCtrlHum Config.cfgHum),
   .exchange (Boundary.writeRequest Config.regCtrlMeas Config.cfgMeas),
   .exchange (Boundary.writeRequest Config.regConfig Config.cfgConfig)]

/-- R189, R241: the host's actions in a read cycle whose burst is answered. -/
def readCycleActions (burst : Vector Byte 8) : List Boundary.HostAction :=
  [.exchange (Boundary.blockRequest Config.regData 8), .issue (encode (.measure burst)),
   .read .status, .read .tempC, .read .presHpa, .read .humPct]

end Sys2Proof.Reference

open Sys2Proof Sys2Proof.Machine Sys2Proof.Safety Sys2Proof.Reference

/-! ### Reset -/

/-- R39, R38: STATUS and the frame index are 0, and no data register holds a value the host can read: a read of one
answers what the host draws, whatever that is. That a read draws is log entry 7. -/
def Obligations.ResetLeavesNoDataValue : Prop :=
  State.reset.status.word = 0x0000#16 ∧ State.reset.fi = 0 ∧
  ∀ (draw : Draw) (p : Port), p ≠ .status → readPort draw State.reset p = draw p

/-- R230: a reset input between frames; CAL_LOAD is accepted again and the host's later input is still to come. The
data registers' values are the model's (log entry 1) and do not appear: a read of one answers what the host draws (log
entry 7). -/
def Obligations.ResetInputClearsTheEngine : Prop :=
  ∀ (s : State) (rest : List HostInput), s.host = .reset :: rest →
    ∃ t, step s = .next t ∧ t.fi = 0 ∧ t.status.word = 0x0000#16 ∧ t.host = rest ∧
      (∀ (draw : Draw) (p : Port), p ≠ .status → readPort draw t p = draw p) ∧
      ∀ a b, ∃ u, exec (.calLoad a b) t = .next u ∧ u.status.calv = true ∧ u.status.err = .ok

/-- The invariants of R36 hold at reset, and those on the packed coefficients and the current results. The clause on
`dig_H4` and `dig_H5` rests on the model's reset value 0 (log entry 1). -/
def Obligations.ResetMeetsEveryInvariant : Prop :=
  FlagsOrdered State.reset ∧ PackedInRange State.reset ∧ ResultsCurrent State.reset

/-! ### Frames and steps -/

/-- When the frame bytes at the front of the host's input decode to a command, the step is the command's meaning, on
the state with the frame consumed (R70, R72). -/
def Obligations.StepRunsTheDecodedCommand : Prop :=
  ∀ (s : State) (i : Instr) (rest : List Byte), decode (frameBytes s.host) = .instr i rest →
    step s = exec i { s with host := s.host.drop (encode i).length }

/-- A command's bytes at the front of the host's input are executed as that command, and consumed exactly. -/
def Obligations.PresentedFrameIsExecuted : Prop :=
  ∀ (s : State) (i : Instr) (rest : List HostInput), s.host = (encode i).map HostInput.byte ++ rest →
    step s = exec i { s with host := rest }

/-- R75, R202: the 249 illegal opcode values are the ones R73 does not list; each is a one-byte frame that raises
ERR_ILLEGAL. -/
def Obligations.IllegalOpcodeRaisesIllegal : Prop :=
  (∀ b : Byte, IllegalRange b ↔ b ∉ opcodeTable.map OpcodeRow.opc) ∧
  ((List.range 256).map (BitVec.ofNat 8)).countP (fun b => !legalOpcode b) = 249 ∧
  ∀ (s : State) (b : Byte) (rest : List HostInput), IllegalRange b → s.host = .byte b :: rest →
    step s = .next { s with host := rest, fi := s.fi + 1, status := { s.status with err := .illegal, estky := true } }

/-- R82: where the host's sequence ends inside a command's frame, there is no step. -/
def Obligations.IncompleteFrameHasNoStep : Prop :=
  ∀ (s : State) (i : Instr) (k : Nat), 0 < k → k < (encode i).length →
    s.host = ((encode i).take k).map HostInput.byte → step s = .refused .incompleteFrame

/-- R70, R217: with nothing presented the engine holds its state. That this is a step is the model's (log entry 3). -/
def Obligations.IdleEngineHoldsItsState : Prop :=
  ∀ s : State, s.host = [] → step s = .next s

/-- R65: a contending frame has no step. How it is presented is the model's (log entry 5). -/
def Obligations.ContendingFrameHasNoStep : Prop :=
  ∀ (s : State) (rest : List HostInput), s.host = .contend :: rest → step s = .refused .contendingHost

/-- No step faults, and the only frames without a step are incomplete or contending ones: every complete frame
executes (R82, R203, R204). -/
def Obligations.OnlyBrokenSchedulesAreRefused : Prop :=
  ∀ s : State,
    (∃ t, step s = .next t) ∨
    (step s = .refused .contendingHost ∧ ∃ rest, s.host = .contend :: rest) ∨
    (step s = .refused .incompleteFrame ∧ ∃ i : Instr, frameBytes s.host ≠ [] ∧
      (frameBytes s.host).length < (encode i).length ∧ (frameBytes s.host).head? = (encode i).head?)

/-- R21: every command consumes exactly one frame and advances `fi` by one, whether it succeeds or not, and so does an
illegal opcode. -/
def Obligations.EveryCommandAdvancesTheFrameIndex : Prop :=
  (∀ (i : Instr) (s : State), ∃ t, exec i s = .next t ∧ t.fi = s.fi + 1 ∧ t.host = s.host) ∧
  ∀ (s : State) (b : Byte) (rest : List HostInput), legalOpcode b = false → s.host = .byte b :: rest →
    ∃ t, step s = .next t ∧ t.fi = s.fi + 1 ∧ t.host = rest

/-! ### Encoding -/

/-- Sample words, written out from R73, R78, R79 and R80, decode to the commands they stand for. -/
def Obligations.SampleWordsDecode : Prop :=
  decodeTableWord 8 0x00 = some .nop ∧
  decodeTableWord 72 0x307500ED7EC05A6502 = some (.rawLoad #v[0x65, 0x5A, 0xC0, 0x7E, 0xED, 0x00, 0x75, 0x30]) ∧
  decodeTableWord 8 0x10 = some .compT ∧ decodeTableWord 8 0x11 = some .compP ∧
  decodeTableWord 8 0x12 = some .compH ∧
  decodeTableWord 72 0x307500ED7EC05A6520 = some (.measure #v[0x65, 0x5A, 0xC0, 0x7E, 0xED, 0x00, 0x75, 0x30]) ∧
  decodeTableWord 8 0x13 = none

/-- Decoding the bytes of any command gives it back, with every operand byte, and leaves the bytes after it. -/
def Obligations.DecodeInvertsEncode : Prop :=
  ∀ (i : Instr) (rest : List Byte), decode (encode i ++ rest) = .instr i rest

/-- What the decoder reads as a command is that command's encoding: each frame has one meaning. -/
def Obligations.EncodeInvertsDecode : Prop :=
  ∀ (bs rest : List Byte) (i : Instr), decode bs = .instr i rest → bs = encode i ++ rest

/-- The decoder accepts exactly the well-formed frames of R72 and R73's table. -/
def Obligations.DecoderAcceptsExactlyWellFormedFrames : Prop :=
  ∀ bs : List Byte, (∃ i, decode bs = .instr i []) ↔ wellFormedFrame bs = true

/-! ### Errors -/

/-- R201: whatever code a command or an illegal opcode raises, the three writes are all it does. -/
def Obligations.ErrorsWriteOnlyErrEstkyAndIndex : Prop :=
  (∀ (i : Instr) (s t : State), exec i s = .next t → t.status.err ≠ .ok →
    t = { s with fi := s.fi + 1, status := { s.status with err := t.status.err, estky := true } }) ∧
  ∀ (s t : State) (b : Byte) (rest : List HostInput), IllegalRange b → s.host = .byte b :: rest → step s = .next t →
    t = { s with host := rest, fi := s.fi + 1, status := { s.status with err := .illegal, estky := true } }

/-- R206: a frame reports exactly one code, and the first check that fails decides which. -/
def Obligations.FirstFailingCheckDecidesTheError : Prop :=
  (∀ (s : State) (b : Byte) (rest : List HostInput), IllegalRange b → s.host = .byte b :: rest →
    ∃ t, step s = .next t ∧ t.status.err = .illegal) ∧
  ∀ (s t : State) (i : Instr), exec i s = .next t →
    t.status.err =
      match i with
      | .nop => .ok
      | .calLoad _ _ => if s.status.calv then .calLocked else .ok
      | .rawLoad _ | .measure _ => if s.status.calv then .ok else .noCal
      | .compT => if s.status.calv then (if s.status.rawv then .ok else .noRaw) else .noCal
      | .compP | .compH =>
        if s.status.calv then (if s.status.rawv then (if s.status.tfv then .ok else .noTfine) else .noRaw) else .noCal

/-! ### Results, one statement per command; each says where the command completes, with what, and its frame -/

/-- R160: NOP writes `ERR <- OK` and advances `fi`, in every state. -/
def Obligations.NopClearsErr : Prop :=
  (∀ rest, decode (0x00#8 :: rest) = .instr .nop rest) ∧
  ∀ s : State, exec .nop s = .next { s with fi := s.fi + 1, status := { s.status with err := .ok } }

/-- R101, R103 to R107: the coefficients CAL_LOAD writes, as numbers, byte by byte of blocks A and B. The second form
of `dig_H4` and `dig_H5`, from a signed byte, is an inference R106 marks as its own. -/
def Obligations.CalLoadDecodesTheCoefficients : Prop :=
  ∀ (a : Vector Byte 26) (b : Vector Byte 7) (s : State), s.status.calv = false →
    ∃ t, exec (.calLoad a b) s = .next t ∧
      t = { s with cal := t.cal, fi := s.fi + 1, status := { s.status with calv := true, err := .ok } } ∧
      t.cal.digT1.toNat = a[0].toNat + 256 * a[1].toNat ∧
      t.cal.digT2.toInt = wrap 16 (a[2].toNat + 256 * a[3].toNat) ∧
      t.cal.digT3.toInt = wrap 16 (a[4].toNat + 256 * a[5].toNat) ∧
      t.cal.digP1.toNat = a[6].toNat + 256 * a[7].toNat ∧
      t.cal.digP2.toInt = wrap 16 (a[8].toNat + 256 * a[9].toNat) ∧
      t.cal.digP3.toInt = wrap 16 (a[10].toNat + 256 * a[11].toNat) ∧
      t.cal.digP4.toInt = wrap 16 (a[12].toNat + 256 * a[13].toNat) ∧
      t.cal.digP5.toInt = wrap 16 (a[14].toNat + 256 * a[15].toNat) ∧
      t.cal.digP6.toInt = wrap 16 (a[16].toNat + 256 * a[17].toNat) ∧
      t.cal.digP7.toInt = wrap 16 (a[18].toNat + 256 * a[19].toNat) ∧
      t.cal.digP8.toInt = wrap 16 (a[20].toNat + 256 * a[21].toNat) ∧
      t.cal.digP9.toInt = wrap 16 (a[22].toNat + 256 * a[23].toNat) ∧
      t.cal.digH1.toNat = a[25].toNat ∧
      t.cal.digH2.toInt = wrap 16 (b[0].toNat + 256 * b[1].toNat) ∧
      t.cal.digH3.toNat = b[2].toNat ∧
      t.cal.digH4.toInt = wrap 12 (16 * b[3].toNat + b[4].toNat % 16) ∧
      t.cal.digH4.toInt = 16 * b[3].toInt + b[4].toNat % 16 ∧
      t.cal.digH5.toInt = wrap 12 (16 * b[5].toNat + b[4].toNat / 16) ∧
      t.cal.digH5.toInt = 16 * b[5].toInt + b[4].toNat / 16 ∧
      t.cal.digH6.toInt = b[6].toInt

/-- R102, R23: once loaded, the set is kept: CAL_LOAD raises ERR_CAL_LOCKED, and no step but the reset input changes a
coefficient or clears CALV. -/
def Obligations.LoadedCalibrationIsImmutable : Prop :=
  (∀ a b (s : State), s.status.calv = true → Raises (.calLoad a b) s .calLocked) ∧
  ∀ s t : State, s.status.calv = true → s.host.head? ≠ some .reset → step s = .next t →
    t.cal = s.cal ∧ t.status.calv = true

/-- R108: byte 24 of block A has no effect on any state. -/
def Obligations.CalLoadIgnoresByte24 : Prop :=
  ∀ (a : Vector Byte 26) (b : Vector Byte 7) (x : Byte) (s : State),
    exec (.calLoad (a.set 24 x) b) s = exec (.calLoad a b) s

/-- R121 to R124: RAW_LOAD's registers as numbers, its flags, its error, and its frame. -/
def Obligations.RawLoadDecodesTheCodes : Prop :=
  ∀ (v : Vector Byte 8) (s : State),
    (s.status.calv = false → Raises (.rawLoad v) s .noCal) ∧
    (s.status.calv = true →
      ∃ t, exec (.rawLoad v) s = .next t ∧
        t = { s with raw := t.raw, fi := s.fi + 1,
                     status := { s.status with rawv := true, tfv := false, tv := false, pv := false, hv := false,
                                               err := .ok } } ∧
        t.raw.adcP.toNat = v[0].toNat * 2 ^ 12 + v[1].toNat * 2 ^ 4 + v[2].toNat / 2 ^ 4 ∧
        t.raw.adcT.toNat = v[3].toNat * 2 ^ 12 + v[4].toNat * 2 ^ 4 + v[5].toNat / 2 ^ 4 ∧
        t.raw.adcH.toNat = v[6].toNat * 2 ^ 8 + v[7].toNat)

/-- R125: the low nibbles of bytes 2 and 5 of a burst affect no state, in RAW_LOAD and in MEASURE. -/
def Obligations.BurstLowNibblesAreDiscarded : Prop :=
  ∀ (v : Vector Byte 8) (x y : Byte) (s : State), x.toNat / 16 = v[2].toNat / 16 → y.toNat / 16 = v[5].toNat / 16 →
    exec (.rawLoad ((v.set 2 x).set 5 y)) s = exec (.rawLoad v) s ∧
    exec (.measure ((v.set 2 x).set 5 y)) s = exec (.measure v) s

/-- R120, R38: after RAW_LOAD no result register and no TFINE holds a value the host can read: a read of one answers
what the host draws (log entry 7). -/
def Obligations.RawLoadInvalidatesOldResults : Prop :=
  ∀ (v : Vector Byte 8) (s : State), s.status.calv = true →
    ∃ t, exec (.rawLoad v) s = .next t ∧
      ∀ (draw : Draw), ∀ p ∈ [Port.tfine, .tOut, .pOut, .hOut, .tempC, .presHpa, .humPct], readPort draw t p = draw p

/-- R132 to R135: COMP_T's registers by the rules' integer arithmetic at width 32, its errors, and its frame. -/
def Obligations.CompTComputesTheTemperature : Prop :=
  ∀ s : State,
    (s.status.calv = false → Raises .compT s .noCal) ∧
    (s.status.calv = true → s.status.rawv = false → Raises .compT s .noRaw) ∧
    (s.status.calv = true → s.status.rawv = true →
      ∃ t, exec .compT s = .next t ∧
        t = { s with tfine := t.tfine, tOut := t.tOut, tempC := t.tempC, fi := s.fi + 1,
                     status := { s.status with tfv := true, tv := true, err := .ok } } ∧
        t.tfine.toInt = Reference.tempFine 32 s.raw.adcT.toNat s.cal.digT1.toNat s.cal.digT2.toInt s.cal.digT3.toInt ∧
        t.tOut.toInt = Reference.tempCenti 32 t.tfine.toInt ∧
        t.tempC = cvtT .single t.tOut)

/-- R142 to R147: COMP_P's registers by the rules' integer arithmetic at s64, its errors, and its frame. -/
def Obligations.CompPComputesThePressure : Prop :=
  ∀ s : State,
    (s.status.calv = false → Raises .compP s .noCal) ∧
    (s.status.calv = true → s.status.rawv = false → Raises .compP s .noRaw) ∧
    (s.status.calv = true → s.status.rawv = true → s.status.tfv = false → Raises .compP s .noTfine) ∧
    (s.status.calv = true → s.status.rawv = true → s.status.tfv = true →
      ∃ t, exec .compP s = .next t ∧
        t = { s with pOut := t.pOut, presHpa := t.presHpa, fi := s.fi + 1,
                     status := { s.status with pv := true, err := .ok } } ∧
        (t.pOut.toNat : Int) = Reference.pressure s.raw.adcP.toNat s.tfine.toInt s.cal % 2 ^ 32 ∧
        t.presHpa = cvtP .single t.pOut)

/-- R144: a zero divisor is no error; COMP_P completes with P_OUT = 0 and PRES_HPA = +0.0. `dig_P1 = 0` is one way to
get it. -/
def Obligations.ZeroDivisorGivesTheSentinel : Prop :=
  ∀ s : State, s.status.calv = true → s.status.rawv = true → s.status.tfv = true →
    (Reference.presDivisor (wrap 64 (s.tfine.toInt - 128000)) s.cal = 0 ∨ s.cal.digP1 = 0) →
    exec .compP s = .next { s with pOut := 0, presHpa := 0, fi := s.fi + 1,
                                   status := { s.status with pv := true, err := .ok } }

/-- R152 to R157: COMP_H's registers by the rules' integer arithmetic at width 32, its errors, and its frame. -/
def Obligations.CompHComputesTheHumidity : Prop :=
  ∀ s : State,
    (s.status.calv = false → Raises .compH s .noCal) ∧
    (s.status.calv = true → s.status.rawv = false → Raises .compH s .noRaw) ∧
    (s.status.calv = true → s.status.rawv = true → s.status.tfv = false → Raises .compH s .noTfine) ∧
    (s.status.calv = true → s.status.rawv = true → s.status.tfv = true →
      ∃ t, exec .compH s = .next t ∧
        t = { s with hOut := t.hOut, humPct := t.humPct, fi := s.fi + 1,
                     status := { s.status with hv := true, err := .ok } } ∧
        (t.hOut.toNat : Int) = Reference.humidity 32 s.raw.adcH.toNat s.tfine.toInt s.cal ∧
        t.humPct = cvtH .single t.hOut)

/-- R156, R157: the clamp bounds are exactly 0.0 and 100.0 %RH, and every result lies between them. -/
def Obligations.HumidityClampsToZeroAndHundred : Prop :=
  ∀ s : State, s.status.calv = true → s.status.rawv = true → s.status.tfv = true →
    ∃ t, exec .compH s = .next t ∧ t.status.err = .ok ∧ t.hOut.toNat ≤ 102400 ∧
      (Reference.humUnclamped 32 s.raw.adcH.toNat s.tfine.toInt s.cal ≤ 0 → t.hOut = 0 ∧ t.humPct = 0x00000000#32) ∧
      (419430400 ≤ Reference.humUnclamped 32 s.raw.adcH.toNat s.tfine.toInt s.cal →
        t.hOut = 102400 ∧ t.humPct = 0x42C80000#32)

/-- R162: MEASURE's registers, its error, and its frame. -/
def Obligations.MeasureComputesTheWholeCycle : Prop :=
  ∀ (v : Vector Byte 8) (s : State),
    (s.status.calv = false → Raises (.measure v) s .noCal) ∧
    (s.status.calv = true →
      ∃ t, exec (.measure v) s = .next t ∧
        t = { s with raw := t.raw, tfine := t.tfine, tOut := t.tOut, pOut := t.pOut, hOut := t.hOut,
                     tempC := t.tempC, presHpa := t.presHpa, humPct := t.humPct, fi := s.fi + 1,
                     status := { s.status with rawv := true, tfv := true, tv := true, pv := true, hv := true,
                                               err := .ok } } ∧
        t.raw.adcP.toNat = v[0].toNat * 2 ^ 12 + v[1].toNat * 2 ^ 4 + v[2].toNat / 2 ^ 4 ∧
        t.raw.adcT.toNat = v[3].toNat * 2 ^ 12 + v[4].toNat * 2 ^ 4 + v[5].toNat / 2 ^ 4 ∧
        t.raw.adcH.toNat = v[6].toNat * 2 ^ 8 + v[7].toNat ∧
        t.tfine.toInt = Reference.tempFine 32 t.raw.adcT.toNat s.cal.digT1.toNat s.cal.digT2.toInt s.cal.digT3.toInt ∧
        t.tOut.toInt = Reference.tempCenti 32 t.tfine.toInt ∧
        (t.pOut.toNat : Int) = Reference.pressure t.raw.adcP.toNat t.tfine.toInt s.cal % 2 ^ 32 ∧
        (t.hOut.toNat : Int) = Reference.humidity 32 t.raw.adcH.toNat t.tfine.toInt s.cal ∧
        t.tempC = cvtT .single t.tOut ∧ t.presHpa = cvtP .single t.pOut ∧ t.humPct = cvtH .single t.hOut)

/-- R163, R84: `MEASURE b` and `CYCLE b`'s four frames reach the same registers from any state with CALV = 1; only the
frame index differs, by 1 against 4. -/
def Obligations.MeasureEqualsTheExpandedCycle : Prop :=
  ∀ (v : Vector Byte 8) (s : State) (rest : List HostInput), s.status.calv = true →
    ∃ t u : State,
      Host.Core.run Sys2Proof.core 1 { s with host := (encode (.measure v)).map HostInput.byte ++ rest } = .next t ∧
      Host.Core.run Sys2Proof.core 4
        { s with host := (Assembler.assembleLine (.cycle v)).map HostInput.byte ++ rest } = .next u ∧
      SameRegisters t u ∧ t.fi = s.fi + 1 ∧ u.fi = s.fi + 4 ∧ t.host = rest ∧ u.host = rest

/-- R37, R38: after a successful MEASURE every port reads as its register, whatever the host would draw elsewhere. -/
def Obligations.MeasureMakesEveryPortReadable : Prop :=
  ∀ (v : Vector Byte 8) (s : State), s.status.calv = true →
    ∃ t, exec (.measure v) s = .next t ∧ ∀ (draw : Draw) (p : Port), readPort draw t p = p.register t

/-- R137, R149, R159: repeating COMP_T, COMP_P or COMP_H within a cycle writes the same values again. -/
def Obligations.RepeatedCompensationChangesNothing : Prop :=
  ∀ (i : Instr) (s t : State), i ∈ [Instr.compT, .compP, .compH] → exec i s = .next t → t.status.err = .ok →
    exec i t = .next { t with fi := t.fi + 1 }

/-! ### The STATUS word and its flags -/

/-- R28, R35: where each field of STATUS stands, and what the reserved bits read. -/
def Obligations.StatusWordLayout : Prop :=
  ∀ s : State,
    s.status.word.getLsbD 0 = s.status.calv ∧ s.status.word.getLsbD 1 = s.status.rawv ∧
    s.status.word.getLsbD 2 = s.status.tfv ∧ s.status.word.getLsbD 3 = s.status.tv ∧
    s.status.word.getLsbD 4 = s.status.pv ∧ s.status.word.getLsbD 5 = s.status.hv ∧
    s.status.word.getLsbD 6 = false ∧ s.status.word.getLsbD 7 = s.status.estky ∧
    s.status.word.toNat / 4096 = 0 ∧ s.status.word.toNat / 256 % 16 ≤ 5 ∧
    s.status.word.toNat / 256 % 16 =
      match s.status.err with
      | .ok => 0 | .illegal => 1 | .noCal => 2 | .calLocked => 3 | .noRaw => 4 | .noTfine => 5

/-- R29: CALV: set by a successful CAL_LOAD, cleared only by reset, and what its being 0 forbids. -/
def Obligations.CalvRule : Prop :=
  (∀ a b (s : State), s.status.calv = false → ∃ t, exec (.calLoad a b) s = .next t ∧ t.status.calv = true) ∧
  (∀ s t : State, step s = .next t → s.status.calv = true → t.status.calv = false → s.host.head? = some .reset) ∧
  ∀ (s : State) (v : Vector Byte 8), s.status.calv = false →
    Raises (.rawLoad v) s .noCal ∧ Raises .compT s .noCal ∧ Raises .compP s .noCal ∧ Raises .compH s .noCal ∧
    Raises (.measure v) s .noCal

/-- R30: RAWV: set by a successful RAW_LOAD or MEASURE, cleared only by reset, and what its being 0 forbids once
calibration is loaded. -/
def Obligations.RawvRule : Prop :=
  (∀ (s : State) (v : Vector Byte 8) (i : Instr), s.status.calv = true → i = .rawLoad v ∨ i = .measure v →
    ∃ t, exec i s = .next t ∧ t.status.rawv = true) ∧
  (∀ s t : State, step s = .next t → s.status.rawv = true → t.status.rawv = false → s.host.head? = some .reset) ∧
  ∀ s : State, s.status.calv = true → s.status.rawv = false →
    Raises .compT s .noRaw ∧ Raises .compP s .noRaw ∧ Raises .compH s .noRaw

/-- R31: TFV, the ordering invariant: who sets it, who clears it, and what its being 0 forbids once a sample is
loaded. -/
def Obligations.TfvRule : Prop :=
  (∀ (i : Instr) (s t : State), exec i s = .next t → t.status.err = .ok →
    t.status.tfv = match i with
      | .compT | .measure _ => true
      | .rawLoad _ => false
      | .nop | .calLoad _ _ | .compP | .compH => s.status.tfv) ∧
  (∀ (i : Instr) (s t : State), exec i s = .next t → t.status.err ≠ .ok → t.status.tfv = s.status.tfv) ∧
  (∀ (s t : State) (rest : List HostInput), s.host = .reset :: rest → step s = .next t → t.status.tfv = false) ∧
  ∀ s : State, s.status.calv = true → s.status.rawv = true → s.status.tfv = false →
    Raises .compP s .noTfine ∧ Raises .compH s .noTfine

/-- R32: TV, PV and HV: who sets each, that RAW_LOAD and reset clear all three, and that a result register whose flag
is 0 holds no value: a read of it answers what the host draws (log entry 7). -/
def Obligations.ResultFlagsRule : Prop :=
  (∀ (i : Instr) (s t : State), exec i s = .next t → t.status.err = .ok →
    (t.status.tv, t.status.pv, t.status.hv) = match i with
      | .rawLoad _ => (false, false, false)
      | .compT => (true, s.status.pv, s.status.hv)
      | .compP => (s.status.tv, true, s.status.hv)
      | .compH => (s.status.tv, s.status.pv, true)
      | .measure _ => (true, true, true)
      | .nop | .calLoad _ _ => (s.status.tv, s.status.pv, s.status.hv)) ∧
  (∀ (s t : State) (rest : List HostInput), s.host = .reset :: rest → step s = .next t →
    (t.status.tv, t.status.pv, t.status.hv) = (false, false, false)) ∧
  ∀ (draw : Draw) (s : State),
    (s.status.tv = false → readPort draw s .tOut = draw .tOut ∧ readPort draw s .tempC = draw .tempC) ∧
    (s.status.pv = false → readPort draw s .pOut = draw .pOut ∧ readPort draw s .presHpa = draw .presHpa) ∧
    (s.status.hv = false → readPort draw s .hOut = draw .hOut ∧ readPort draw s .humPct = draw .humPct)

/-- R33: ESTKY is set by exactly the commands that end in an error, an illegal opcode among them, and only reset clears
it. -/
def Obligations.EstkyRecordsEveryError : Prop :=
  (∀ (i : Instr) (s t : State), exec i s = .next t →
    (t.status.estky = true ↔ s.status.estky = true ∨ t.status.err ≠ .ok)) ∧
  (∀ (s : State) (b : Byte) (rest : List HostInput), IllegalRange b → s.host = .byte b :: rest →
    ∃ t, step s = .next t ∧ t.status.estky = true) ∧
  ∀ s t : State, step s = .next t → s.status.estky = true → t.status.estky = false → s.host.head? = some .reset

/-! ### Whole-machine rules -/

/-- R23, R24, R25, R26, R27: a register changes only under the commands that the spec says write it. -/
def Obligations.OnlyItsWritersChangeARegister : Prop :=
  ∀ (i : Instr) (s t : State), exec i s = .next t →
    (t.cal ≠ s.cal → s.status.calv = false ∧ ∃ a b, i = .calLoad a b) ∧
    (t.raw ≠ s.raw → ∃ v, i = .rawLoad v ∨ i = .measure v) ∧
    (t.tfine ≠ s.tfine ∨ t.tOut ≠ s.tOut ∨ t.tempC ≠ s.tempC → i = .compT ∨ ∃ v, i = .measure v) ∧
    (t.pOut ≠ s.pOut ∨ t.presHpa ≠ s.presHpa → i = .compP ∨ ∃ v, i = .measure v) ∧
    (t.hOut ≠ s.hOut ∨ t.humPct ≠ s.humPct → i = .compH ∨ ∃ v, i = .measure v)

/-- R36, from every state that meets it: a step keeps the order of the validity flags and the range of H_OUT. -/
def Obligations.StepKeepsFlagsOrdered : Prop :=
  ∀ s t : State, FlagsOrdered s → step s = .next t → FlagsOrdered t

/-- R36, as the spec says it: in every state reachable from reset, whatever the host presents. -/
def Obligations.ReachableStatesKeepFlagsOrdered : Prop :=
  ∀ (input : List HostInput) (k : Nat) (t : State),
    Host.Core.run Sys2Proof.core k ({ State.reset with host := input } : State) = .next t → FlagsOrdered t

/-- R22, R106: a step keeps `dig_H4` and `dig_H5` in the signed 12-bit range. -/
def Obligations.StepKeepsPackedCoefficientsInRange : Prop :=
  ∀ s t : State, PackedInRange s → step s = .next t → PackedInRange t

/-- R120, R137, R149, R159: no valid result is ever stale. From every state where each valid register holds the result
of the current sample and calibration, a step leads to another such state. -/
def Obligations.StepKeepsResultsCurrent : Prop :=
  ∀ s t : State, FlagsOrdered s → ResultsCurrent s → step s = .next t → ResultsCurrent t

/-- R37, R38: each port, the register it answers, and the flag that says that the register holds a value; STATUS always
does. Where it holds none, the read answers what the host draws (log entry 7). -/
def Obligations.PortsAnswerUnderTheirFlags : Prop :=
  ∀ (draw : Draw) (s : State) (p : Port),
    readPort draw s p = match p with
      | .digT1 => if s.status.calv then s.cal.digT1 else draw .digT1
      | .digT2 => if s.status.calv then s.cal.digT2 else draw .digT2
      | .digT3 => if s.status.calv then s.cal.digT3 else draw .digT3
      | .digP1 => if s.status.calv then s.cal.digP1 else draw .digP1
      | .digP2 => if s.status.calv then s.cal.digP2 else draw .digP2
      | .digP3 => if s.status.calv then s.cal.digP3 else draw .digP3
      | .digP4 => if s.status.calv then s.cal.digP4 else draw .digP4
      | .digP5 => if s.status.calv then s.cal.digP5 else draw .digP5
      | .digP6 => if s.status.calv then s.cal.digP6 else draw .digP6
      | .digP7 => if s.status.calv then s.cal.digP7 else draw .digP7
      | .digP8 => if s.status.calv then s.cal.digP8 else draw .digP8
      | .digP9 => if s.status.calv then s.cal.digP9 else draw .digP9
      | .digH1 => if s.status.calv then s.cal.digH1 else draw .digH1
      | .digH2 => if s.status.calv then s.cal.digH2 else draw .digH2
      | .digH3 => if s.status.calv then s.cal.digH3 else draw .digH3
      | .digH4 => if s.status.calv then s.cal.digH4 else draw .digH4
      | .digH5 => if s.status.calv then s.cal.digH5 else draw .digH5
      | .digH6 => if s.status.calv then s.cal.digH6 else draw .digH6
      | .adcP => if s.status.rawv then s.raw.adcP else draw .adcP
      | .adcT => if s.status.rawv then s.raw.adcT else draw .adcT
      | .adcH => if s.status.rawv then s.raw.adcH else draw .adcH
      | .tfine => if s.status.tfv then s.tfine else draw .tfine
      | .tOut => if s.status.tv then s.tOut else draw .tOut
      | .pOut => if s.status.pv then s.pOut else draw .pOut
      | .hOut => if s.status.hv then s.hOut else draw .hOut
      | .tempC => if s.status.tv then s.tempC else draw .tempC
      | .presHpa => if s.status.pv then s.presHpa else draw .presHpa
      | .humPct => if s.status.hv then s.humPct else draw .humPct
      | .status => s.status.word

/-- R38: no command reads a register that holds no value. Two states the host cannot tell apart, whatever their
unwritten registers hold, step alike. So nothing rests on the reset values of log entry 1. -/
def Obligations.UnwrittenRegistersReachNoResult : Prop :=
  ∀ s t : State, SameToHost s t →
    (∃ s' t', step s = .next s' ∧ step t = .next t' ∧ SameToHost s' t') ∨
    (∃ r, step s = .refused r ∧ step t = .refused r)

/-! ### Widths and the conversion to binary32 -/

/-- R130: where no intermediate of COMP_T leaves the s32 range, `TEMP_WIDTH = 64` gives the same state. -/
def Obligations.TempWidthMattersOnlyOnOverflow : Prop :=
  ∀ s : State,
    (∀ x ∈ Reference.tempTerms s.raw.adcT.toNat s.cal.digT1.toNat s.cal.digT2.toInt s.cal.digT3.toInt, FitsS32 x) →
    compTWith { Config.hardware with tempWidth := .w64 } s = exec .compT s

/-- R150: where no intermediate of COMP_H leaves the s32 range, `HUM_WIDTH = 64` gives the same state. -/
def Obligations.HumWidthMattersOnlyOnOverflow : Prop :=
  ∀ s : State, (∀ x ∈ Reference.humTerms s.raw.adcH.toNat s.tfine.toInt s.cal, FitsS32 x) →
    compHWith { Config.hardware with humWidth := .w64 } s = exec .compH s

/-- R11: `fl32` rounds any rational below 2^127 in magnitude to the nearest binary32, ties to even. Where the result is
subnormal or the quotient rounds to zero, R11 names the format and the rounding only, and the model takes IEEE-754 (log
entry 10); magnitudes from 2^127 up are left out. -/
def Obligations.Fl32RoundsToNearestEven : Prop :=
  ∀ (num : Int) (den : Nat), 0 < den → num.natAbs < 2 ^ 127 * den → IsFl32 ((num : ℚ) / (den : ℚ)) (fl32 num den)

/-- R165: each conversion of SINGLE is one correct rounding of the exact quotient, and each of STAGED the chain of
correct roundings of its table row. -/
def Obligations.ConversionsRoundAsTheTableSays : Prop :=
  (∀ t : Word, IsFl32 ((t.toInt : ℚ) / 100) (cvtT .single t) ∧
    ∃ f, IsFl32 (t.toInt : ℚ) f ∧ IsFl32 (binary32Value f / 100) (cvtT .staged t)) ∧
  (∀ p : Word, IsFl32 ((p.toNat : ℚ) / 25600) (cvtP .single p) ∧
    ∃ f g, IsFl32 (p.toNat : ℚ) f ∧ IsFl32 (binary32Value f / 256) g ∧
      IsFl32 (binary32Value g / 100) (cvtP .staged p)) ∧
  (∀ h : Word, IsFl32 ((h.toNat : ℚ) / 1024) (cvtH .single h) ∧
    ∃ f, IsFl32 (h.toNat : ℚ) f ∧ IsFl32 (binary32Value f / 1024) (cvtH .staged h))

/-- R166: the range properties (a) to (d), for both values of FLOAT_CONV. -/
def Obligations.ConversionRangeProperties : Prop :=
  ∀ conv : FloatConv,
    (cvtT conv 0 = 0 ∧ cvtP conv 0 = 0 ∧ cvtH conv 0 = 0) ∧
    (∀ f : Binary32, (∃ x : Word, f = cvtT conv x ∨ f = cvtP conv x ∨ (x.toNat ≤ 102400 ∧ f = cvtH conv x)) →
      FiniteBinary32 f ∧ ((f.extractLsb' 23 8).toNat = 0 → f = 0)) ∧
    (∀ h : Word, h.toNat ≤ 102400 → binary32Value (cvtH conv h) = (h.toNat : ℚ) / 1024) ∧
    (∀ t : Word, (cvtT conv t).msb = true ↔ t.toInt < 0)

/-- R165: SINGLE and STAGED give the same pattern for every integer of at most 24 significant bits. -/
def Obligations.StagedEqualsSingleUpTo24Bits : Prop :=
  (∀ t : Word, t.toInt.natAbs < 2 ^ 24 → cvtT .staged t = cvtT .single t) ∧
  (∀ p : Word, p.toNat < 2 ^ 24 → cvtP .staged p = cvtP .single p) ∧
  (∀ h : Word, h.toNat < 2 ^ 24 → cvtH .staged h = cvtH .single h)

/-! ### The host-side boundary -/

/-- R181, R182, R183: the requests of the register protocol, and what is taken of a response. -/
def Obligations.RegisterProtocolBytes : Prop :=
  ∀ (σ : Type) (bus : Boundary.Bus σ) (st st' : σ) (acts : List Boundary.HostAction) (addr : BitVec 7),
    (∀ x v : Byte, bus.exchange st [BitVec.ofNat 8 (128 + addr.toNat), 0x00] = (some [x, v], st') →
      Boundary.readRegister bus addr (st, acts) =
        (.ok v, st', acts ++ [.exchange [BitVec.ofNat 8 (128 + addr.toNat), 0x00]])) ∧
    (∀ v x y : Byte, bus.exchange st [BitVec.ofNat 8 addr.toNat, v] = (some [x, y], st') →
      Boundary.writeRegister bus addr v (st, acts) =
        (.ok (), st', acts ++ [.exchange [BitVec.ofNat 8 addr.toNat, v]])) ∧
    (∀ (n : Nat) (x : Byte) (block : Vector Byte n),
      bus.exchange st (BitVec.ofNat 8 (128 + addr.toNat) :: List.replicate n 0x00) = (some (x :: block.toList), st') →
      Boundary.readBlock bus addr n (st, acts) =
        (.ok block, st', acts ++ [.exchange (BitVec.ofNat 8 (128 + addr.toNat) :: List.replicate n 0x00)]))

/-- R185 to R188, R110: the initialisation succeeds exactly when the bus answers its seven requests in order, the first
with the chip ID; the host's actions are then those of the four steps in order, with one CAL_LOAD of the two blocks
read, which the engine has executed after what was presented before, or for which it had no step because that had stuck
it. A wrong chip ID or a failed block read leaves the engine without any frame.

R185, R187, R207: exchange by exchange, how it fails: the error and the host's actions so far. An answered
identification with another ID is UnexpectedChipId, a failed block read CalibrationError; that block B is not read
after block A's read failed is the model's choice (log entry 20). Where step 4 fails, an engine that was not
stuck has executed the CAL_LOAD.

That a failed exchange of step 1, 2 or 4 is TransportError and ends the initialisation is log entry 14; that an answer
of another length is a failed exchange, log entry 15; that the engine executes a frame before the host goes on, log
entry 19. -/
def Obligations.InitialisationOrder : Prop :=
  ∀ (σ : Type) (bus : Boundary.Bus σ) (st st' : σ),
    (∀ acts, Boundary.initialise bus (st, []) = (.ok (), st', acts) ↔
      ∃ a b, InitialisationAnswered bus st a b st' ∧ acts = calibrationActions a b ++ configActions) ∧
    (∀ a b (s : State), (Boundary.drained s).host = [] → ∃ t, exec (.calLoad a b) (Boundary.drained s) = .next t ∧
      Boundary.engineAfter s (calibrationActions a b ++ configActions) = some t) ∧
    (∀ a b (s : State), (Boundary.drained s).host ≠ [] →
      Boundary.engineAfter s (calibrationActions a b ++ configActions) = none) ∧
    (∀ e acts, e = .unexpectedChipId ∨ e = .calibration → Boundary.initialise bus (st, []) = (.error e, st', acts) →
      Boundary.issuedBytes acts = [] ∧ ∀ s : State, Boundary.engineAfter s acts = some s) ∧
    (Fails bus st (Boundary.readRequest Config.regChipId) st' →
      Boundary.initialise bus (st, []) = (.error .transport, st', resetActions.take 1)) ∧
    (∀ response, Answers bus st (Boundary.readRequest Config.regChipId) response st' →
      response[1]? ≠ some Config.chipIdValue →
      Boundary.initialise bus (st, []) = (.error .unexpectedChipId, st', resetActions.take 1)) ∧
    (∀ s₁, ChipIdentified bus st s₁ → Fails bus s₁ (Boundary.writeRequest Config.regReset Config.resetCmd) st' →
      Boundary.initialise bus (st, []) = (.error .transport, st', resetActions.take 2)) ∧
    (∀ s₂, SensorReset bus st s₂ → Fails bus s₂ (Boundary.blockRequest Config.regCalibA 26) st' →
      Boundary.initialise bus (st, []) =
        (.error .calibration, st', resetActions ++ [.exchange (Boundary.blockRequest Config.regCalibA 26)])) ∧
    (∀ s₂ s₃ (a : Vector Byte 26), SensorReset bus st s₂ → BlockAnswered bus s₂ Config.regCalibA a s₃ →
      Fails bus s₃ (Boundary.blockRequest Config.regCalibB 7) st' →
      Boundary.initialise bus (st, []) =
        (.error .calibration, st', resetActions ++ [.exchange (Boundary.blockRequest Config.regCalibA 26),
          .exchange (Boundary.blockRequest Config.regCalibB 7)])) ∧
    ∀ a b s₄, CalibrationRead bus st a b s₄ →
      (Fails bus s₄ (Boundary.writeRequest Config.regCtrlHum Config.cfgHum) st' →
        Boundary.initialise bus (st, []) =
          (.error .transport, st', calibrationActions a b ++ configActions.take 1)) ∧
      (∀ s₅, WriteAnswered bus s₄ Config.regCtrlHum Config.cfgHum s₅ →
        Fails bus s₅ (Boundary.writeRequest Config.regCtrlMeas Config.cfgMeas) st' →
        Boundary.initialise bus (st, []) =
          (.error .transport, st', calibrationActions a b ++ configActions.take 2)) ∧
      (∀ s₅ s₆, WriteAnswered bus s₄ Config.regCtrlHum Config.cfgHum s₅ →
        WriteAnswered bus s₅ Config.regCtrlMeas Config.cfgMeas s₆ →
        Fails bus s₆ (Boundary.writeRequest Config.regConfig Config.cfgConfig) st' →
        Boundary.initialise bus (st, []) =
          (.error .transport, st', calibrationActions a b ++ configActions)) ∧
      ∀ (n : Nat) (s : State), (Boundary.drained s).host = [] →
        ∃ t, exec (.calLoad a b) (Boundary.drained s) = .next t ∧
          Boundary.engineAfter s (calibrationActions a b ++ configActions.take n) = some t

/-- R189, R127, R241: a read cycle succeeds exactly when the bus answers its burst; the host's actions are then one
burst, one MEASURE of the bytes read, and the reads of STATUS and of the three outputs. The engine first executes what
was presented before, in order, and ends idle or stuck. Idle, it has executed that MEASURE, and it last, when its ports
are read; where CALV = 1 the reading is the three registers MEASURE wrote, whatever the host would draw elsewhere, and
where CALV = 0 there is none. Stuck, it has no step for the MEASURE, and there is no reading.

A failed burst is ReadError, issues no frame and leaves the engine as it was. That the engine executes what was
presented before and then the frame, before the host goes on, and that a failed check gives no reading, is log entry 19;
that an answer of another length is none, log entry 15. -/
def Obligations.ReadCycleIssuesOneMeasure : Prop :=
  ∀ (σ : Type) (bus : Boundary.Bus σ) (st st' : σ) (check : Boundary.ResultCheck) (draw : Draw) (s : State),
    ((∃ k, Host.Core.run Sys2Proof.core k s = .next (Boundary.drained s)) ∧
      ((Boundary.drained s).host = [] ∨ Stuck (Boundary.drained s)) ∧
      (s.host = [] → Boundary.drained s = s)) ∧
    (∀ r acts, Boundary.readCycle bus check draw s (st, []) = (.ok r, st', acts) ↔
      ∃ burst, BlockAnswered bus st Config.regData burst st' ∧ acts = readCycleActions burst ∧
        r = (Boundary.engineAfter s acts).bind (Boundary.checkedReading check draw)) ∧
    (∀ burst : Vector Byte 8, (Boundary.drained s).host = [] →
      ∃ t, exec (.measure burst) (Boundary.drained s) = .next t ∧
        Boundary.engineAfter s (readCycleActions burst) = some t ∧
        ((Boundary.drained s).status.calv = true →
          Boundary.checkedReading check draw t = some ⟨t.tempC, t.presHpa, t.humPct⟩) ∧
        ((Boundary.drained s).status.calv = false → check = .outcome ∨ FlagsOrdered s →
          Boundary.checkedReading check draw t = none)) ∧
    (∀ burst : Vector Byte 8, (Boundary.drained s).host ≠ [] →
      Boundary.engineAfter s (readCycleActions burst) = none) ∧
    (∀ e acts, Boundary.readCycle bus check draw s (st, []) = (.error e, st', acts) ↔
      Fails bus st (Boundary.blockRequest Config.regData 8) st' ∧ e = .read ∧
        acts = [.exchange (Boundary.blockRequest Config.regData 8)]) ∧
    ∀ e acts, Boundary.readCycle bus check draw s (st, []) = (.error e, st', acts) →
      Boundary.issuedBytes acts = [] ∧ Boundary.engineAfter s acts = some s

/-- R190: the payload is exactly 20 bytes, each field big-endian. -/
def Obligations.PayloadLayout : Prop :=
  ∀ (ts : Binary64) (r : Boundary.PhysicalReading),
    (Boundary.encodePayload ts r).length = 20 ∧
    ((Boundary.encodePayload ts r).take 8).foldl (fun n b => 256 * n + b.toNat) 0 = ts.toNat ∧
    (((Boundary.encodePayload ts r).drop 8).take 4).foldl (fun n b => 256 * n + b.toNat) 0 = r.tempC.toNat ∧
    (((Boundary.encodePayload ts r).drop 12).take 4).foldl (fun n b => 256 * n + b.toNat) 0 = r.presHpa.toNat ∧
    ((Boundary.encodePayload ts r).drop 16).foldl (fun n b => 256 * n + b.toNat) 0 = r.humPct.toNat

/-- R191: a payload of any other length is invalid, and only those. -/
def Obligations.PayloadOfAnotherLengthIsInvalid : Prop :=
  ∀ bs : List Byte, Boundary.decodePayload bs = .invalid ↔ bs.length ≠ 20

/-- R192: encoding a timestamp and a reading, then decoding, gives both back bit for bit. -/
def Obligations.PayloadRoundTrip : Prop :=
  ∀ (ts : Binary64) (r : Boundary.PhysicalReading),
    Boundary.decodePayload (Boundary.encodePayload ts r) = .reading ts r

/-- R233, R189, R241: an idle engine just reset, an initialisation and then a read cycle whose requests the bus answers:
the two programs succeed, the engine has executed CAL_LOAD and MEASURE of the bytes answered, with no error and every
flag set, and the reading is the three result registers, whichever check the host makes. That the engine executes a
frame before the host goes on is log entry 19. -/
def Obligations.InitialisationThenReadCycleGivesAReading : Prop :=
  ∀ (σ : Type) (bus : Boundary.Bus σ) (st st₁ st' : σ) (a : Vector Byte 26) (b : Vector Byte 7)
    (burst : Vector Byte 8) (check : Boundary.ResultCheck) (draw : Draw) (s : State),
    InitialisationAnswered bus st a b st₁ → BlockAnswered bus st₁ Config.regData burst st' →
    s.host = [] → s.status = Status.zero →
    ∃ t u acts, exec (.calLoad a b) s = .next t ∧ exec (.measure burst) t = .next u ∧
      Boundary.andThen (Boundary.initialise bus) (fun _ => Boundary.readCycle bus check draw s) (st, []) =
        (.ok (some ⟨u.tempC, u.presHpa, u.humPct⟩), st', acts) ∧
      Boundary.engineAfter s acts = some u ∧ u.status.word = 0x003F#16 ∧ u.fi = s.fi + 2

/-- R241: what a host's check lets it take. Under the check of the flags, a reading is the three registers with all of
TV, PV and HV 1; so after a RAW_LOAD there is none. Under the check of ERR, a MEASURE that succeeded gives its three
registers and a command that failed gives none. That none is taken is log entry 19. -/
def Obligations.HostTakesOnlyCheckedResults : Prop :=
  ∀ (draw : Draw),
    (∀ (s : State) r, Boundary.checkedReading .flags draw s = some r ↔
      (s.status.tv = true ∧ s.status.pv = true ∧ s.status.hv = true) ∧ r = ⟨s.tempC, s.presHpa, s.humPct⟩) ∧
    (∀ (burst : Vector Byte 8) (s : State), s.status.calv = true →
      ∃ t, exec (.rawLoad burst) s = .next t ∧ Boundary.checkedReading .flags draw t = none) ∧
    (∀ (burst : Vector Byte 8) (s t : State), exec (.measure burst) s = .next t →
      Boundary.checkedReading .outcome draw t =
        if s.status.calv then some ⟨t.tempC, t.presHpa, t.humPct⟩ else none) ∧
    ∀ (i : Instr) (s t : State), exec i s = .next t → t.status.err ≠ .ok →
      Boundary.checkedReading .outcome draw t = none
end

