-- ==== Sys2Proof/Laws/State.lean ====
section
/-!
SUPPORT. Laws/State.lean: what each update of State and of Status does to each field, so that no later proof unfolds
a record update. The proofs are written (rfl) so that simp carries the lemma and not the unfolding: a kernel asked to
compare two states by unfolding would compute the datapath on unknown operands.
-/
namespace Sys2Proof.Machine

open Sys2Proof

variable (s : State) (st : Status)

/-! ### State.loadCal -/

@[simp] theorem State.loadCal_fi (c : Calibration) : (s.loadCal c).fi = s.fi := (rfl)
@[simp] theorem State.loadCal_cal (c : Calibration) : (s.loadCal c).cal = c := (rfl)
@[simp] theorem State.loadCal_raw (c : Calibration) : (s.loadCal c).raw = s.raw := (rfl)
@[simp] theorem State.loadCal_tfine (c : Calibration) : (s.loadCal c).tfine = s.tfine := (rfl)
@[simp] theorem State.loadCal_tOut (c : Calibration) : (s.loadCal c).tOut = s.tOut := (rfl)
@[simp] theorem State.loadCal_pOut (c : Calibration) : (s.loadCal c).pOut = s.pOut := (rfl)
@[simp] theorem State.loadCal_hOut (c : Calibration) : (s.loadCal c).hOut = s.hOut := (rfl)
@[simp] theorem State.loadCal_tempC (c : Calibration) : (s.loadCal c).tempC = s.tempC := (rfl)
@[simp] theorem State.loadCal_presHpa (c : Calibration) : (s.loadCal c).presHpa = s.presHpa := (rfl)
@[simp] theorem State.loadCal_humPct (c : Calibration) : (s.loadCal c).humPct = s.humPct := (rfl)
@[simp] theorem State.loadCal_status (c : Calibration) : (s.loadCal c).status = s.status.markCal := (rfl)
@[simp] theorem State.loadCal_host (c : Calibration) : (s.loadCal c).host = s.host := (rfl)

/-! ### State.loadRaw -/

@[simp] theorem State.loadRaw_fi (r : RawSample) : (s.loadRaw r).fi = s.fi := (rfl)
@[simp] theorem State.loadRaw_cal (r : RawSample) : (s.loadRaw r).cal = s.cal := (rfl)
@[simp] theorem State.loadRaw_raw (r : RawSample) : (s.loadRaw r).raw = r := (rfl)
@[simp] theorem State.loadRaw_tfine (r : RawSample) : (s.loadRaw r).tfine = s.tfine := (rfl)
@[simp] theorem State.loadRaw_tOut (r : RawSample) : (s.loadRaw r).tOut = s.tOut := (rfl)
@[simp] theorem State.loadRaw_pOut (r : RawSample) : (s.loadRaw r).pOut = s.pOut := (rfl)
@[simp] theorem State.loadRaw_hOut (r : RawSample) : (s.loadRaw r).hOut = s.hOut := (rfl)
@[simp] theorem State.loadRaw_tempC (r : RawSample) : (s.loadRaw r).tempC = s.tempC := (rfl)
@[simp] theorem State.loadRaw_presHpa (r : RawSample) : (s.loadRaw r).presHpa = s.presHpa := (rfl)
@[simp] theorem State.loadRaw_humPct (r : RawSample) : (s.loadRaw r).humPct = s.humPct := (rfl)
@[simp] theorem State.loadRaw_status (r : RawSample) : (s.loadRaw r).status = s.status.startCycle := (rfl)
@[simp] theorem State.loadRaw_host (r : RawSample) : (s.loadRaw r).host = s.host := (rfl)

/-! ### State.writeTemp -/

@[simp] theorem State.writeTemp_fi (x y : Word) (z : Binary32) : (s.writeTemp x y z).fi = s.fi := (rfl)
@[simp] theorem State.writeTemp_cal (x y : Word) (z : Binary32) : (s.writeTemp x y z).cal = s.cal := (rfl)
@[simp] theorem State.writeTemp_raw (x y : Word) (z : Binary32) : (s.writeTemp x y z).raw = s.raw := (rfl)
@[simp] theorem State.writeTemp_tfine (x y : Word) (z : Binary32) : (s.writeTemp x y z).tfine = x := (rfl)
@[simp] theorem State.writeTemp_tOut (x y : Word) (z : Binary32) : (s.writeTemp x y z).tOut = y := (rfl)
@[simp] theorem State.writeTemp_pOut (x y : Word) (z : Binary32) : (s.writeTemp x y z).pOut = s.pOut := (rfl)
@[simp] theorem State.writeTemp_hOut (x y : Word) (z : Binary32) : (s.writeTemp x y z).hOut = s.hOut := (rfl)
@[simp] theorem State.writeTemp_tempC (x y : Word) (z : Binary32) : (s.writeTemp x y z).tempC = z := (rfl)
@[simp] theorem State.writeTemp_presHpa (x y : Word) (z : Binary32) : (s.writeTemp x y z).presHpa = s.presHpa := (rfl)
@[simp] theorem State.writeTemp_humPct (x y : Word) (z : Binary32) : (s.writeTemp x y z).humPct = s.humPct := (rfl)
@[simp] theorem State.writeTemp_status (x y : Word) (z : Binary32) : (s.writeTemp x y z).status = s.status.markTemp := (rfl)
@[simp] theorem State.writeTemp_host (x y : Word) (z : Binary32) : (s.writeTemp x y z).host = s.host := (rfl)

/-! ### State.writePres -/

@[simp] theorem State.writePres_fi (x : Word) (z : Binary32) : (s.writePres x z).fi = s.fi := (rfl)
@[simp] theorem State.writePres_cal (x : Word) (z : Binary32) : (s.writePres x z).cal = s.cal := (rfl)
@[simp] theorem State.writePres_raw (x : Word) (z : Binary32) : (s.writePres x z).raw = s.raw := (rfl)
@[simp] theorem State.writePres_tfine (x : Word) (z : Binary32) : (s.writePres x z).tfine = s.tfine := (rfl)
@[simp] theorem State.writePres_tOut (x : Word) (z : Binary32) : (s.writePres x z).tOut = s.tOut := (rfl)
@[simp] theorem State.writePres_pOut (x : Word) (z : Binary32) : (s.writePres x z).pOut = x := (rfl)
@[simp] theorem State.writePres_hOut (x : Word) (z : Binary32) : (s.writePres x z).hOut = s.hOut := (rfl)
@[simp] theorem State.writePres_tempC (x : Word) (z : Binary32) : (s.writePres x z).tempC = s.tempC := (rfl)
@[simp] theorem State.writePres_presHpa (x : Word) (z : Binary32) : (s.writePres x z).presHpa = z := (rfl)
@[simp] theorem State.writePres_humPct (x : Word) (z : Binary32) : (s.writePres x z).humPct = s.humPct := (rfl)
@[simp] theorem State.writePres_status (x : Word) (z : Binary32) : (s.writePres x z).status = s.status.markPres := (rfl)
@[simp] theorem State.writePres_host (x : Word) (z : Binary32) : (s.writePres x z).host = s.host := (rfl)

/-! ### State.writeHum -/

@[simp] theorem State.writeHum_fi (x : Word) (z : Binary32) : (s.writeHum x z).fi = s.fi := (rfl)
@[simp] theorem State.writeHum_cal (x : Word) (z : Binary32) : (s.writeHum x z).cal = s.cal := (rfl)
@[simp] theorem State.writeHum_raw (x : Word) (z : Binary32) : (s.writeHum x z).raw = s.raw := (rfl)
@[simp] theorem State.writeHum_tfine (x : Word) (z : Binary32) : (s.writeHum x z).tfine = s.tfine := (rfl)
@[simp] theorem State.writeHum_tOut (x : Word) (z : Binary32) : (s.writeHum x z).tOut = s.tOut := (rfl)
@[simp] theorem State.writeHum_pOut (x : Word) (z : Binary32) : (s.writeHum x z).pOut = s.pOut := (rfl)
@[simp] theorem State.writeHum_hOut (x : Word) (z : Binary32) : (s.writeHum x z).hOut = x := (rfl)
@[simp] theorem State.writeHum_tempC (x : Word) (z : Binary32) : (s.writeHum x z).tempC = s.tempC := (rfl)
@[simp] theorem State.writeHum_presHpa (x : Word) (z : Binary32) : (s.writeHum x z).presHpa = s.presHpa := (rfl)
@[simp] theorem State.writeHum_humPct (x : Word) (z : Binary32) : (s.writeHum x z).humPct = z := (rfl)
@[simp] theorem State.writeHum_status (x : Word) (z : Binary32) : (s.writeHum x z).status = s.status.markHum := (rfl)
@[simp] theorem State.writeHum_host (x : Word) (z : Binary32) : (s.writeHum x z).host = s.host := (rfl)

/-! ### State.succeed -/

@[simp] theorem State.succeed_fi : (s.succeed).fi = s.fi + 1 := (rfl)
@[simp] theorem State.succeed_cal : (s.succeed).cal = s.cal := (rfl)
@[simp] theorem State.succeed_raw : (s.succeed).raw = s.raw := (rfl)
@[simp] theorem State.succeed_tfine : (s.succeed).tfine = s.tfine := (rfl)
@[simp] theorem State.succeed_tOut : (s.succeed).tOut = s.tOut := (rfl)
@[simp] theorem State.succeed_pOut : (s.succeed).pOut = s.pOut := (rfl)
@[simp] theorem State.succeed_hOut : (s.succeed).hOut = s.hOut := (rfl)
@[simp] theorem State.succeed_tempC : (s.succeed).tempC = s.tempC := (rfl)
@[simp] theorem State.succeed_presHpa : (s.succeed).presHpa = s.presHpa := (rfl)
@[simp] theorem State.succeed_humPct : (s.succeed).humPct = s.humPct := (rfl)
@[simp] theorem State.succeed_status : (s.succeed).status = s.status.succeed := (rfl)
@[simp] theorem State.succeed_host : (s.succeed).host = s.host := (rfl)

/-! ### State.raise -/

@[simp] theorem State.raise_fi (e : ErrCode) : (s.raise e).fi = s.fi + 1 := (rfl)
@[simp] theorem State.raise_cal (e : ErrCode) : (s.raise e).cal = s.cal := (rfl)
@[simp] theorem State.raise_raw (e : ErrCode) : (s.raise e).raw = s.raw := (rfl)
@[simp] theorem State.raise_tfine (e : ErrCode) : (s.raise e).tfine = s.tfine := (rfl)
@[simp] theorem State.raise_tOut (e : ErrCode) : (s.raise e).tOut = s.tOut := (rfl)
@[simp] theorem State.raise_pOut (e : ErrCode) : (s.raise e).pOut = s.pOut := (rfl)
@[simp] theorem State.raise_hOut (e : ErrCode) : (s.raise e).hOut = s.hOut := (rfl)
@[simp] theorem State.raise_tempC (e : ErrCode) : (s.raise e).tempC = s.tempC := (rfl)
@[simp] theorem State.raise_presHpa (e : ErrCode) : (s.raise e).presHpa = s.presHpa := (rfl)
@[simp] theorem State.raise_humPct (e : ErrCode) : (s.raise e).humPct = s.humPct := (rfl)
@[simp] theorem State.raise_status (e : ErrCode) : (s.raise e).status = s.status.fail e := (rfl)
@[simp] theorem State.raise_host (e : ErrCode) : (s.raise e).host = s.host := (rfl)

/-! ### State.consume -/

@[simp] theorem State.consume_fi (n : Nat) : (s.consume n).fi = s.fi := (rfl)
@[simp] theorem State.consume_cal (n : Nat) : (s.consume n).cal = s.cal := (rfl)
@[simp] theorem State.consume_raw (n : Nat) : (s.consume n).raw = s.raw := (rfl)
@[simp] theorem State.consume_tfine (n : Nat) : (s.consume n).tfine = s.tfine := (rfl)
@[simp] theorem State.consume_tOut (n : Nat) : (s.consume n).tOut = s.tOut := (rfl)
@[simp] theorem State.consume_pOut (n : Nat) : (s.consume n).pOut = s.pOut := (rfl)
@[simp] theorem State.consume_hOut (n : Nat) : (s.consume n).hOut = s.hOut := (rfl)
@[simp] theorem State.consume_tempC (n : Nat) : (s.consume n).tempC = s.tempC := (rfl)
@[simp] theorem State.consume_presHpa (n : Nat) : (s.consume n).presHpa = s.presHpa := (rfl)
@[simp] theorem State.consume_humPct (n : Nat) : (s.consume n).humPct = s.humPct := (rfl)
@[simp] theorem State.consume_status (n : Nat) : (s.consume n).status = s.status := (rfl)
@[simp] theorem State.consume_host (n : Nat) : (s.consume n).host = s.host.drop n := (rfl)

/-! ### State.present -/

@[simp] theorem State.present_fi (bs : List Byte) : (s.present bs).fi = s.fi := (rfl)
@[simp] theorem State.present_cal (bs : List Byte) : (s.present bs).cal = s.cal := (rfl)
@[simp] theorem State.present_raw (bs : List Byte) : (s.present bs).raw = s.raw := (rfl)
@[simp] theorem State.present_tfine (bs : List Byte) : (s.present bs).tfine = s.tfine := (rfl)
@[simp] theorem State.present_tOut (bs : List Byte) : (s.present bs).tOut = s.tOut := (rfl)
@[simp] theorem State.present_pOut (bs : List Byte) : (s.present bs).pOut = s.pOut := (rfl)
@[simp] theorem State.present_hOut (bs : List Byte) : (s.present bs).hOut = s.hOut := (rfl)
@[simp] theorem State.present_tempC (bs : List Byte) : (s.present bs).tempC = s.tempC := (rfl)
@[simp] theorem State.present_presHpa (bs : List Byte) : (s.present bs).presHpa = s.presHpa := (rfl)
@[simp] theorem State.present_humPct (bs : List Byte) : (s.present bs).humPct = s.humPct := (rfl)
@[simp] theorem State.present_status (bs : List Byte) : (s.present bs).status = s.status := (rfl)
@[simp] theorem State.present_host (bs : List Byte) : (s.present bs).host = s.host ++ bs.map HostInput.byte := (rfl)

/-! ### State.presentFirst -/

@[simp] theorem State.presentFirst_fi (bs : List Byte) : (s.presentFirst bs).fi = s.fi := (rfl)
@[simp] theorem State.presentFirst_cal (bs : List Byte) : (s.presentFirst bs).cal = s.cal := (rfl)
@[simp] theorem State.presentFirst_raw (bs : List Byte) : (s.presentFirst bs).raw = s.raw := (rfl)
@[simp] theorem State.presentFirst_tfine (bs : List Byte) : (s.presentFirst bs).tfine = s.tfine := (rfl)
@[simp] theorem State.presentFirst_tOut (bs : List Byte) : (s.presentFirst bs).tOut = s.tOut := (rfl)
@[simp] theorem State.presentFirst_pOut (bs : List Byte) : (s.presentFirst bs).pOut = s.pOut := (rfl)
@[simp] theorem State.presentFirst_hOut (bs : List Byte) : (s.presentFirst bs).hOut = s.hOut := (rfl)
@[simp] theorem State.presentFirst_tempC (bs : List Byte) : (s.presentFirst bs).tempC = s.tempC := (rfl)
@[simp] theorem State.presentFirst_presHpa (bs : List Byte) : (s.presentFirst bs).presHpa = s.presHpa := (rfl)
@[simp] theorem State.presentFirst_humPct (bs : List Byte) : (s.presentFirst bs).humPct = s.humPct := (rfl)
@[simp] theorem State.presentFirst_status (bs : List Byte) : (s.presentFirst bs).status = s.status := (rfl)
@[simp] theorem State.presentFirst_host (bs : List Byte) : (s.presentFirst bs).host = bs.map HostInput.byte ++ s.host := (rfl)

/-! ### Status -/

@[simp] theorem Status.succeed_calv : st.succeed.calv = st.calv := rfl
@[simp] theorem Status.succeed_rawv : st.succeed.rawv = st.rawv := rfl
@[simp] theorem Status.succeed_tfv : st.succeed.tfv = st.tfv := rfl
@[simp] theorem Status.succeed_tv : st.succeed.tv = st.tv := rfl
@[simp] theorem Status.succeed_pv : st.succeed.pv = st.pv := rfl
@[simp] theorem Status.succeed_hv : st.succeed.hv = st.hv := rfl
@[simp] theorem Status.succeed_estky : st.succeed.estky = st.estky := rfl
@[simp] theorem Status.succeed_err : st.succeed.err = .ok := rfl
@[simp] theorem Status.markCal_calv : st.markCal.calv = true := rfl
@[simp] theorem Status.markCal_rawv : st.markCal.rawv = st.rawv := rfl
@[simp] theorem Status.markCal_tfv : st.markCal.tfv = st.tfv := rfl
@[simp] theorem Status.markCal_tv : st.markCal.tv = st.tv := rfl
@[simp] theorem Status.markCal_pv : st.markCal.pv = st.pv := rfl
@[simp] theorem Status.markCal_hv : st.markCal.hv = st.hv := rfl
@[simp] theorem Status.markCal_estky : st.markCal.estky = st.estky := rfl
@[simp] theorem Status.markCal_err : st.markCal.err = st.err := rfl
@[simp] theorem Status.startCycle_calv : st.startCycle.calv = st.calv := rfl
@[simp] theorem Status.startCycle_rawv : st.startCycle.rawv = true := rfl
@[simp] theorem Status.startCycle_tfv : st.startCycle.tfv = false := rfl
@[simp] theorem Status.startCycle_tv : st.startCycle.tv = false := rfl
@[simp] theorem Status.startCycle_pv : st.startCycle.pv = false := rfl
@[simp] theorem Status.startCycle_hv : st.startCycle.hv = false := rfl
@[simp] theorem Status.startCycle_estky : st.startCycle.estky = st.estky := rfl
@[simp] theorem Status.startCycle_err : st.startCycle.err = st.err := rfl
@[simp] theorem Status.markTemp_calv : st.markTemp.calv = st.calv := rfl
@[simp] theorem Status.markTemp_rawv : st.markTemp.rawv = st.rawv := rfl
@[simp] theorem Status.markTemp_tfv : st.markTemp.tfv = true := rfl
@[simp] theorem Status.markTemp_tv : st.markTemp.tv = true := rfl
@[simp] theorem Status.markTemp_pv : st.markTemp.pv = st.pv := rfl
@[simp] theorem Status.markTemp_hv : st.markTemp.hv = st.hv := rfl
@[simp] theorem Status.markTemp_estky : st.markTemp.estky = st.estky := rfl
@[simp] theorem Status.markTemp_err : st.markTemp.err = st.err := rfl
@[simp] theorem Status.markPres_calv : st.markPres.calv = st.calv := rfl
@[simp] theorem Status.markPres_rawv : st.markPres.rawv = st.rawv := rfl
@[simp] theorem Status.markPres_tfv : st.markPres.tfv = st.tfv := rfl
@[simp] theorem Status.markPres_tv : st.markPres.tv = st.tv := rfl
@[simp] theorem Status.markPres_pv : st.markPres.pv = true := rfl
@[simp] theorem Status.markPres_hv : st.markPres.hv = st.hv := rfl
@[simp] theorem Status.markPres_estky : st.markPres.estky = st.estky := rfl
@[simp] theorem Status.markPres_err : st.markPres.err = st.err := rfl
@[simp] theorem Status.markHum_calv : st.markHum.calv = st.calv := rfl
@[simp] theorem Status.markHum_rawv : st.markHum.rawv = st.rawv := rfl
@[simp] theorem Status.markHum_tfv : st.markHum.tfv = st.tfv := rfl
@[simp] theorem Status.markHum_tv : st.markHum.tv = st.tv := rfl
@[simp] theorem Status.markHum_pv : st.markHum.pv = st.pv := rfl
@[simp] theorem Status.markHum_hv : st.markHum.hv = true := rfl
@[simp] theorem Status.markHum_estky : st.markHum.estky = st.estky := rfl
@[simp] theorem Status.markHum_err : st.markHum.err = st.err := rfl
@[simp] theorem Status.fail_calv (e : ErrCode) : (st.fail e).calv = st.calv := rfl
@[simp] theorem Status.fail_rawv (e : ErrCode) : (st.fail e).rawv = st.rawv := rfl
@[simp] theorem Status.fail_tfv (e : ErrCode) : (st.fail e).tfv = st.tfv := rfl
@[simp] theorem Status.fail_tv (e : ErrCode) : (st.fail e).tv = st.tv := rfl
@[simp] theorem Status.fail_pv (e : ErrCode) : (st.fail e).pv = st.pv := rfl
@[simp] theorem Status.fail_hv (e : ErrCode) : (st.fail e).hv = st.hv := rfl
@[simp] theorem Status.fail_estky (e : ErrCode) : (st.fail e).estky = true := rfl
@[simp] theorem Status.fail_err (e : ErrCode) : (st.fail e).err = e := rfl

end Sys2Proof.Machine
end

