-- ==== Sys2Proof/Laws/Bodies.lean ====
section
/-!
SUPPORT. Laws/Bodies.lean: what the writes of each command do to each field of State. The proofs are written (rfl)
for the reason Laws/State.lean gives.
-/
namespace Sys2Proof.Machine

open Sys2Proof

/-! ### The parameters of this hardware (R7): to rewrite with, so that no comparison of two states evaluates a width -/

@[simp] theorem hardware_tempWidth : Config.hardware.tempWidth = .w32 := rfl
@[simp] theorem hardware_humWidth : Config.hardware.humWidth = .w32 := rfl
@[simp] theorem hardware_floatConv : Config.hardware.floatConv = .single := rfl
@[simp] theorem bits_w32 : Width.w32.bits = 32 := rfl
@[simp] theorem bits_w64 : Width.w64.bits = 64 := rfl

variable (s : State)

/-! ### The bodies that compute, as register writes -/

theorem compTBody_eq (P : Params) :
    compTBody P s = s.writeTemp (trunc32 (tempFine P.tempWidth.bits s.raw.adcT s.cal))
      (trunc32 (tempCenti (tempFine P.tempWidth.bits s.raw.adcT s.cal)))
      (cvtT P.floatConv (trunc32 (tempCenti (tempFine P.tempWidth.bits s.raw.adcT s.cal)))) := (rfl)

theorem compPBody_eq (P : Params) :
    compPBody P s = s.writePres (trunc32 (pressure s.raw.adcP s.tfine s.cal))
      (cvtP P.floatConv (trunc32 (pressure s.raw.adcP s.tfine s.cal))) := (rfl)

theorem compHBody_eq (P : Params) :
    compHBody P s = s.writeHum (humidity P.humWidth.bits s.raw.adcH s.tfine s.cal)
      (cvtH P.floatConv (humidity P.humWidth.bits s.raw.adcH s.tfine s.cal)) := (rfl)

/-! ### calLoadBody -/

@[simp] theorem calLoadBody_fi (a : Vector Byte 26) (b : Vector Byte 7) : (calLoadBody a b s).fi = s.fi := (rfl)
@[simp] theorem calLoadBody_cal (a : Vector Byte 26) (b : Vector Byte 7) :
    (calLoadBody a b s).cal = decodeCalibration a b := (rfl)
@[simp] theorem calLoadBody_raw (a : Vector Byte 26) (b : Vector Byte 7) : (calLoadBody a b s).raw = s.raw := (rfl)
@[simp] theorem calLoadBody_tfine (a : Vector Byte 26) (b : Vector Byte 7) :
    (calLoadBody a b s).tfine = s.tfine := (rfl)
@[simp] theorem calLoadBody_tOut (a : Vector Byte 26) (b : Vector Byte 7) : (calLoadBody a b s).tOut = s.tOut := (rfl)
@[simp] theorem calLoadBody_pOut (a : Vector Byte 26) (b : Vector Byte 7) : (calLoadBody a b s).pOut = s.pOut := (rfl)
@[simp] theorem calLoadBody_hOut (a : Vector Byte 26) (b : Vector Byte 7) : (calLoadBody a b s).hOut = s.hOut := (rfl)
@[simp] theorem calLoadBody_tempC (a : Vector Byte 26) (b : Vector Byte 7) :
    (calLoadBody a b s).tempC = s.tempC := (rfl)
@[simp] theorem calLoadBody_presHpa (a : Vector Byte 26) (b : Vector Byte 7) :
    (calLoadBody a b s).presHpa = s.presHpa := (rfl)
@[simp] theorem calLoadBody_humPct (a : Vector Byte 26) (b : Vector Byte 7) :
    (calLoadBody a b s).humPct = s.humPct := (rfl)
@[simp] theorem calLoadBody_status (a : Vector Byte 26) (b : Vector Byte 7) :
    (calLoadBody a b s).status = s.status.markCal := (rfl)
@[simp] theorem calLoadBody_host (a : Vector Byte 26) (b : Vector Byte 7) : (calLoadBody a b s).host = s.host := (rfl)

/-! ### rawLoadBody -/

@[simp] theorem rawLoadBody_fi (v : Vector Byte 8) : (rawLoadBody v s).fi = s.fi := (rfl)
@[simp] theorem rawLoadBody_cal (v : Vector Byte 8) : (rawLoadBody v s).cal = s.cal := (rfl)
@[simp] theorem rawLoadBody_raw (v : Vector Byte 8) : (rawLoadBody v s).raw = decodeRaw v := (rfl)
@[simp] theorem rawLoadBody_tfine (v : Vector Byte 8) : (rawLoadBody v s).tfine = s.tfine := (rfl)
@[simp] theorem rawLoadBody_tOut (v : Vector Byte 8) : (rawLoadBody v s).tOut = s.tOut := (rfl)
@[simp] theorem rawLoadBody_pOut (v : Vector Byte 8) : (rawLoadBody v s).pOut = s.pOut := (rfl)
@[simp] theorem rawLoadBody_hOut (v : Vector Byte 8) : (rawLoadBody v s).hOut = s.hOut := (rfl)
@[simp] theorem rawLoadBody_tempC (v : Vector Byte 8) : (rawLoadBody v s).tempC = s.tempC := (rfl)
@[simp] theorem rawLoadBody_presHpa (v : Vector Byte 8) : (rawLoadBody v s).presHpa = s.presHpa := (rfl)
@[simp] theorem rawLoadBody_humPct (v : Vector Byte 8) : (rawLoadBody v s).humPct = s.humPct := (rfl)
@[simp] theorem rawLoadBody_status (v : Vector Byte 8) : (rawLoadBody v s).status = s.status.startCycle := (rfl)
@[simp] theorem rawLoadBody_host (v : Vector Byte 8) : (rawLoadBody v s).host = s.host := (rfl)

/-! ### compTBody -/

@[simp] theorem compTBody_fi (P : Params) : (compTBody P s).fi = s.fi := (rfl)
@[simp] theorem compTBody_cal (P : Params) : (compTBody P s).cal = s.cal := (rfl)
@[simp] theorem compTBody_raw (P : Params) : (compTBody P s).raw = s.raw := (rfl)
@[simp] theorem compTBody_tfine (P : Params) :
    (compTBody P s).tfine = trunc32 (tempFine P.tempWidth.bits s.raw.adcT s.cal) := (rfl)
@[simp] theorem compTBody_tOut (P : Params) :
    (compTBody P s).tOut = trunc32 (tempCenti (tempFine P.tempWidth.bits s.raw.adcT s.cal)) := (rfl)
@[simp] theorem compTBody_pOut (P : Params) : (compTBody P s).pOut = s.pOut := (rfl)
@[simp] theorem compTBody_hOut (P : Params) : (compTBody P s).hOut = s.hOut := (rfl)
@[simp] theorem compTBody_tempC (P : Params) :
    (compTBody P s).tempC = cvtT P.floatConv (trunc32 (tempCenti (tempFine P.tempWidth.bits s.raw.adcT s.cal))) := (rfl)
@[simp] theorem compTBody_presHpa (P : Params) : (compTBody P s).presHpa = s.presHpa := (rfl)
@[simp] theorem compTBody_humPct (P : Params) : (compTBody P s).humPct = s.humPct := (rfl)
@[simp] theorem compTBody_status (P : Params) : (compTBody P s).status = s.status.markTemp := (rfl)
@[simp] theorem compTBody_host (P : Params) : (compTBody P s).host = s.host := (rfl)

/-! ### compPBody -/

@[simp] theorem compPBody_fi (P : Params) : (compPBody P s).fi = s.fi := (rfl)
@[simp] theorem compPBody_cal (P : Params) : (compPBody P s).cal = s.cal := (rfl)
@[simp] theorem compPBody_raw (P : Params) : (compPBody P s).raw = s.raw := (rfl)
@[simp] theorem compPBody_tfine (P : Params) : (compPBody P s).tfine = s.tfine := (rfl)
@[simp] theorem compPBody_tOut (P : Params) : (compPBody P s).tOut = s.tOut := (rfl)
@[simp] theorem compPBody_pOut (P : Params) :
    (compPBody P s).pOut = trunc32 (pressure s.raw.adcP s.tfine s.cal) := (rfl)
@[simp] theorem compPBody_hOut (P : Params) : (compPBody P s).hOut = s.hOut := (rfl)
@[simp] theorem compPBody_tempC (P : Params) : (compPBody P s).tempC = s.tempC := (rfl)
@[simp] theorem compPBody_presHpa (P : Params) :
    (compPBody P s).presHpa = cvtP P.floatConv (trunc32 (pressure s.raw.adcP s.tfine s.cal)) := (rfl)
@[simp] theorem compPBody_humPct (P : Params) : (compPBody P s).humPct = s.humPct := (rfl)
@[simp] theorem compPBody_status (P : Params) : (compPBody P s).status = s.status.markPres := (rfl)
@[simp] theorem compPBody_host (P : Params) : (compPBody P s).host = s.host := (rfl)

/-! ### compHBody -/

@[simp] theorem compHBody_fi (P : Params) : (compHBody P s).fi = s.fi := (rfl)
@[simp] theorem compHBody_cal (P : Params) : (compHBody P s).cal = s.cal := (rfl)
@[simp] theorem compHBody_raw (P : Params) : (compHBody P s).raw = s.raw := (rfl)
@[simp] theorem compHBody_tfine (P : Params) : (compHBody P s).tfine = s.tfine := (rfl)
@[simp] theorem compHBody_tOut (P : Params) : (compHBody P s).tOut = s.tOut := (rfl)
@[simp] theorem compHBody_pOut (P : Params) : (compHBody P s).pOut = s.pOut := (rfl)
@[simp] theorem compHBody_hOut (P : Params) :
    (compHBody P s).hOut = humidity P.humWidth.bits s.raw.adcH s.tfine s.cal := (rfl)
@[simp] theorem compHBody_tempC (P : Params) : (compHBody P s).tempC = s.tempC := (rfl)
@[simp] theorem compHBody_presHpa (P : Params) : (compHBody P s).presHpa = s.presHpa := (rfl)
@[simp] theorem compHBody_humPct (P : Params) :
    (compHBody P s).humPct = cvtH P.floatConv (humidity P.humWidth.bits s.raw.adcH s.tfine s.cal) := (rfl)
@[simp] theorem compHBody_status (P : Params) : (compHBody P s).status = s.status.markHum := (rfl)
@[simp] theorem compHBody_host (P : Params) : (compHBody P s).host = s.host := (rfl)

/-! ### measureBody: the four bodies in order, each seeing the writes of the ones before -/

theorem measureBody_eq (P : Params) (v : Vector Byte 8) :
    measureBody P v s = compHBody P (compPBody P (compTBody P (rawLoadBody v s))) := (rfl)

end Sys2Proof.Machine
end

