-- ==== Sys2Proof/Laws/Decode.lean ====
section
/-!
SUPPORT. Laws/Decode.lean: what the decoder's building blocks answer.
-/
namespace Sys2Proof

/-- Where there are enough bytes, `takeBytes` splits the list. -/
theorem takeBytes_append {n : Nat} (v : Vector Byte n) (rest : List Byte) :
    takeBytes n (v.toList ++ rest) = some (v, rest) := by
  obtain ⟨⟨l⟩, h⟩ := v
  subst h
  simp [takeBytes, Vector.toList]

/-- All `takeBytes` can answer: the bytes it takes and the rest make up the list. -/
theorem takeBytes_eq_some {n : Nat} {bs rest : List Byte} {v : Vector Byte n}
    (h : takeBytes n bs = some (v, rest)) : bs = v.toList ++ rest := by
  unfold takeBytes at h
  split at h
  · simp only [Option.some.injEq, Prod.mk.injEq] at h
    obtain ⟨rfl, rfl⟩ := h
    simp [Vector.toList]
  · exact absurd h (by simp)

/-- `takeBytes` refuses exactly the lists that are too short. -/
theorem takeBytes_eq_none {n : Nat} {bs : List Byte} : takeBytes n bs = none ↔ bs.length < n := by
  unfold takeBytes
  split <;> simp <;> omega

theorem decodeCalLoad_ne_noFrame (bs : List Byte) : decodeCalLoad bs ≠ .rejected .noFrame := by
  unfold decodeCalLoad
  repeat' split
  all_goals simp

theorem decodeBurst_ne_noFrame (mk : Vector Byte 8 → Instr) (bs : List Byte) :
    decodeBurst mk bs ≠ .rejected .noFrame := by
  unfold decodeBurst
  repeat' split
  all_goals simp

/-- Where there is a byte, the decoder finds a frame, whole, cut short or illegal. -/
theorem decode_cons_ne_noFrame (opc : Byte) (bs : List Byte) : decode (opc :: bs) ≠ .rejected .noFrame := by
  simp only [decode]
  split <;> first | exact decodeCalLoad_ne_noFrame _ | exact decodeBurst_ne_noFrame _ _ | simp

@[simp] theorem encode_nop : encode .nop = [0x00#8] := rfl
@[simp] theorem encode_calLoad (a : Vector Byte 26) (b : Vector Byte 7) :
    encode (.calLoad a b) = 0x01#8 :: (a.toList ++ b.toList) := rfl
@[simp] theorem encode_rawLoad (v : Vector Byte 8) : encode (.rawLoad v) = 0x02#8 :: v.toList := rfl
@[simp] theorem encode_compT : encode .compT = [0x10#8] := rfl
@[simp] theorem encode_compP : encode .compP = [0x11#8] := rfl
@[simp] theorem encode_compH : encode .compH = [0x12#8] := rfl
@[simp] theorem encode_measure (v : Vector Byte 8) : encode (.measure v) = 0x20#8 :: v.toList := rfl

/-! ### The decoder, opcode by opcode -/

@[simp] theorem decode_nil : decode [] = .rejected .noFrame := rfl
@[simp] theorem decode_nop (bs : List Byte) : decode (0x00#8 :: bs) = .instr .nop bs := rfl
@[simp] theorem decode_calLoad (bs : List Byte) : decode (0x01#8 :: bs) = decodeCalLoad bs := rfl
@[simp] theorem decode_rawLoad (bs : List Byte) : decode (0x02#8 :: bs) = decodeBurst .rawLoad bs := rfl
@[simp] theorem decode_compT (bs : List Byte) : decode (0x10#8 :: bs) = .instr .compT bs := rfl
@[simp] theorem decode_compP (bs : List Byte) : decode (0x11#8 :: bs) = .instr .compP bs := rfl
@[simp] theorem decode_compH (bs : List Byte) : decode (0x12#8 :: bs) = .instr .compH bs := rfl
@[simp] theorem decode_measure (bs : List Byte) : decode (0x20#8 :: bs) = decodeBurst .measure bs := rfl

/-- A CAL_LOAD frame cut short is incomplete (R82). -/
theorem decodeCalLoad_short {bs : List Byte} (h : bs.length < 33) :
    decodeCalLoad bs = .rejected .incompleteFrame := by
  unfold decodeCalLoad
  split
  · rfl
  · rename_i h1
    rw [takeBytes_eq_none.mpr]
    have := congrArg List.length (takeBytes_eq_some h1)
    simp at this
    omega

/-- A RAW_LOAD or MEASURE frame cut short is incomplete (R82). -/
theorem decodeBurst_short {mk : Vector Byte 8 → Instr} {bs : List Byte} (h : bs.length < 8) :
    decodeBurst mk bs = .rejected .incompleteFrame := by
  unfold decodeBurst
  rw [takeBytes_eq_none.mpr h]

/-- The three frame lengths of R72. -/
theorem frameLength_eq (i : Instr) :
    frameLength i = match i with
      | .calLoad _ _ => 34
      | .rawLoad _ | .measure _ => 9
      | _ => 1 := by
  cases i <;> simp [frameLength]

/-- Every frame has its opcode byte. -/
theorem frameLength_pos (i : Instr) : 0 < frameLength i := by
  cases i <;> simp [frameLength]

theorem opcodeRow_calLoad : opcodeRow 1#8 = some ⟨0x01, "CAL_LOAD", 33⟩ := rfl
theorem opcodeRow_rawLoad : opcodeRow 2#8 = some ⟨0x02, "RAW_LOAD", 8⟩ := rfl
theorem opcodeRow_measure : opcodeRow 32#8 = some ⟨0x20, "MEASURE", 8⟩ := rfl

end Sys2Proof
end

