-- ==== Sys2Proof/Laws/Ops.lean ====
section
/-!
SUPPORT. Laws/Ops.lean: everything the shared operations can do, said once.
-/
namespace Sys2Proof.Machine

open Sys2Proof

/-! ### `command` -/

theorem command_none (body : State → State) (s : State) : command none body s = .next (body s).succeed := rfl

theorem command_some (e : ErrCode) (body : State → State) (s : State) : command (some e) body s = .next (s.raise e) :=
  rfl

/-- A command always completes: in the error of its first failing check, or in success. -/
theorem command_next {failed : Option ErrCode} {body : State → State} {s t : State}
    (h : command failed body s = .next t) :
    (∃ e, failed = some e ∧ t = s.raise e) ∨ (failed = none ∧ t = (body s).succeed) := by
  cases failed with
  | none => exact .inr ⟨rfl, (Host.Outcome.next.inj h).symm⟩
  | some e => exact .inl ⟨e, rfl, (Host.Outcome.next.inj h).symm⟩

/-! ### The checks -/

theorem Status.needUnlocked_eq_none {st : Status} : st.needUnlocked = none ↔ st.calv = false := by
  cases h : st.calv <;> simp [Status.needUnlocked, h]

theorem Status.needUnlocked_eq_some {st : Status} {e : ErrCode} :
    st.needUnlocked = some e ↔ st.calv = true ∧ e = .calLocked := by
  cases h : st.calv <;> simp [Status.needUnlocked, h, eq_comm]

theorem Status.needCal_eq_none {st : Status} : st.needCal = none ↔ st.calv = true := by
  cases h : st.calv <;> simp [Status.needCal, h]

theorem Status.needRaw_eq_none {st : Status} : st.needRaw = none ↔ st.calv = true ∧ st.rawv = true := by
  cases h : st.calv <;> cases h' : st.rawv <;> simp [Status.needRaw, h, h']

theorem Status.needTfine_eq_none {st : Status} :
    st.needTfine = none ↔ st.calv = true ∧ st.rawv = true ∧ st.tfv = true := by
  cases h : st.calv <;> cases h' : st.rawv <;> cases h'' : st.tfv <;> simp [Status.needTfine, h, h', h'']

/-! ### The host's input -/

@[simp] theorem frameBytes_nil : frameBytes [] = [] := rfl
@[simp] theorem frameBytes_byte (b : Byte) (rest : List HostInput) :
    frameBytes (.byte b :: rest) = b :: frameBytes rest := rfl
@[simp] theorem frameBytes_reset (rest : List HostInput) : frameBytes (.reset :: rest) = [] := rfl
@[simp] theorem frameBytes_contend (rest : List HostInput) : frameBytes (.contend :: rest) = [] := rfl

/-- Presented bytes come first, then whatever frame bytes follow them. -/
@[simp] theorem frameBytes_map_append (bs : List Byte) (rest : List HostInput) :
    frameBytes (bs.map HostInput.byte ++ rest) = bs ++ frameBytes rest := by
  induction bs with
  | nil => rfl
  | cons b bs ih => simp [ih]

/-- The input begins with its frame bytes; what follows them is no byte. -/
theorem host_eq_frameBytes_append (h : List HostInput) :
    ∃ rest, h = (frameBytes h).map HostInput.byte ++ rest ∧ frameBytes rest = [] := by
  induction h with
  | nil => exact ⟨[], rfl, rfl⟩
  | cons x h ih =>
    cases x with
    | byte b =>
      obtain ⟨rest, hr, hn⟩ := ih
      exact ⟨rest, by simpa using hr, hn⟩
    | reset => exact ⟨.reset :: h, rfl, rfl⟩
    | contend => exact ⟨.contend :: h, rfl, rfl⟩

/-! ### `step` -/

theorem step_of_goesOn {s t : State} (h : fetch s = .goesOn t) : step s = .next t := by simp [step, h]
theorem step_of_run {s t : State} {i : Instr} (h : fetch s = .run i t) : step s = exec i t := by simp [step, h]
theorem step_of_stuck {s : State} {r : Refusal} (h : fetch s = .stuck r) : step s = .refused r := by simp [step, h]

/-- All a fetch can find: an idle engine, the reset input, an illegal opcode, a command, or no step. -/
theorem fetch_cases (s : State) :
    (frameBytes s.host = [] ∧ fetch s = .goesOn s) ∨
    (∃ rest, s.host = .reset :: rest ∧ fetch s = .goesOn s.takeReset) ∨
    (∃ opc, decode (frameBytes s.host) = .rejected (.illegalOpcode opc) ∧ fetch s = .goesOn s.takeIllegal) ∨
    (∃ i rest, decode (frameBytes s.host) = .instr i rest ∧ fetch s = .run i (s.consume (frameLength i))) ∨
    (∃ r, fetch s = .stuck r ∧
      ((r = .contendingHost ∧ ∃ rest, s.host = .contend :: rest) ∨
       (r = .incompleteFrame ∧ decode (frameBytes s.host) = .rejected .incompleteFrame))) := by
  cases hs : s.host with
  | nil => exact .inl ⟨rfl, by simp [fetch, hs]⟩
  | cons x rest =>
    cases x with
    | reset => exact .inr (.inl ⟨rest, rfl, by simp [fetch, hs]⟩)
    | contend => exact .inr (.inr (.inr (.inr ⟨_, by simp [fetch, hs], .inl ⟨rfl, rest, rfl⟩⟩)))
    | byte b =>
      have hf : fetch s = fetchFrame s := by simp [fetch, hs]
      rw [hf]
      unfold fetchFrame
      rw [hs]
      cases hd : decode (frameBytes (.byte b :: rest)) with
      | instr i bs => exact .inr (.inr (.inr (.inl ⟨i, bs, rfl, rfl⟩)))
      | rejected e =>
        cases e with
        | noFrame => exact absurd hd (decode_cons_ne_noFrame _ _)
        | illegalOpcode opc => exact .inr (.inr (.inl ⟨opc, rfl, rfl⟩))
        | incompleteFrame => exact .inr (.inr (.inr (.inr ⟨_, rfl, .inr ⟨rfl, rfl⟩⟩)))

end Sys2Proof.Machine
end

