-- ==== Sys2Proof/Laws/Exec.lean ====
section
/-!
SUPPORT. Laws/Exec.lean: what a command can do, said once: `exec` always completes, in the error of its first failing
check or in the success of its body.
-/
namespace Sys2Proof.Machine

open Sys2Proof

/-- The check a command makes before it writes (R206). -/
def checkOf (i : Instr) (st : Status) : Option ErrCode :=
  match i with
  | .nop => none
  | .calLoad _ _ => st.needUnlocked
  | .rawLoad _ | .measure _ => st.needCal
  | .compT => st.needRaw
  | .compP | .compH => st.needTfine

/-- The writes of a command that succeeds. -/
def bodyOf (i : Instr) : State → State :=
  match i with
  | .nop => id
  | .calLoad a b => calLoadBody a b
  | .rawLoad v => rawLoadBody v
  | .compT => compTBody Config.hardware
  | .compP => compPBody Config.hardware
  | .compH => compHBody Config.hardware
  | .measure v => measureBody Config.hardware v

/-- Every meaning is its check and its body. -/
theorem exec_eq_command (i : Instr) (s : State) : exec i s = command (checkOf i s.status) (bodyOf i) s := by
  cases i <;> rfl

/-- A command always answers a next state. -/
theorem exec_completes (i : Instr) (s : State) : ∃ t, exec i s = .next t := by
  rw [exec_eq_command]
  cases checkOf i s.status with
  | none => exact ⟨_, rfl⟩
  | some e => exact ⟨_, rfl⟩

/-- All a command can do. -/
theorem exec_cases {i : Instr} {s t : State} (h : exec i s = .next t) :
    (∃ e, checkOf i s.status = some e ∧ t = s.raise e) ∨
    (checkOf i s.status = none ∧ t = (bodyOf i s).succeed) :=
  command_next (exec_eq_command i s ▸ h)

/-- No check reports success. -/
theorem checkOf_ne_ok (i : Instr) (st : Status) : checkOf i st ≠ some .ok := by
  cases i <;>
    simp only [checkOf, Status.needUnlocked, Status.needCal, Status.needRaw, Status.needTfine] <;>
    (repeat' split) <;> simp

/-! ### `step`, everything it can do -/

/-- All a step to a next state can be: nothing presented, the reset input, an illegal opcode, or a command. -/
theorem step_cases {s t : State} (h : step s = .next t) :
    (s.host = [] ∧ t = s) ∨
    (∃ rest, s.host = .reset :: rest ∧ t = s.takeReset) ∨
    (s.host.head? ≠ some .reset ∧ t = s.takeIllegal) ∨
    (s.host.head? ≠ some .reset ∧ ∃ i, exec i (s.consume (frameLength i)) = .next t) := by
  have noReset : ∀ d, frameBytes s.host ≠ [] ∨ d → s.host.head? = some .reset → d := by
    intro d hd hh
    cases hs : s.host with
    | nil => simp [hs] at hh
    | cons x r => simp_all
  rcases fetch_cases s with ⟨h1, h2⟩ | ⟨r, h1, h2⟩ | ⟨o, h1, h2⟩ | ⟨i, r, h1, h2⟩ | ⟨r, h1, -⟩
  · rw [step_of_goesOn h2] at h
    cases h
    cases hs : s.host with
    | nil => exact .inl ⟨rfl, rfl⟩
    | cons x r =>
      cases x with
      | byte b => simp [hs] at h1
      | contend => simp [fetch, hs] at h2
      | reset => exact .inr (.inl ⟨r, rfl, by simpa [fetch, hs, eq_comm] using h2⟩)
  · rw [step_of_goesOn h2] at h
    cases h
    exact .inr (.inl ⟨r, h1, rfl⟩)
  · rw [step_of_goesOn h2] at h
    cases h
    exact .inr (.inr (.inl ⟨fun hh => noReset False (.inl fun h0 => by simp [h0] at h1) hh, rfl⟩))
  · rw [step_of_run h2] at h
    exact .inr (.inr (.inr ⟨fun hh => noReset False (.inl fun h0 => by simp [h0] at h1) hh, i, h⟩))
  · rw [step_of_stuck h1] at h
    cases h

/-! ### The bodies leave the frame index and the host's input alone -/

@[simp] theorem bodyOf_fi (i : Instr) (s : State) : (bodyOf i s).fi = s.fi := by
  cases i <;> simp [bodyOf, measureBody_eq]

@[simp] theorem bodyOf_host (i : Instr) (s : State) : (bodyOf i s).host = s.host := by
  cases i <;> simp [bodyOf, measureBody_eq]

/-- No command touches what the host has presented. -/
theorem exec_host {i : Instr} {s t : State} (h : exec i s = .next t) : t.host = s.host := by
  rcases exec_cases h with ⟨e, -, rfl⟩ | ⟨-, rfl⟩ <;> simp

/-- What each body does to the flags. -/
theorem bodyOf_status (i : Instr) (s : State) :
    (bodyOf i s).status = match i with
      | .nop => s.status
      | .calLoad _ _ => s.status.markCal
      | .rawLoad _ => s.status.startCycle
      | .compT => s.status.markTemp
      | .compP => s.status.markPres
      | .compH => s.status.markHum
      | .measure _ => s.status.startCycle.markTemp.markPres.markHum := by
  cases i <;> simp [bodyOf, measureBody_eq]

/-- `STATUS.ERR` is untouched by a body: only the end of the command writes it (R34). -/
@[simp] theorem bodyOf_err (i : Instr) (s : State) : (bodyOf i s).status.err = s.status.err := by
  rw [bodyOf_status]
  cases i <;> rfl

@[simp] theorem bodyOf_estky (i : Instr) (s : State) : (bodyOf i s).status.estky = s.status.estky := by
  rw [bodyOf_status]
  cases i <;> rfl

/-! ### Runs -/

/-- A run of one more step goes on from the state its first step leads to. -/
theorem core_run_succ {s t : State} (n : Nat) (h : step s = .next t) :
    Host.Core.run Sys2Proof.core (n + 1) s = Host.Core.run Sys2Proof.core n t := by
  have hc : Sys2Proof.core.step s = .next t := h
  simp [Host.Core.run, hc]

end Sys2Proof.Machine
end

