-- ==== Sys2Proof/Laws/Boundary.lean ====
section
/-!
SUPPORT. Laws/Boundary.lean: everything a host program of Machine/Boundary.lean can do: what the bus answered, where
that leaves what is behind it, and which action the host recorded.
-/
namespace Sys2Proof.Boundary

open Sys2Proof Sys2Proof.Machine

variable {σ α β : Type} {bus : Bus σ} {h h' : HostState σ}

/-! ### Sequencing -/

theorem give_ok {a b : α} (e : give a h = (.ok b, h')) : b = a ∧ h' = h := by
  cases e
  exact ⟨rfl, rfl⟩

theorem act_ok {a : HostAction} {u : Unit} (e : act a h = (.ok u, h')) : h' = (h.1, h.2 ++ [a]) := by
  cases e
  rfl

/-- Recording an action never fails. -/
theorem act_ne_error {a : HostAction} {x : HostError} : act a h ≠ (.error x, h') := nofun

theorem andThen_ok {m : HostProgram σ α} {k : α → HostProgram σ β} {b : β} (e : andThen m k h = (.ok b, h')) :
    ∃ a h₁, m h = (.ok a, h₁) ∧ k a h₁ = (.ok b, h') := by
  unfold andThen at e
  split at e
  · exact ⟨_, _, by assumption, e⟩
  · cases e

theorem andThen_error {m : HostProgram σ α} {k : α → HostProgram σ β} {x : HostError}
    (e : andThen m k h = (.error x, h')) :
    m h = (.error x, h') ∨ ∃ a h₁, m h = (.ok a, h₁) ∧ k a h₁ = (.error x, h') := by
  unfold andThen at e
  split at e
  · exact .inr ⟨_, _, by assumption, e⟩
  · cases e
    exact .inl (by assumption)

theorem reportAs_ok {m : HostProgram σ α} {x : HostError} {a : α} (e : reportAs x m h = (.ok a, h')) :
    m h = (.ok a, h') := by
  unfold reportAs at e
  split at e
  · cases e
    assumption
  · cases e

theorem reportAs_error {m : HostProgram σ α} {x y : HostError} (e : reportAs x m h = (.error y, h')) :
    y = x ∧ ∃ z, m h = (.error z, h') := by
  unfold reportAs at e
  split at e
  · cases e
  · cases e
    exact ⟨rfl, _, by assumption⟩

theorem andThen_of_ok {m : HostProgram σ α} {a : α} (e : m h = (.ok a, h')) (k : α → HostProgram σ β) :
    andThen m k h = k a h' := by
  simp [andThen, e]

theorem andThen_of_error {m : HostProgram σ α} {x : HostError} (e : m h = (.error x, h')) (k : α → HostProgram σ β) :
    andThen m k h = (.error x, h') := by
  simp [andThen, e]

theorem reportAs_of_ok {m : HostProgram σ α} {a : α} (e : m h = (.ok a, h')) (x : HostError) :
    reportAs x m h = (.ok a, h') := by
  simp [reportAs, e]

theorem reportAs_of_error {m : HostProgram σ α} {y : HostError} (e : m h = (.error y, h')) (x : HostError) :
    reportAs x m h = (.error x, h') := by
  simp [reportAs, e]

/-! ### The bus -/

/-- An exchange that succeeds returns the bus's answer, as long as the request, and is recorded. -/
theorem exchange_ok {request response : List Byte} (e : exchange bus request h = (.ok response, h')) :
    bus.exchange h.1 request = (some response, h'.1) ∧ response.length = request.length ∧
    h'.2 = h.2 ++ [.exchange request] := by
  unfold exchange at e
  rcases hb : bus.exchange h.1 request with ⟨_ | r, st⟩
  · simp [hb] at e
  · by_cases hl : r.length = request.length
    · simp [hb, hl] at e
      obtain ⟨rfl, rfl⟩ := e
      exact ⟨rfl, hl, rfl⟩
    · simp [hb, hl] at e

/-- An exchange that fails is recorded too, and fails with TransportError. -/
theorem exchange_error {request : List Byte} {x : HostError} (e : exchange bus request h = (.error x, h')) :
    x = .transport ∧ h'.2 = h.2 ++ [.exchange request] := by
  unfold exchange at e
  rcases hb : bus.exchange h.1 request with ⟨_ | r, st⟩
  · simp [hb] at e
    obtain ⟨rfl, rfl⟩ := e
    exact ⟨rfl, rfl⟩
  · by_cases hl : r.length = request.length
    · simp [hb, hl] at e
    · simp [hb, hl] at e
      obtain ⟨rfl, rfl⟩ := e
      exact ⟨rfl, rfl⟩

theorem readRegister_ok {addr : BitVec 7} {b : Byte} (e : readRegister bus addr h = (.ok b, h')) :
    (∃ r, bus.exchange h.1 (readRequest addr) = (some r, h'.1) ∧ r.length = (readRequest addr).length ∧
      r[1]? = some b) ∧
    h'.2 = h.2 ++ [.exchange (readRequest addr)] := by
  obtain ⟨r, h₁, e₁, e₂⟩ := andThen_ok e
  obtain ⟨hb, hl, ha⟩ := exchange_ok e₁
  cases hr : r[1]? with
  | none => simp [hr, failWith] at e₂
  | some c =>
    simp [hr] at e₂
    obtain ⟨rfl, rfl⟩ := give_ok e₂
    exact ⟨⟨r, hb, hl, hr⟩, ha⟩

theorem readRegister_error {addr : BitVec 7} {x : HostError} (e : readRegister bus addr h = (.error x, h')) :
    x = .transport ∧ h'.2 = h.2 ++ [.exchange (readRequest addr)] := by
  rcases andThen_error e with e₁ | ⟨r, h₁, e₁, e₂⟩
  · exact exchange_error e₁
  · obtain ⟨-, -, ha⟩ := exchange_ok e₁
    cases hr : r[1]? with
    | none =>
      simp [hr, failWith] at e₂
      obtain ⟨rfl, rfl⟩ := e₂
      exact ⟨rfl, ha⟩
    | some c => simp [hr, give] at e₂

theorem writeRegister_ok {addr : BitVec 7} {v : Byte} {u : Unit} (e : writeRegister bus addr v h = (.ok u, h')) :
    (∃ r, bus.exchange h.1 (writeRequest addr v) = (some r, h'.1) ∧ r.length = (writeRequest addr v).length) ∧
    h'.2 = h.2 ++ [.exchange (writeRequest addr v)] := by
  obtain ⟨r, h₁, e₁, e₂⟩ := andThen_ok e
  obtain ⟨hb, hl, ha⟩ := exchange_ok e₁
  obtain ⟨-, rfl⟩ := give_ok e₂
  exact ⟨⟨r, hb, hl⟩, ha⟩

theorem writeRegister_error {addr : BitVec 7} {v : Byte} {x : HostError}
    (e : writeRegister bus addr v h = (.error x, h')) :
    x = .transport ∧ h'.2 = h.2 ++ [.exchange (writeRequest addr v)] := by
  rcases andThen_error e with e₁ | ⟨r, h₁, -, e₂⟩
  · exact exchange_error e₁
  · cases e₂

/-- The block read is the answer less its first byte. -/
theorem readBlock_ok {addr : BitVec 7} {n : Nat} {v : Vector Byte n} (e : readBlock bus addr n h = (.ok v, h')) :
    (∃ r, bus.exchange h.1 (blockRequest addr n) = (some r, h'.1) ∧ r.length = (blockRequest addr n).length ∧
      v.toList = r.drop 1) ∧
    h'.2 = h.2 ++ [.exchange (blockRequest addr n)] := by
  obtain ⟨r, h₁, e₁, e₂⟩ := andThen_ok e
  obtain ⟨hb, hl, ha⟩ := exchange_ok e₁
  rcases ht : takeBytes n (r.drop 1) with _ | ⟨w, rest⟩
  · simp only [ht] at e₂
    cases e₂
  · simp only [ht] at e₂
    obtain ⟨rfl, rfl⟩ := give_ok e₂
    have hs := takeBytes_eq_some ht
    have : rest = [] := by
      have hlen := congrArg List.length hs
      simp [blockRequest] at hl hlen
      exact List.eq_nil_of_length_eq_zero (by omega)
    exact ⟨⟨r, hb, hl, by rw [hs, this, List.append_nil]⟩, ha⟩

theorem readBlock_error {addr : BitVec 7} {n : Nat} {x : HostError} (e : readBlock bus addr n h = (.error x, h')) :
    x = .transport ∧ h'.2 = h.2 ++ [.exchange (blockRequest addr n)] := by
  rcases andThen_error e with e₁ | ⟨r, h₁, e₁, e₂⟩
  · exact exchange_error e₁
  · obtain ⟨-, -, ha⟩ := exchange_ok e₁
    rcases ht : takeBytes n (r.drop 1) with _ | ⟨w, rest⟩
    · simp only [ht] at e₂
      cases e₂
      exact ⟨rfl, ha⟩
    · simp only [ht] at e₂
      cases e₂

/-! What an answer, or a failed exchange, makes of each request. -/

section Answered

variable {st st' : σ} {acts : List HostAction} {request response : List Byte} {answer : Option (List Byte)}

theorem exchange_of_answer (hb : bus.exchange st request = (some response, st'))
    (hl : response.length = request.length) :
    exchange bus request (st, acts) = (.ok response, st', acts ++ [.exchange request]) := by
  simp [exchange, hb, hl]

theorem exchange_of_failure (hb : bus.exchange st request = (answer, st'))
    (hl : ∀ response, answer = some response → response.length ≠ request.length) :
    exchange bus request (st, acts) = (.error .transport, st', acts ++ [.exchange request]) := by
  cases answer with
  | none => simp [exchange, hb]
  | some r => simp [exchange, hb, hl r rfl]

theorem readRegister_of_answer {addr : BitVec 7} {b : Byte}
    (hb : bus.exchange st (readRequest addr) = (some response, st'))
    (hl : response.length = (readRequest addr).length) (hr : response[1]? = some b) :
    readRegister bus addr (st, acts) = (.ok b, st', acts ++ [.exchange (readRequest addr)]) := by
  simp only [readRegister, andThen_of_ok (exchange_of_answer hb hl), hr, give]

theorem readRegister_of_failure {addr : BitVec 7} (hb : bus.exchange st (readRequest addr) = (answer, st'))
    (hl : ∀ response, answer = some response → response.length ≠ (readRequest addr).length) :
    readRegister bus addr (st, acts) = (.error .transport, st', acts ++ [.exchange (readRequest addr)]) :=
  andThen_of_error (exchange_of_failure hb hl) _

theorem writeRegister_of_answer {addr : BitVec 7} {v : Byte}
    (hb : bus.exchange st (writeRequest addr v) = (some response, st'))
    (hl : response.length = (writeRequest addr v).length) :
    writeRegister bus addr v (st, acts) = (.ok (), st', acts ++ [.exchange (writeRequest addr v)]) := by
  simp only [writeRegister, andThen_of_ok (exchange_of_answer hb hl), give]

theorem writeRegister_of_failure {addr : BitVec 7} {v : Byte}
    (hb : bus.exchange st (writeRequest addr v) = (answer, st'))
    (hl : ∀ response, answer = some response → response.length ≠ (writeRequest addr v).length) :
    writeRegister bus addr v (st, acts) = (.error .transport, st', acts ++ [.exchange (writeRequest addr v)]) :=
  andThen_of_error (exchange_of_failure hb hl) _

theorem readBlock_of_answer {addr : BitVec 7} {n : Nat} {block : Vector Byte n}
    (hb : bus.exchange st (blockRequest addr n) = (some response, st'))
    (hl : response.length = (blockRequest addr n).length) (hv : block.toList = response.drop 1) :
    readBlock bus addr n (st, acts) = (.ok block, st', acts ++ [.exchange (blockRequest addr n)]) := by
  have ht : takeBytes n (response.drop 1) = some (block, []) := by
    rw [← hv, ← takeBytes_append block [], List.append_nil]
  simp only [readBlock, andThen_of_ok (exchange_of_answer hb hl), ht, give]

theorem readBlock_of_failure {addr : BitVec 7} {n : Nat}
    (hb : bus.exchange st (blockRequest addr n) = (answer, st'))
    (hl : ∀ response, answer = some response → response.length ≠ (blockRequest addr n).length) :
    readBlock bus addr n (st, acts) = (.error .transport, st', acts ++ [.exchange (blockRequest addr n)]) :=
  andThen_of_error (exchange_of_failure hb hl) _

end Answered

/-! ### The engine beside the host -/

/-- A step on presented input takes at least one entry of it. -/
theorem step_consumes {s t : State} (h : step s = .next t) (hs : s.host ≠ []) : t.host.length < s.host.length := by
  have hpos := List.length_pos_iff.mpr hs
  rcases step_cases h with ⟨h0, -⟩ | ⟨rest, h0, rfl⟩ | ⟨-, rfl⟩ | ⟨-, i, hi⟩
  · exact absurd h0 hs
  · simp [State.takeReset, h0]
  · simp [State.takeIllegal]
    omega
  · have hl := frameLength_pos i
    rw [exec_host hi]
    simp
    omega

/-- An idle engine has nothing to drain. -/
theorem drain_of_idle {s : State} (h : s.host = []) (n : Nat) : drain n s = s := by
  induction n with
  | zero => rfl
  | succ n ih => simp [drain, step, fetch, h, ih]

theorem drained_of_idle {s : State} (h : s.host = []) : drained s = s := drain_of_idle h _

/-- What an engine that has a step drains to is what it drains to after it. -/
theorem drain_of_step {s t : State} (h : step s = .next t) (n : Nat) : drain (n + 1) s = drain n t := by
  simp [drain, h]

/-- With as many steps as there is input, the engine ends idle or without a step. -/
theorem drain_idle_or_stuck {n : Nat} {s : State} (h : s.host.length ≤ n) :
    (drain n s).host = [] ∨ ∃ r, step (drain n s) = .refused r := by
  induction n generalizing s with
  | zero => exact .inl (List.eq_nil_of_length_eq_zero (Nat.le_zero.mp h))
  | succ n ih =>
    by_cases hs : s.host = []
    · exact .inl (by rw [drain_of_idle hs, hs])
    · cases ht : step s with
      | next t =>
        rw [drain_of_step ht]
        exact ih (by have := step_consumes ht hs; omega)
      | fault f => cases f
      | refused r => exact .inr ⟨r, by simp [drain, ht]⟩

/-- All a drain can reach: where some number of steps leads. A property every step keeps is kept by it. -/
theorem drain_keeps {P : State → Prop} (hstep : ∀ s t, P s → step s = .next t → P t) {s : State} (h : P s) (n : Nat) :
    P (drain n s) := by
  induction n generalizing s with
  | zero => exact h
  | succ n ih =>
    cases ht : step s with
    | next t =>
      rw [drain_of_step ht]
      exact ih (hstep s t h ht)
    | fault f => cases f
    | refused r => simpa [drain, ht] using h

@[simp] theorem engineAfter_nil (s : State) : engineAfter s [] = some s := rfl
@[simp] theorem engineAfter_exchange (s : State) (r : List Byte) (acts : List HostAction) :
    engineAfter s (.exchange r :: acts) = engineAfter s acts := rfl
@[simp] theorem engineAfter_settle (s : State) (d : Nat) (acts : List HostAction) :
    engineAfter s (.settle d :: acts) = engineAfter s acts := rfl
@[simp] theorem engineAfter_read (s : State) (p : Port) (acts : List HostAction) :
    engineAfter s (.read p :: acts) = engineAfter s acts := rfl
@[simp] theorem engineAfter_issue (s : State) (frame : List Byte) (acts : List HostAction) :
    engineAfter s (.issue frame :: acts) = (execute frame s).bind fun t => engineAfter t acts := rfl

theorem engineAfter_append (s : State) (xs ys : List HostAction) :
    engineAfter s (xs ++ ys) = (engineAfter s xs).bind fun t => engineAfter t ys := by
  induction xs generalizing s with
  | nil => rfl
  | cons x xs ih => cases x <;> simp [ih, Option.bind_assoc]

/-- The engine after an issued frame is where the step on that frame alone leads. -/
theorem execute_of_step {frame : List Byte} {s t : State} (hs : (drained s).host = [])
    (h : step ((drained s).present frame) = .next t) : execute frame s = some t := by
  simp [execute, hs, h]

/-- An engine stuck before the frame has none after it. -/
theorem execute_of_stuck {s : State} (hs : (drained s).host ≠ []) (frame : List Byte) : execute frame s = none := by
  simp [execute, hs]

/-- A port whose register holds a value reads as that register, whatever the host would draw. -/
theorem readPort_of_holdsValue (draw : Draw) {s : State} {p : Port} (h : p.holdsValue s.status = true) :
    readPort draw s p = p.register s := if_pos h

/-- A port whose register holds no value reads as what the host draws. -/
theorem readPort_of_no_value (draw : Draw) {s : State} {p : Port} (h : p.holdsValue s.status = false) :
    readPort draw s p = draw p := by
  simp [readPort, h]

/-- A reading takes each of the three registers where its flag is set, and what the host draws where it is not. -/
theorem reading_eq (draw : Draw) (s : State) :
    reading draw s =
      { tempC := if s.status.tv then s.tempC else draw .tempC
        presHpa := if s.status.pv then s.presHpa else draw .presHpa
        humPct := if s.status.hv then s.humPct else draw .humPct } := rfl

/-- Where all three result flags are set, a reading is the three registers, whatever the host would draw. -/
theorem reading_of_flags {s : State} (draw : Draw)
    (h : s.status.tv = true ∧ s.status.pv = true ∧ s.status.hv = true) :
    reading draw s = { tempC := s.tempC, presHpa := s.presHpa, humPct := s.humPct } := by
  simp [reading_eq, h]

/-- STATUS always reads as its word, so a host's check sees the status itself. -/
@[simp] theorem readPort_status (draw : Draw) (s : State) : readPort draw s .status = s.status.word := rfl

@[simp] theorem passes_flags (st : Status) :
    ResultCheck.flags.passes st.word = (st.tv && st.pv && st.hv) := by
  obtain ⟨_ | _, _ | _, _ | _, _ | _, _ | _, _ | _, _ | _, _⟩ := st <;> cases ‹ErrCode› <;> rfl

@[simp] theorem passes_outcome (st : Status) : ResultCheck.outcome.passes st.word = decide (st.err = .ok) := by
  obtain ⟨_ | _, _ | _, _ | _, _ | _, _ | _, _ | _, _ | _, _⟩ := st <;> cases ‹ErrCode› <;> rfl

/-- Under the check of the flags, all that is taken is the three registers with their flags set. -/
theorem checkedReading_flags_eq (draw : Draw) (s : State) :
    checkedReading .flags draw s =
      if s.status.tv && s.status.pv && s.status.hv then
        some { tempC := s.tempC, presHpa := s.presHpa, humPct := s.humPct }
      else none := by
  unfold checkedReading
  rw [readPort_status, passes_flags]
  split
  · rename_i h
    simp only [Bool.and_eq_true] at h
    rw [reading_of_flags draw ⟨h.1.1, h.1.2, h.2⟩]
  · rfl

/-- Under the check of ERR, a reading is taken exactly after a command that succeeded. -/
theorem checkedReading_outcome_eq (draw : Draw) (s : State) :
    checkedReading .outcome draw s = if s.status.err = .ok then some (reading draw s) else none := by
  simp [checkedReading]

end Sys2Proof.Boundary
end

