-- ==== Sys2Proof/Laws/Convert.lean ====
section
/-!
SUPPORT. Laws/Convert.lean: everything the rounding operations of Machine/Convert.lean can do: what they round to, and
that the quotient alone decides it.
-/
namespace Sys2Proof.Machine

open Sys2Proof

/-- `roundHalfEven` is within one half of the quotient (R11). -/
theorem roundHalfEven_near (num : Nat) {den : Nat} (hd : 0 < den) :
    2 * (roundHalfEven num den * den) ≤ 2 * num + den ∧ 2 * num ≤ 2 * (roundHalfEven num den * den) + den := by
  unfold roundHalfEven
  have h1 := Nat.div_add_mod num den
  have h2 := Nat.mod_lt num hd
  generalize num / den = q at *
  generalize num % den = r at *
  have e : q * den = den * q := Nat.mul_comm _ _
  have e1 : (q+1) * den = den * q + den := by ring
  simp only
  split
  · rw [e]; omega
  · split
    · rw [e1]; omega
    · have : q % 2 = 0 ∨ q % 2 = 1 := by omega
      rcases this with h | h <;> rw [h]
      · rw [Nat.add_zero, e]; omega
      · rw [e1]; omega

/-- On a tie `roundHalfEven` is even (R11). -/
theorem roundHalfEven_tie (num : Nat) {den : Nat} (hd : 0 < den)
    (h : 2 * (roundHalfEven num den * den) = 2 * num + den ∨ 2 * num = 2 * (roundHalfEven num den * den) + den) :
    roundHalfEven num den % 2 = 0 := by
  unfold roundHalfEven at *
  have h1 := Nat.div_add_mod num den
  have h2 := Nat.mod_lt num hd
  generalize num / den = q at *
  generalize num % den = r at *
  have e : q * den = den * q := Nat.mul_comm _ _
  have e1 : (q+1) * den = den * q + den := by ring
  simp only at *
  split at h
  · rw [e] at h; omega
  · split at h
    · rw [e1] at h; omega
    · rename_i h3 h4
      rw [if_neg h3, if_neg h4]; omega

/-- `roundHalfEven` depends on the quotient alone. -/
theorem roundHalfEven_scale (c : Nat) (hc : 0 < c) (num den : Nat) :
    roundHalfEven (c * num) (c * den) = roundHalfEven num den := by
  unfold roundHalfEven
  rw [Nat.mul_div_mul_left _ _ hc, Nat.mul_mod_mul_left]
  simp only
  have : 2 * (c * (num % den)) = c * (2 * (num % den)) := by ring
  simp only [this, Nat.mul_lt_mul_left hc]

/-- `floorLog2` is the exponent of the quotient's leading bit. -/
theorem floorLog2_spec {num den : Nat} (hn : 0 < num) (hd : 0 < den) :
    (2 : ℚ) ^ floorLog2 num den ≤ (num : ℚ) / den ∧ (num : ℚ) / den < 2 ^ (floorLog2 num den + 1) := by
  have a1 := Nat.log2_self_le (n := num) (by omega)
  have a2 := Nat.lt_log2_self (n := num)
  have b1 := Nat.log2_self_le (n := den) (by omega)
  have b2 := Nat.lt_log2_self (n := den)
  have hdq : (0 : ℚ) < den := by exact_mod_cast hd
  have key : ∀ e : Int, num * 2 ^ (-e).toNat < den * 2 ^ e.toNat ↔ (num : ℚ) / den < 2 ^ e := by
    intro e
    rw [div_lt_iff₀ hdq]
    have : (2:ℚ)^e = 2 ^ e.toNat / 2 ^ (-e).toNat := by
      rw [← zpow_natCast, ← zpow_natCast, ← zpow_sub₀ (by norm_num)]; congr 1; omega
    rw [this, div_mul_eq_mul_div, lt_div_iff₀ (by positivity)]
    rw [mul_comm ((2:ℚ)^_) (den:ℚ)]
    exact_mod_cast Iff.rfl
  have hlo : (2:ℚ) ^ ((num.log2 : Int) - den.log2 - 1) ≤ (num : ℚ) / den := by
    rw [le_div_iff₀ hdq]
    have : (den : ℚ) ≤ 2 ^ ((den.log2 : Int) + 1) := by exact_mod_cast b2.le
    calc _ ≤ (2:ℚ) ^ ((num.log2 : Int) - den.log2 - 1) * 2 ^ ((den.log2 : Int) + 1) := by gcongr
      _ = 2 ^ (num.log2 : Int) := by rw [← zpow_add₀ (by norm_num)]; congr 1; ring
      _ ≤ num := by exact_mod_cast a1
  have hhi : (num : ℚ) / den < 2 ^ ((num.log2 : Int) - den.log2 + 1) := by
    rw [div_lt_iff₀ hdq]
    have : (2:ℚ) ^ (den.log2 : Int) ≤ den := by exact_mod_cast b1
    calc (num : ℚ) < 2 ^ ((num.log2 : Int) + 1) := by exact_mod_cast a2
      _ = (2:ℚ) ^ ((num.log2 : Int) - den.log2 + 1) * 2 ^ (den.log2 : Int) := by rw [← zpow_add₀ (by norm_num)]; congr 1; ring
      _ ≤ _ := by gcongr
  unfold floorLog2
  simp only
  split
  · rename_i h
    exact ⟨hlo, by rw [sub_add_cancel]; exact (key _).1 h⟩
  · rename_i h
    exact ⟨not_lt.1 (fun h' => h ((key _).2 h')), hhi⟩

/-- Nothing else is. -/
theorem floorLog2_unique {num den : Nat} (hn : 0 < num) (hd : 0 < den) {e : Int}
    (h1 : (2:ℚ) ^ e ≤ (num : ℚ) / den) (h2 : (num : ℚ) / den < 2 ^ (e + 1)) : floorLog2 num den = e := by
  obtain ⟨h3, h4⟩ := floorLog2_spec hn hd
  have x := (zpow_lt_zpow_iff_right₀ (by norm_num : (1:ℚ) < 2)).1 (h1.trans_lt h4)
  have y := (zpow_lt_zpow_iff_right₀ (by norm_num : (1:ℚ) < 2)).1 (h3.trans_lt h2)
  omega

/-- A factor common to both sides of the quotient changes no bit of the magnitude. -/
theorem fl32Magnitude_scale (c : Nat) (hc : 0 < c) (num : Nat) {den : Nat} (hd : 0 < den) :
    fl32Magnitude (c * num) (c * den) = fl32Magnitude num den := by
  unfold fl32Magnitude
  by_cases h : num = 0
  · simp [h]
  · have hn : 0 < num := by omega
    have : floorLog2 (c * num) (c * den) = floorLog2 num den := by
      apply floorLog2_unique (by positivity) (by positivity)
      · have := (floorLog2_spec hn hd).1
        push_cast
        rwa [mul_div_mul_left _ _ (by positivity)]
      · have := (floorLog2_spec hn hd).2
        push_cast
        rwa [mul_div_mul_left _ _ (by positivity)]
    have hk : ulpExponent (c * num) (c * den) = ulpExponent num den := by unfold ulpExponent; rw [this]
    rw [if_neg (by positivity), if_neg h, hk]
    simp only [Nat.mul_assoc, roundHalfEven_scale c hc]

/-- A factor common to both sides of the quotient changes no bit of the result. -/
theorem fl32_scale (c : Nat) (hc : 0 < c) (num : Int) {den : Nat} (hd : 0 < den) :
    fl32 (c * num) (c * den) = fl32 num den := by
  unfold fl32
  rw [Int.natAbs_mul, Int.natAbs_natCast, fl32Magnitude_scale c hc _ hd]
  congr 2
  simp only [decide_eq_decide]
  constructor
  · intro h; by_contra h'; rw [not_lt] at h'; have : 0 ≤ (c:Int) * num := by positivity
    omega
  · intro h; exact mul_neg_of_pos_of_neg (by exact_mod_cast hc) h

/-- `fl32` depends on the quotient alone. -/
theorem fl32_eq_of_cross {n1 n2 : Int} {d1 d2 : Nat} (h1 : 0 < d1) (h2 : 0 < d2) (h : n1 * d2 = n2 * d1) :
    fl32 n1 d1 = fl32 n2 d2 := by
  rw [← fl32_scale d2 h2 n1 h1, ← fl32_scale d1 h1 n2 h2, Nat.mul_comm d2 d1]
  congr 1
  rw [mul_comm, h, mul_comm]

/-- Below 2^127 the magnitude bits are those of a significand `m` and an exponent `k`: `m * 2^k` is within half a unit
in the last place of the quotient, and `m` is even on a tie. -/
theorem fl32Magnitude_eq {num den : Nat} (hn : 0 < num) (hd : 0 < den) (hb : num < 2 ^ 127 * den) :
    ∃ (m : Nat) (k : Int), -149 ≤ k ∧ k ≤ 103 ∧ fl32Magnitude num den = (k + 149).toNat * 2 ^ 23 + m ∧
      m ≤ 2 ^ 24 ∧ (-149 < k → 2 ^ 23 ≤ m ∧ (2:ℚ) ^ (k + 23) ≤ (num : ℚ) / den) ∧
      |(num : ℚ) / den / 2 ^ k - m| ≤ 1 / 2 ∧ (|(num : ℚ) / den / 2 ^ k - m| = 1 / 2 → m % 2 = 0) := by
  have hdq : (0 : ℚ) < den := by exact_mod_cast hd
  obtain ⟨e1, e2⟩ := floorLog2_spec hn hd
  set e := floorLog2 num den with he
  have hk : ulpExponent num den = max e (-126) - 23 := rfl
  have hee : e ≤ 126 := by
    have : (num : ℚ) / den < 2 ^ (127 : Int) := by
      rw [div_lt_iff₀ hdq]; exact_mod_cast hb
    have := (zpow_lt_zpow_iff_right₀ (by norm_num : (1:ℚ) < 2)).1 (e1.trans_lt this)
    omega
  set k := ulpExponent num den with hkd
  set N := num * 2 ^ (-k).toNat with hN
  set D := den * 2 ^ k.toNat with hD
  have hDpos : 0 < D := by positivity
  have hDq : (0:ℚ) < D := by exact_mod_cast hDpos
  have hq : (num : ℚ) / den / 2 ^ k = (N : ℚ) / D := by
    have : (2:ℚ)^k = 2 ^ k.toNat / 2 ^ (-k).toNat := by
      rw [← zpow_natCast, ← zpow_natCast, ← zpow_sub₀ (by norm_num)]; congr 1; omega
    rw [this, hN, hD]; push_cast; field_simp
  set m := roundHalfEven N D with hm
  obtain ⟨n1, n2⟩ := roundHalfEven_near N hDpos
  have nt := roundHalfEven_tie N hDpos
  rw [← hm] at n1 n2 nt
  have n1' : 2 * ((m:ℚ) * D) ≤ 2 * N + D := by exact_mod_cast n1
  have n2' : 2 * (N:ℚ) ≤ 2 * (m * D) + D := by exact_mod_cast n2
  have hval : (N:ℚ) = (N:ℚ) / D * D := by field_simp
  have c1 : (m:ℚ) ≤ (N:ℚ)/D + 1/2 := by
    have : (m:ℚ) * D ≤ ((N:ℚ)/D + 1/2) * D := by rw [add_mul, ← hval]; linarith
    exact le_of_mul_le_mul_right this hDq
  have c2 : (N:ℚ)/D ≤ m + 1/2 := by
    have : (N:ℚ)/D * D ≤ (m + 1/2) * D := by rw [← hval, add_mul]; linarith
    exact le_of_mul_le_mul_right this hDq
  have p2 : (0:ℚ) < 2 ^ k := by positivity
  have up : (N:ℚ)/D < 2 ^ 24 := by
    rw [← hq, div_lt_iff₀ p2]
    calc _ < (2:ℚ) ^ (e + 1) := e2
      _ ≤ 2 ^ ((24:Int) + k) := zpow_le_zpow_right₀ (by norm_num) (by omega)
      _ = _ := by rw [zpow_add₀ (by norm_num)]; norm_num
  have mup : m ≤ 2 ^ 24 := by
    have : (m:ℚ) < 2^24 + 1 := by linarith
    have : m < 2^24 + 1 := by exact_mod_cast this
    omega
  refine ⟨m, k, by omega, by omega, ?_, mup, ?_, ?_, ?_⟩
  · unfold fl32Magnitude
    rw [if_neg (by omega)]
    show min ((k + 149).toNat * 2 ^ 23 + m) infinityPattern = _
    apply Nat.min_eq_left
    unfold infinityPattern
    have h252 : (k + 149).toNat ≤ 252 := by omega
    calc (k + 149).toNat * 2 ^ 23 + m ≤ 252 * 2 ^ 23 + 2 ^ 24 := Nat.add_le_add (Nat.mul_le_mul_right _ h252) mup
      _ ≤ _ := by norm_num
  · intro hk2
    have hek : k + 23 = e := by omega
    refine ⟨?_, by rw [hek]; exact e1⟩
    have lo : (2:ℚ) ^ 23 ≤ (N:ℚ)/D := by
      rw [← hq, le_div_iff₀ p2]
      calc (2:ℚ)^23 * 2 ^ k = 2 ^ e := by rw [← hek, zpow_add₀ (by norm_num)]; norm_num; ring
        _ ≤ _ := e1
    have : (2:ℚ)^23 < m + 1 := by linarith
    have : 2^23 < m + 1 := by exact_mod_cast this
    omega
  · rw [hq, abs_le]; constructor <;> linarith
  · rw [hq]; intro h
    apply nt
    rcases abs_eq (by norm_num : (0:ℚ) ≤ 1/2) |>.1 h with h | h
    · right
      have : 2 * (N:ℚ) = 2 * (m * D) + D := by rw [hval, show (N:ℚ)/D = m + 1/2 by linarith]; ring
      exact_mod_cast this
    · left
      have : 2 * ((m:ℚ) * D) = 2 * N + D := by rw [hval, show (N:ℚ)/D = m - 1/2 by linarith]; ring
      exact_mod_cast this

/-! ### Reading a pattern back, and dividing it -/

theorem denominatorOf_pos (f : Binary32) : 0 < denominatorOf f := by
  unfold denominatorOf
  positivity

/-- Dividing a finite pattern whose value is `num / den` is one rounding of `num / (den * d)`. -/
theorem divide32_eq_fl32 {f : Binary32} {num : Int} {den d : Nat} (hden : 0 < den) (hd : 0 < d)
    (h : numeratorOf f * den = num * denominatorOf f) : divide32 f d = fl32 num (den * d) := by
  unfold divide32
  apply fl32_eq_of_cross (Nat.mul_pos (denominatorOf_pos f) hd) (Nat.mul_pos hden hd)
  push_cast
  linear_combination (d : Int) * h

end Sys2Proof.Machine
end

