-- ==== Sys2Proof/Laws/Operands.lean ====
section
/-!
SUPPORT. Laws/Operands.lean: the operand forms and the arithmetic of R9 to R11 read as numbers.
-/
namespace Sys2Proof.Machine

open Sys2Proof

/-- `>>` on a signed value is the division by a power of two that rounds toward minus infinity (R10). -/
theorem asr_toInt {n : Nat} (v : BitVec n) (k : Nat) : (asr v k).toInt = v.toInt / 2 ^ k := by
  unfold asr
  rw [BitVec.toInt_sshiftRight, Int.shiftRight_eq_div_pow]
  norm_cast

/-- `<<` at width `n` is multiplication by a power of two, wrapped (R10). -/
theorem shiftLeft_toInt {n : Nat} (v : BitVec n) (k : Nat) : (v <<< k).toInt = (v.toInt * 2 ^ k).bmod (2 ^ n) := by
  rw [BitVec.toInt_shiftLeft, Nat.shiftLeft_eq, BitVec.toInt_eq_toNat_bmod, Int.bmod_mul_bmod]
  push_cast
  rfl

/-- An unsigned register keeps its value in a wider signed operation (R131). -/
theorem zext_toInt {n w : Nat} (v : BitVec n) (h : n < w) : (zext w v).toInt = v.toNat := by
  unfold zext
  rw [BitVec.toInt_setWidth, Int.bmod_eq_of_le]
  · have := Nat.zero_le (2 ^ w); omega
  · have h1 : 2 ^ (n + 1) ≤ 2 ^ w := Nat.pow_le_pow_right (by omega) h
    have h2 := v.isLt
    rw [Nat.pow_succ] at h1
    omega

/-- A signed register keeps its value in a wider signed operation (R131). -/
theorem sext_toInt {n w : Nat} (v : BitVec n) (h : n ≤ w) : (sext w v).toInt = v.toInt :=
  BitVec.toInt_signExtend_of_le h

/-- A concatenation as a number, its left part high (R8). -/
theorem append_toNat {m n : Nat} (x : BitVec m) (y : BitVec n) : (x ++ y).toNat = x.toNat * 2 ^ n + y.toNat := by
  rw [BitVec.toNat_append, ← Nat.shiftLeft_add_eq_or_of_lt y.isLt, Nat.shiftLeft_eq]

/-- A little-endian word as a number (R53). -/
theorem le16_toNat (lo hi : Byte) : (le16 lo hi).toNat = 256 * hi.toNat + lo.toNat := by
  unfold le16
  rw [append_toNat]
  omega

/-- A 20-bit raw code as a number (R122, R123). -/
theorem code20_toNat (b0 b1 b2 : Byte) :
    (code20 b0 b1 b2).toNat = b0.toNat * 2 ^ 12 + b1.toNat * 2 ^ 4 + b2.toNat / 2 ^ 4 := by
  unfold code20
  rw [append_toNat, append_toNat, BitVec.extractLsb'_toNat, Nat.shiftRight_eq_div_pow]
  have := b2.isLt
  omega

/-- A 16-bit raw code as a number (R124). -/
theorem code16_toNat (b0 b1 : Byte) : (code16 b0 b1).toNat = b0.toNat * 2 ^ 8 + b1.toNat := by
  unfold code16
  rw [append_toNat]

/-- `clamp` read as integers (R11). -/
theorem clamp_toInt {n : Nat} (v lo hi : BitVec n) :
    (clamp v lo hi).toInt = if v.toInt < lo.toInt then lo.toInt else if hi.toInt < v.toInt then hi.toInt else v.toInt := by
  unfold clamp
  simp only [BitVec.slt_iff_toInt_lt]
  split
  · rfl
  · split <;> rfl

end Sys2Proof.Machine
end

