-- ==== Sys2Proof/Laws/PerInstr.lean ====
section
/-!
SUPPORT. Laws/PerInstr.lean: statements for all instructions, one lemma per constructor of `Instr`.
-/

/-- The bytes of an instruction are one whole frame (spec/30_encoding.md R70, R72, R73). -/
def Sys2Proof.Laws.FrameWellFormed.Statement (i : Sys2Proof.Instr) : Prop :=
  Sys2Proof.wellFormedFrame (Sys2Proof.encode i) = true

namespace Sys2Proof.Laws.FrameWellFormed

open Sys2Proof

theorem nop : Statement .nop := rfl
theorem calLoad (a : Vector Byte 26) (b : Vector Byte 7) : Statement (.calLoad a b) := by
  simp [Statement, wellFormedFrame, opcodeRow_calLoad]
theorem rawLoad (v : Vector Byte 8) : Statement (.rawLoad v) := by
  simp [Statement, wellFormedFrame, opcodeRow_rawLoad]
theorem compT : Statement .compT := rfl
theorem compP : Statement .compP := rfl
theorem compH : Statement .compH := rfl
theorem measure (v : Vector Byte 8) : Statement (.measure v) := by
  simp [Statement, wellFormedFrame, opcodeRow_measure]

end Sys2Proof.Laws.FrameWellFormed
end

