-- ==== Sys2Proof/Tests/Slice0.lean ====
section
/-!
SUPPORT. Tests/Slice0.lean: the model against spec/95_test_vectors.md (the row is named at each test), the ill-formed
frames that `wellFormedFrame` refuses, and a witness for each statement that has hypotheses.

No expected value comes from the model: each is a row of that file, or written out from the rule named.
-/
namespace Sys2Proof.Tests

open Sys2Proof Sys2Proof.Machine Sys2Proof.Safety Sys2Proof.Reference

/-! ### Inputs: section 0 of the vectors -/

def blockA : Vector Byte 26 :=
  #v[0x70, 0x6B, 0x43, 0x67, 0x18, 0xFC, 0x7D, 0x8E, 0x43, 0xD6, 0xD0, 0x0B, 0x27, 0x0B, 0x8C, 0x00, 0xF9, 0xFF,
     0x8C, 0x3C, 0xF8, 0xC6, 0x70, 0x17, 0x00, 0x4B]

def blockB : Vector Byte 7 := #v[0x6A, 0x01, 0x00, 0x14, 0x24, 0x03, 0x1E]

def burst : Vector Byte 8 := #v[0x65, 0x5A, 0xC0, 0x7E, 0xED, 0x00, 0x75, 0x30]

def exampleCal : Calibration :=
  { digT1 := 27504, digT2 := 26435, digT3 := -1000
    digP1 := 36477, digP2 := -10685, digP3 := 3024, digP4 := 2855, digP5 := 140, digP6 := -7, digP7 := 15500
    digP8 := -14600, digP9 := 6000
    digH1 := 75, digH2 := 362, digH3 := 0, digH4 := 324, digH5 := 50, digH6 := 30 }

/-- The extreme humidity coefficients of row H12. -/
def extremeCal : Calibration :=
  { exampleCal with digH1 := 255, digH2 := 32767, digH3 := 255, digH4 := -2048, digH5 := 2047, digH6 := 127 }

/-- Calibration loaded. -/
def calibrated : State :=
  { State.reset with cal := exampleCal, status := { Status.zero with calv := true } }

/-- Calibration and a raw sample loaded. -/
def sampled : State :=
  { calibrated with raw := { adcP := 415148, adcT := 519888, adcH := 30000 }
                    status := { Status.zero with calv := true, rawv := true } }

/-- Calibration, a raw sample and the fine temperature of row T1. -/
def withFine : State :=
  { sampled with tfine := 128422, tOut := 2508, tempC := 0x41C8A3D7
                 status := { Status.zero with calv := true, rawv := true, tfv := true, tv := true } }

/-- One draw of many. -/
def zeroDraw : Draw := fun _ => 0

/-- What `f` reads of a next state. -/
def got {α : Type} (o : Host.Outcome State Fault Refusal) (f : State → α) : Option α :=
  match o with
  | .next s    => some (f s)
  | .fault _   => none
  | .refused _ => none

/-! ### Frames -/

theorem test_no_bytes_is_no_frame : wellFormedFrame [] = false := by decide
theorem test_illegal_opcode_is_no_frame : wellFormedFrame [0x03] = false := by decide
theorem test_short_burst_is_no_frame : wellFormedFrame (0x02 :: List.replicate 7 0) = false := by decide
theorem test_long_calibration_is_no_frame : wellFormedFrame (0x01 :: List.replicate 34 0) = false := by decide
theorem test_operand_after_nop_is_no_frame : wellFormedFrame [0x00, 0x00] = false := by decide

/-- R73: opcode 0x00, format F0. -/
theorem test_decode_nop : decode [0x00#8] = .instr .nop [] := by decide
/-- R73, R78, R79: opcode 0x01, blocks A and B; the word is the vectors' `CAL`, its first byte lowest. -/
theorem test_decode_calLoad :
    decodeTableWord 272 0x1E03241400016A4B001770C6F83C8CFFF9008C0B270BD0D6438E7DFC1867436B7001
      = some (.calLoad blockA blockB) := by decide
/-- R73, R80: opcode 0x02 and a burst. -/
theorem test_decode_rawLoad :
    decode [0x02, 0x65, 0x5A, 0xC0, 0x7E, 0xED, 0x00, 0x75, 0x30, 0x11] = .instr (.rawLoad burst) [0x11] := by decide
/-- R73: opcodes 0x10, 0x11, 0x12. -/
theorem test_decode_comp :
    decode [0x10, 0x11] = .instr .compT [0x11] ∧ decode [0x11] = .instr .compP [] ∧
    decode [0x12] = .instr .compH [] := by decide
/-- R73, R80: opcode 0x20 and a burst. -/
theorem test_decode_measure : decodeTableWord 72 0x307500ED7EC05A6520 = some (.measure burst) := by decide
/-- R72, R82: a RAW_LOAD of 8 bytes is incomplete. -/
theorem test_decode_short :
    decode [0x02, 0x65, 0x5A, 0xC0, 0x7E, 0xED, 0x00, 0x75] = .rejected .incompleteFrame := by decide

/-! ### Commands -/

/-- Row E1. -/
theorem test_nop_clears_err :
    got (exec .nop { State.reset with status := { Status.zero with err := .noTfine, estky := true } })
      (fun s => (s.status.word, s.fi)) = some (0x0080#16, 1) := by decide

/-- Rows K1 and K2. -/
theorem test_calLoad_example :
    got (exec (.calLoad blockA blockB) State.reset) (fun s => (s.cal, s.status.word)) = some (exampleCal, 0x0001#16) := by
  decide

/-- Row K4. -/
theorem test_calLoad_packed :
    got (exec (.calLoad blockA #v[0x00, 0x00, 0x00, 0x80, 0xF0, 0x7F, 0x80]) State.reset)
      (fun s => (s.cal.digH4.toInt, s.cal.digH5.toInt, s.cal.digH6.toInt)) = some (-2048, 2047, -128) := by decide

/-- Row W2r. -/
theorem test_rawLoad_low_nibbles :
    got (exec (.rawLoad #v[0x65, 0x5A, 0xCF, 0x7E, 0xED, 0x0F, 0x75, 0x30]) calibrated)
      (fun s => (s.raw.adcP.toNat, s.raw.adcT.toNat, s.raw.adcH.toNat)) = some (415148, 519888, 30000) := by decide

/-- Row W7r. -/
theorem test_rawLoad_starts_a_cycle :
    got (exec (.rawLoad burst) { withFine with status := { withFine.status with pv := true, hv := true } })
      (fun s => s.status.word) = some 0x0003#16 := by decide

/-- Row T1. -/
theorem test_compT_example :
    got (exec .compT sampled) (fun s => (s.tfine, s.tOut, s.tempC, s.status.word))
      = some (128422, 2508, 0x41C8A3D7, 0x000F#16) := by decide +kernel

/-- Row T7: the intermediates wrap at 32 bits. -/
theorem test_compT_wraps :
    got (exec .compT { sampled with raw := { sampled.raw with adcT := 0xFFFFF }
                                    cal := { exampleCal with digT1 := 0, digT2 := 32767, digT3 := 32767 } })
      (fun s => (s.tfine, s.tOut, s.tempC)) = some (-144, -3, 0xBCF5C28F) := by decide +kernel

/-- Row T8: the same at TEMP_WIDTH = 64. -/
theorem test_compT_width64 :
    got (compTWith { Config.hardware with tempWidth := .w64 }
        { sampled with raw := { sampled.raw with adcT := 0xFFFFF }
                       cal := { exampleCal with digT1 := 0, digT2 := 32767, digT3 := 32767 } })
      (fun s => (s.tfine, s.tOut, s.tempC)) = some (4194096, 81916, 0x444CCA3D) := by decide +kernel

/-- Row P1. -/
theorem test_compP_example :
    got (exec .compP withFine) (fun s => (s.pOut, s.presHpa, s.status.word))
      = some (25767233, 0x447BA215, 0x001F#16) := by decide +kernel

/-- Row P4: a negative 64-bit result, its low 32 bits kept. -/
theorem test_compP_truncates :
    got (exec .compP { withFine with raw := { withFine.raw with adcP := 0xFFFFF } }) (fun s => (s.pOut, s.presHpa))
      = some (4293269792, 0x4823C676) := by decide +kernel

/-- Row H1. -/
theorem test_compH_example :
    got (exec .compH withFine) (fun s => (s.hOut, s.humPct, s.status.word))
      = some (52306, 0x424C5200, 0x002F#16) := by decide +kernel

/-- Row H12: the intermediates wrap at 32 bits. -/
theorem test_compH_wraps :
    Machine.humUnclamped 32 65535 0x7FFFFFFF extremeCal = -575619157 ∧ Machine.humidity 32 65535 0x7FFFFFFF extremeCal = 0 := by
  decide +kernel

/-- Row H13: the same at HUM_WIDTH = 64. -/
theorem test_compH_width64 :
    Machine.humUnclamped 64 65535 0x7FFFFFFF extremeCal = 4430995436954468435 ∧
    Machine.humidity 64 65535 0x7FFFFFFF extremeCal = 102400 := by decide +kernel

/-- Program 1, after its second frame. -/
theorem test_measure_example :
    got (exec (.measure burst) calibrated)
      (fun s => (s.status.word, s.tfine, s.tOut, s.pOut, s.hOut, s.tempC, s.presHpa, s.humPct))
      = some (0x003F#16, 128422, 2508, 25767233, 52306, 0x41C8A3D7, 0x447BA215, 0x424C5200) := by decide +kernel

/-- Program 4: the sentinel inside MEASURE. -/
theorem test_measure_sentinel :
    got (exec (.measure burst) { calibrated with cal := { exampleCal with digP1 := 0 } })
      (fun s => (s.status.word, s.pOut, s.presHpa, s.hOut)) = some (0x003F#16, 0, 0, 52306) := by decide +kernel

/-! ### Steps -/

/-- Row E2. -/
theorem test_illegal_step :
    got (step { State.reset with host := [.byte 0x13] }) (fun s => (s.status.word, s.fi, s.host))
      = some (0x0180#16, 1, []) := by decide

/-- Row E7. -/
theorem test_incomplete_step :
    step { calibrated with host := [.byte 0x02, .byte 0x65, .byte 0x5A] } = .refused .incompleteFrame := rfl

/-- Row E6, from a frame the host presents with an opcode-table word. -/
theorem test_withFetchWord :
    got (step (State.reset.withFetchWord 72 0x307500ED7EC05A6520)) (fun s => (s.status.word, s.fi, s.host))
      = some (0x0280#16, 1, []) := by decide

/-- R37, R38: a port reads as its register, and one with its flag clear as whatever the host draws. -/
theorem test_read_port (draw : Draw) :
    readPort draw withFine .tOut = 2508 ∧ readPort draw withFine .pOut = draw .pOut := ⟨rfl, rfl⟩

/-! ### Conversion -/

/-- Row F4. -/
theorem test_cvtT_modes :
    cvtT .single 50331651 = 0x48F5C290 ∧ cvtT .staged 50331651 = 0x48F5C291 := by decide +kernel

/-- Row F5. -/
theorem test_cvtP_modes :
    cvtP .single 25767233 = 0x447BA215 ∧ cvtP .staged 25767233 = 0x447BA214 := by decide +kernel

/-- Row F8. -/
theorem test_cvtH_exact :
    cvtH .single 52306 = 0x424C5200 ∧ cvtH .single 102400 = 0x42C80000 ∧ cvtH .staged 52306 = 0x424C5200 := by
  decide +kernel

/-! ### The host-side boundary and the assembler -/

/-- Rows B1, B2 and B3. -/
theorem test_requests :
    Boundary.readRequest 0x50 = [0xD0, 0x00] ∧ Boundary.writeRequest 0x74 0x27 = [0x74, 0x27] ∧
    Boundary.blockRequest 0x77 8 = [0xF7, 0, 0, 0, 0, 0, 0, 0, 0] := by decide

/-- Row W1; 1700000000.5 is the binary64 pattern 0x41D954FC40200000. -/
theorem test_payload :
    Boundary.encodePayload 0x41D954FC40200000 { tempC := 0x41C8A3D7, presHpa := 0x447BA215, humPct := 0x424C5200 }
      = [0x41, 0xD9, 0x54, 0xFC, 0x40, 0x20, 0x00, 0x00, 0x41, 0xC8, 0xA3, 0xD7, 0x44, 0x7B, 0xA2, 0x15,
         0x42, 0x4C, 0x52, 0x00] := by decide

/-- Row W3. -/
theorem test_payload_length :
    Boundary.decodePayload [] = .invalid ∧ Boundary.decodePayload (List.replicate 19 0) = .invalid ∧
    Boundary.decodePayload (List.replicate 21 0) = .invalid := by decide

/-- R83, R84: lines of programs 1, 3 and 5. -/
theorem test_assembler :
    Assembler.parseLine "COMP_P                        ; before COMP_T: ERR_NO_TFINE".toList = some (.instr .compP) ∧
    Assembler.parseLine ".byte 0x7E".toList = some (.rawByte 0x7E) ∧
    Assembler.parseLine "CYCLE 65 5A C0 7E ED 00 75 30".toList = some (.cycle burst) ∧
    Assembler.parseLine "MEASURE 65 5A C0".toList = none ∧
    Assembler.assembleLine (.cycle burst) = [0x02, 0x65, 0x5A, 0xC0, 0x7E, 0xED, 0x00, 0x75, 0x30, 0x10, 0x11, 0x12] := by
  decide

/-- R83: the CAL_LOAD line of program 1. -/
theorem test_assembler_calLoad :
    Assembler.parseLine ("CAL_LOAD A=70 6B 43 67 18 FC 7D 8E 43 D6 D0 0B 27 0B 8C 00 F9 FF 8C 3C F8 C6 70 17 00 4B "
      ++ "B=6A 01 00 14 24 03 1E").toList = some (.instr (.calLoad blockA blockB)) := by decide

/-! ### Witnesses: for each statement with hypotheses, a state and operands that meet them, clause by clause -/

/-- The host presents `bs` in front of nothing else. -/
def presenting (s : State) (bs : List Byte) : State := { s with host := bs.map HostInput.byte }

/-- All commands done: every port holds a value. -/
def finished : State :=
  { withFine with pOut := 25767233, presHpa := 0x447BA215, hOut := 52306, humPct := 0x424C5200
                  status := { withFine.status with pv := true, hv := true } }

theorem witness_ResetInputClearsTheEngine :
    ({ finished with host := [.reset, .byte 0x00] } : State).host = .reset :: [.byte 0x00] := rfl

theorem witness_StepRunsTheDecodedCommand :
    decode (frameBytes (presenting calibrated (0x20 :: burst.toList)).host) = .instr (.measure burst) [] := by decide

/-- STATUS and a coefficient, with calibration loaded and without. -/
theorem witness_PortsAnswerUnderTheirFlags :
    readPort zeroDraw calibrated .digT1 = 27504 ∧ readPort zeroDraw State.reset .digT1 = zeroDraw .digT1 ∧
    readPort zeroDraw State.reset .status = 0 := by decide

theorem witness_PresentedFrameIsExecuted :
    (presenting State.reset [0x10, 0x11]).host = (encode .compT).map HostInput.byte ++ [.byte 0x11] := rfl

theorem witness_IllegalOpcodeRaisesIllegal :
    (IllegalRange 0x03 ∧ IllegalRange 0x0F ∧ IllegalRange 0x13 ∧ IllegalRange 0x1F ∧ IllegalRange 0x21 ∧
      IllegalRange 0xFF) ∧ (presenting State.reset [0x03]).host = [.byte 0x03] := by
  unfold IllegalRange
  decide

theorem witness_IncompleteFrameHasNoStep :
    (presenting State.reset [0x02]).host = ((encode (.rawLoad burst)).take 1).map HostInput.byte ∧
    (presenting State.reset (0x01 :: List.replicate 32 0)).host
      = ((encode (.calLoad (.replicate 26 0) (.replicate 7 0))).take 33).map HostInput.byte := by decide

theorem witness_IdleEngineHoldsItsState : finished.host = [] := rfl

theorem witness_ContendingFrameHasNoStep : ({ finished with host := [.contend] } : State).host = [.contend] := rfl

theorem witness_OnlyBrokenSchedulesAreRefused :
    step (presenting State.reset [0x20]) = .refused .incompleteFrame ∧
    step { finished with host := [.contend] } = .refused .contendingHost := ⟨rfl, rfl⟩

theorem witness_EveryCommandAdvancesTheFrameIndex :
    legalOpcode 0x7E = false ∧ (presenting State.reset [0x7E]).host = [.byte 0x7E] := by decide

theorem witness_EncodeInvertsDecode : decode [0x12, 0x99] = .instr .compH [0x99] := rfl

theorem witness_DecoderAcceptsExactlyWellFormedFrames :
    wellFormedFrame (0x02 :: burst.toList) = true ∧ decode (0x02 :: burst.toList) = .instr (.rawLoad burst) [] := by
  decide

theorem witness_ErrorsWriteOnlyErrEstkyAndIndex :
    got (exec .compP sampled) (fun t => t.status.err) = some .noTfine ∧
    got (step (presenting sampled [0xFF])) (fun t => t.status.err) = some .illegal := by decide

theorem witness_FirstFailingCheckDecidesTheError :
    got (exec .nop State.reset) (fun t => t.status.err) = some .ok ∧
    got (exec (.calLoad blockA blockB) calibrated) (fun t => t.status.err) = some .calLocked ∧
    got (exec (.measure burst) State.reset) (fun t => t.status.err) = some .noCal ∧
    got (exec .compT calibrated) (fun t => t.status.err) = some .noRaw ∧
    got (exec .compH sampled) (fun t => t.status.err) = some .noTfine := by decide

theorem witness_CalLoadDecodesTheCoefficients : State.reset.status.calv = false := rfl

theorem witness_LoadedCalibrationIsImmutable :
    calibrated.status.calv = true ∧ (presenting calibrated [0x00]).host.head? ≠ some .reset ∧
    got (step (presenting calibrated [0x00])) (fun t => t.status.calv) = some true := by decide

theorem witness_RawLoadDecodesTheCodes : State.reset.status.calv = false ∧ calibrated.status.calv = true := by decide

theorem witness_BurstLowNibblesAreDiscarded :
    (0xCF#8).toNat / 16 = burst[2].toNat / 16 ∧ (0x0F#8).toNat / 16 = burst[5].toNat / 16 := by decide

theorem witness_RawLoadInvalidatesOldResults : finished.status.calv = true := rfl

theorem witness_CompTComputesTheTemperature :
    State.reset.status.calv = false ∧ (calibrated.status.calv = true ∧ calibrated.status.rawv = false) ∧
    (sampled.status.calv = true ∧ sampled.status.rawv = true) := by decide

/-- For COMP_P and COMP_H: each error clause, and the clause of the result. -/
theorem witness_CompPAndCompHCompute :
    State.reset.status.calv = false ∧ (calibrated.status.calv = true ∧ calibrated.status.rawv = false) ∧
    (sampled.status.calv = true ∧ sampled.status.rawv = true ∧ sampled.status.tfv = false) ∧
    (withFine.status.calv = true ∧ withFine.status.rawv = true ∧ withFine.status.tfv = true) := by decide

/-- Row P2; and a zero divisor where `dig_P1` is not 0: the factor it multiplies is, `-2^21 * 2^14 * 2^12 = -2^47`. -/
theorem witness_ZeroDivisorGivesTheSentinel :
    ({ withFine with cal := { exampleCal with digP1 := 0 } } : State).cal.digP1 = 0 ∧
    Reference.presDivisor (wrap 64 ((-1969152#32 : Word).toInt - 128000))
      { exampleCal with digP1 := 1, digP2 := 16384, digP3 := 0 } = 0 ∧
    withFine.status.tfv = true := by decide +kernel

/-- Rows H2 and H6: below the lower bound and above the upper one. -/
theorem witness_HumidityClampsToZeroAndHundred :
    Reference.humUnclamped 32 0 128422 exampleCal = -503605497 ∧
    Reference.humUnclamped 32 40000 128422 exampleCal = 445865615 ∧
    withFine.status.calv = true ∧ withFine.status.rawv = true ∧ withFine.status.tfv = true := by decide +kernel

theorem witness_MeasureComputesTheWholeCycle : State.reset.status.calv = false ∧ calibrated.status.calv = true := by
  decide

/-- The premise of MeasureEqualsTheExpandedCycle and of MeasureMakesEveryPortReadable. -/
theorem witness_MeasureAfterCalibration : calibrated.status.calv = true := rfl

theorem witness_RepeatedCompensationChangesNothing :
    got (exec .compT sampled) (fun t => t.status.err) = some .ok ∧
    got (exec .compP withFine) (fun t => t.status.err) = some .ok ∧
    got (exec .compH withFine) (fun t => t.status.err) = some .ok := by decide

/-- The premises of CalvRule, RawvRule, TfvRule, ResultFlagsRule and EstkyRecordsEveryError: who sets a flag, the
reset input that clears it, and what its being 0 forbids. -/
theorem witness_FlagRules :
    (State.reset.status.calv = false ∧ calibrated.status.calv = true ∧ calibrated.status.rawv = false) ∧
    (sampled.status.rawv = true ∧ sampled.status.tfv = false) ∧
    got (step { finished with host := [.reset] }) (fun t => t.status.word) = some 0x0000#16 ∧
    got (exec .compT calibrated) (fun t => (t.status.tfv, t.status.err)) = some (false, .noRaw) ∧
    got (exec .compT sampled) (fun t => (t.status.tfv, t.status.err)) = some (true, .ok) := by decide

/-- The premises of OnlyItsWritersChangeARegister: each register group changes under its writer. -/
theorem witness_OnlyItsWritersChangeARegister :
    got (exec (.calLoad blockA blockB) State.reset) (fun t => decide (t.cal ≠ State.reset.cal)) = some true ∧
    got (exec (.rawLoad burst) calibrated) (fun t => decide (t.raw ≠ calibrated.raw)) = some true ∧
    got (exec .compT sampled) (fun t => decide (t.tfine ≠ sampled.tfine)) = some true ∧
    got (exec .compP withFine) (fun t => decide (t.pOut ≠ withFine.pOut)) = some true ∧
    got (exec .compH withFine) (fun t => decide (t.hOut ≠ withFine.hOut)) = some true := by decide +kernel

/-- The premises of StepKeepsFlagsOrdered and StepKeepsPackedCoefficientsInRange, with a state where every flag is
set; its next step is a NOP. -/
theorem witness_StepKeepsInvariants :
    FlagsOrdered (presenting finished [0x00]) ∧ PackedInRange (presenting finished [0x00]) ∧
    got (step (presenting finished [0x00])) (fun t => t.fi) = some 1 := by
  refine ⟨⟨?_, ?_, ?_, ?_, ?_, ?_⟩, ⟨?_, ?_, ?_, ?_⟩, ?_⟩ <;> decide

theorem witness_ReachableStatesKeepFlagsOrdered :
    got (Host.Core.run Sys2Proof.core 2 ({ State.reset with host := [.byte 0x00, .byte 0x10] } : State))
      (fun t => t.status.word) = some 0x0280#16 := by decide

/-- The premises of StepKeepsResultsCurrent: rows T1, P1 and H1 are the current results of the example. -/
theorem witness_StepKeepsResultsCurrent :
    FlagsOrdered finished ∧ ResultsCurrent finished ∧ got (step finished) (fun t => t.fi) = some 0 := by
  refine ⟨⟨?_, ?_, ?_, ?_, ?_, ?_⟩, ⟨?_, ?_, ?_, ?_, ?_, ?_, ?_⟩, ?_⟩ <;> decide +kernel

/-- Two states that differ in registers nothing has written: the host cannot tell them apart. -/
theorem witness_UnwrittenRegistersReachNoResult :
    SameToHost calibrated { calibrated with tfine := 7, hOut := 0xFFFFFFFF, raw := { adcP := 1, adcT := 2, adcH := 3 } } := by
  refine ⟨rfl, rfl, rfl, fun _ p => ?_⟩
  cases p <;> rfl

/-- The example of row T1 stays within s32. -/
theorem witness_TempWidthMattersOnlyOnOverflow :
    ∀ x ∈ Reference.tempTerms sampled.raw.adcT.toNat sampled.cal.digT1.toNat sampled.cal.digT2.toInt
      sampled.cal.digT3.toInt, FitsS32 x := by
  unfold FitsS32
  decide +kernel

/-- The example of row H1 stays within s32. -/
theorem witness_HumWidthMattersOnlyOnOverflow :
    ∀ x ∈ Reference.humTerms withFine.raw.adcH.toNat withFine.tfine.toInt withFine.cal, FitsS32 x := by
  unfold FitsS32
  decide +kernel

theorem witness_Fl32RoundsToNearestEven : 0 < 100 ∧ (-3 : Int).natAbs < 2 ^ 127 * 100 ∧ fl32 (-3) 100 = 0xBCF5C28F := by
  decide +kernel

/-- The largest H_OUT, a 24-bit and a negative T_OUT: the boundary values of ConversionRangeProperties and of
StagedEqualsSingleUpTo24Bits. -/
theorem witness_ConversionRanges :
    (102400#32).toNat ≤ 102400 ∧ (16777215#32).toNat < 2 ^ 24 ∧ (-16777215#32 : Word).toInt.natAbs < 2 ^ 24 ∧
    (-3#32 : Word).toInt < 0 := by decide

/-! A bus for the boundary statements: it answers `reply` in every byte, and fails from exchange `bad` on. -/

def echoBus (reply : Byte) (bad : Nat) : Boundary.Bus Nat where
  exchange n request := (if n < bad then some (request.map fun _ => reply) else none, n + 1)

theorem witness_RegisterProtocolBytes :
    (echoBus 0xA5 9).exchange 0 [BitVec.ofNat 8 (128 + (0x50#7).toNat), 0x00] = (some [0xA5, 0xA5], 1) ∧
    (echoBus 0xA5 9).exchange 0 [BitVec.ofNat 8 (0x74#7).toNat, 0x27] = (some [0xA5, 0xA5], 1) ∧
    (echoBus 0xA5 9).exchange 0 (BitVec.ofNat 8 (128 + (0x77#7).toNat) :: List.replicate 2 0x00)
      = (some (0xA5 :: (#v[0xA5, 0xA5] : Vector Byte 2).toList), 1) := ⟨rfl, rfl, rfl⟩

/-- The result of a host program, its state left out. -/
def resultOf {σ α : Type} (m : Boundary.HostProgram σ α) (h : Boundary.HostState σ) : Option Boundary.HostError :=
  match (m h).1 with
  | .ok _    => none
  | .error e => some e

/-- R180: `echoBus` answers every request at its length until it fails. -/
theorem echoBus_answers {reply : Byte} {bad n : Nat} (h : n < bad) (request : List Byte) :
    Answers (echoBus reply bad) n request (request.map fun _ => reply) (n + 1) := by
  simp [Answers, echoBus, h]

theorem echoBus_fails {reply : Byte} {bad n : Nat} (h : bad ≤ n) (request : List Byte) :
    Fails (echoBus reply bad) n request (n + 1) := by
  simp [Fails, echoBus, Nat.not_lt.mpr h]

theorem echoBus_identified {bad n : Nat} (h : n < bad) : ChipIdentified (echoBus Config.chipIdValue bad) n (n + 1) :=
  ⟨_, echoBus_answers h _, by simp [Boundary.readRequest]⟩

theorem echoBus_write {reply : Byte} {bad n : Nat} (h : n < bad) (addr : BitVec 7) (v : Byte) :
    WriteAnswered (echoBus reply bad) n addr v (n + 1) := ⟨_, echoBus_answers h _⟩

theorem echoBus_block {reply : Byte} {bad n : Nat} (h : n < bad) (addr : BitVec 7) (k : Nat) :
    BlockAnswered (echoBus reply bad) n addr (Vector.replicate k reply) (n + 1) :=
  ⟨_, echoBus_answers h _, by simp [Boundary.blockRequest]⟩

theorem echoBus_sensorReset {bad n : Nat} (h : n + 1 < bad) :
    SensorReset (echoBus Config.chipIdValue bad) n (n + 2) :=
  ⟨_, echoBus_identified (by omega), echoBus_write h _ _⟩

theorem echoBus_calibration {bad n : Nat} (h : n + 3 < bad) :
    CalibrationRead (echoBus Config.chipIdValue bad) n (Vector.replicate 26 Config.chipIdValue)
      (Vector.replicate 7 Config.chipIdValue) (n + 4) :=
  ⟨_, _, echoBus_sensorReset (by omega), echoBus_block (by omega) _ _, echoBus_block h _ _⟩

theorem echoBus_initialisation {bad n : Nat} (h : n + 6 < bad) :
    InitialisationAnswered (echoBus Config.chipIdValue bad) n (Vector.replicate 26 Config.chipIdValue)
      (Vector.replicate 7 Config.chipIdValue) (n + 7) :=
  ⟨_, _, _, echoBus_calibration (by omega), echoBus_write (by omega) _ _, echoBus_write (by omega) _ _,
    echoBus_write h _ _⟩

/-- An engine with a NOP still to execute, and one that a contending frame has stuck. -/
def behind : State := { calibrated with host := [.byte 0x00] }
def contended : State := { State.reset with host := [.contend] }

/-- The seven requests answered; a wrong chip ID, or a failed block read, with its error; an engine that is not stuck,
and one that is. -/
theorem witness_InitialisationOrder :
    InitialisationAnswered (echoBus Config.chipIdValue 9) 0 (Vector.replicate 26 Config.chipIdValue)
      (Vector.replicate 7 Config.chipIdValue) 7 ∧
    ((Boundary.drained behind).host = [] ∧ (Boundary.drained contended).host ≠ []) ∧
    resultOf (Boundary.initialise (echoBus (~~~ Config.chipIdValue) 9)) (0, []) = some .unexpectedChipId ∧
    resultOf (Boundary.initialise (echoBus Config.chipIdValue 3)) (0, []) = some .calibration := by
  refine ⟨echoBus_initialisation (by omega), by decide, ?_, ?_⟩ <;>
    simp [resultOf, Boundary.initialise, Boundary.identify, Boundary.softReset, Boundary.loadCalibration,
      Boundary.readRegister, Boundary.writeRegister, Boundary.readBlock, Boundary.exchange, Boundary.andThen,
      Boundary.reportAs, Boundary.act, Boundary.give, Boundary.failWith, Boundary.readRequest, Boundary.writeRequest,
      Boundary.blockRequest, echoBus, takeBytes]

/-- The failures of InitialisationOrder: one failing exchange after the other, and an answer with another chip ID. -/
theorem witness_InitialisationOrder_failures :
    Fails (echoBus Config.chipIdValue 0) 0 (Boundary.readRequest Config.regChipId) 1 ∧
    (Answers (echoBus (~~~ Config.chipIdValue) 9) 0 (Boundary.readRequest Config.regChipId)
      [~~~ Config.chipIdValue, ~~~ Config.chipIdValue] 1 ∧
      [~~~ Config.chipIdValue, ~~~ Config.chipIdValue][1]? ≠ some Config.chipIdValue) ∧
    (ChipIdentified (echoBus Config.chipIdValue 1) 0 1 ∧
      Fails (echoBus Config.chipIdValue 1) 1 (Boundary.writeRequest Config.regReset Config.resetCmd) 2) ∧
    (SensorReset (echoBus Config.chipIdValue 2) 0 2 ∧
      Fails (echoBus Config.chipIdValue 2) 2 (Boundary.blockRequest Config.regCalibA 26) 3) ∧
    (SensorReset (echoBus Config.chipIdValue 3) 0 2 ∧
      BlockAnswered (echoBus Config.chipIdValue 3) 2 Config.regCalibA (Vector.replicate 26 Config.chipIdValue) 3 ∧
      Fails (echoBus Config.chipIdValue 3) 3 (Boundary.blockRequest Config.regCalibB 7) 4) ∧
    (∀ bad ∈ [4, 5, 6], CalibrationRead (echoBus Config.chipIdValue bad) 0 (Vector.replicate 26 Config.chipIdValue)
      (Vector.replicate 7 Config.chipIdValue) 4) ∧
    Fails (echoBus Config.chipIdValue 4) 4 (Boundary.writeRequest Config.regCtrlHum Config.cfgHum) 5 ∧
    (WriteAnswered (echoBus Config.chipIdValue 5) 4 Config.regCtrlHum Config.cfgHum 5 ∧
      Fails (echoBus Config.chipIdValue 5) 5 (Boundary.writeRequest Config.regCtrlMeas Config.cfgMeas) 6) ∧
    (WriteAnswered (echoBus Config.chipIdValue 6) 4 Config.regCtrlHum Config.cfgHum 5 ∧
      WriteAnswered (echoBus Config.chipIdValue 6) 5 Config.regCtrlMeas Config.cfgMeas 6 ∧
      Fails (echoBus Config.chipIdValue 6) 6 (Boundary.writeRequest Config.regConfig Config.cfgConfig) 7) ∧
    (Boundary.drained behind).host = [] := by
  refine ⟨echoBus_fails (by omega) _, ⟨echoBus_answers (by omega) _, by simp⟩,
    ⟨echoBus_identified (by omega), echoBus_fails (by omega) _⟩,
    ⟨echoBus_sensorReset (by omega), echoBus_fails (by omega) _⟩,
    ⟨echoBus_sensorReset (by omega), echoBus_block (by omega) _ _, echoBus_fails (by omega) _⟩, ?_,
    echoBus_fails (by omega) _, ⟨echoBus_write (by omega) _ _, echoBus_fails (by omega) _⟩,
    ⟨echoBus_write (by omega) _ _, echoBus_write (by omega) _ _, echoBus_fails (by omega) _⟩, by decide⟩
  intro bad h
  simp at h
  exact echoBus_calibration (by omega)

/-- The burst answered, or failed; an engine with calibration, one without, and one that is stuck. -/
theorem witness_ReadCycleIssuesOneMeasure :
    BlockAnswered (echoBus 0xA5 9) 0 Config.regData (Vector.replicate 8 0xA5) 1 ∧
    ((Boundary.drained behind).host = [] ∧ (Boundary.drained behind).status.calv = true ∧ calibrated.host = []) ∧
    ((Boundary.drained State.reset).host = [] ∧ (Boundary.drained State.reset).status.calv = false ∧
      FlagsOrdered State.reset) ∧
    (Boundary.drained contended).host ≠ [] ∧
    Fails (echoBus 0xA5 0) 0 (Boundary.blockRequest Config.regData 8) 1 := by
  refine ⟨echoBus_block (by omega) _ _, by decide, ⟨by decide, by decide, ?_⟩, by decide, echoBus_fails (by omega) _⟩
  constructor <;> decide

theorem witness_InitialisationThenReadCycleGivesAReading :
    InitialisationAnswered (echoBus Config.chipIdValue 9) 0 (Vector.replicate 26 Config.chipIdValue)
      (Vector.replicate 7 Config.chipIdValue) 7 ∧
    BlockAnswered (echoBus Config.chipIdValue 9) 7 Config.regData (Vector.replicate 8 Config.chipIdValue) 8 ∧
    State.reset.host = [] ∧ State.reset.status = Status.zero :=
  ⟨echoBus_initialisation (by omega), echoBus_block (by omega) _ _, rfl, rfl⟩

/-- A calibrated engine for RAW_LOAD; MEASURE succeeds on it, and raises on the engine at reset. -/
theorem witness_HostTakesOnlyCheckedResults :
    calibrated.status.calv = true ∧ got (exec (.measure burst) calibrated) (fun t => t.status.err) = some .ok ∧
    got (exec (.measure burst) State.reset) (fun t => t.status.err) = some .noCal := by
  refine ⟨rfl, ?_, ?_⟩ <;> decide +kernel

/-- A bus that answers `answer` to every request. -/
def fixedBus (answer : List Byte) : Boundary.Bus Nat where
  exchange n _ := (some answer, n + 1)

/-- R189, R241: the read cycle of program 1, from the burst of section 0 to the reading, under either check; before
calibration it gives none. -/
theorem test_readCycle_example :
    ∀ check ∈ [Boundary.ResultCheck.flags, .outcome],
      (Boundary.readCycle (fixedBus (0x00 :: burst.toList)) check zeroDraw calibrated (0, [])).1.toOption
        = some (some { tempC := 0x41C8A3D7, presHpa := 0x447BA215, humPct := 0x424C5200 }) ∧
      (Boundary.readCycle (fixedBus (0x00 :: burst.toList)) check zeroDraw State.reset (0, [])).1.toOption
        = some none := by decide +kernel

/-- R241, R61, R65: a read cycle on an engine with a NOP still to execute takes MEASURE's outcome, not the NOP's; on one
that a contending frame has stuck there is no MEASURE, and nothing is taken. -/
theorem test_readCycle_behind :
    ∀ check ∈ [Boundary.ResultCheck.flags, .outcome],
      (Boundary.readCycle (fixedBus (0x00 :: burst.toList)) check zeroDraw behind (0, [])).1.toOption
        = some (some { tempC := 0x41C8A3D7, presHpa := 0x447BA215, humPct := 0x424C5200 }) ∧
      (Boundary.readCycle (fixedBus (0x00 :: burst.toList)) check zeroDraw
        { State.reset with host := [.byte 0x00] } (0, [])).1.toOption = some none ∧
      (Boundary.readCycle (fixedBus (0x00 :: burst.toList)) check zeroDraw contended (0, [])).1.toOption
        = some none := by decide +kernel

end Sys2Proof.Tests
end

