-- ==== Sys2Proof/Proofs/Fl32.lean ====
section
/-!
PROOF of O49. A finite binary32 value is an integer of at most 24 bits times a power of two not below 2^-149
(`Binary32Grid`). Every such value is either a multiple of the unit in the last place that `fl32` rounds to, where
rounding to the nearest integer decides, or it lies below the leading bit of the quotient, where it is farther than
that leading bit is.
-/
namespace Sys2Proof.Machine

open Sys2Proof Sys2Proof.Reference

/-! ### A pattern from its sign and its magnitude bits -/

/-- The pattern of a sign bit and 31 magnitude bits. -/
def signMagnitude (s : Bool) (M : Nat) : Binary32 := BitVec.ofBool s ++ BitVec.ofNat 31 M

/-- The factor of a sign bit. -/
def signFactor (s : Bool) : ℚ := if s then -1 else 1

theorem fl32_eq_signMagnitude (num : Int) (den : Nat) :
    fl32 num den = signMagnitude (decide (num < 0)) (fl32Magnitude num.natAbs den) := rfl

theorem signMagnitude_toNat (s : Bool) {M : Nat} (hM : M < 2 ^ 31) :
    (signMagnitude s M).toNat = s.toNat * 2 ^ 31 + M := by
  rw [signMagnitude, append_toNat, BitVec.toNat_ofBool, BitVec.toNat_ofNat, Nat.mod_eq_of_lt hM]

theorem signMagnitude_msb (s : Bool) (M : Nat) : (signMagnitude s M).msb = s := by
  rw [signMagnitude, BitVec.msb_append]
  simp

theorem signMagnitude_exponent (s : Bool) {M : Nat} (hM : M < 2 ^ 31) :
    ((signMagnitude s M).extractLsb' 23 8).toNat = M / 2 ^ 23 := by
  rw [BitVec.extractLsb'_toNat, signMagnitude_toNat s hM, Nat.shiftRight_eq_div_pow]
  omega

theorem signMagnitude_fraction (s : Bool) {M : Nat} (hM : M < 2 ^ 31) :
    ((signMagnitude s M).extractLsb' 0 23).toNat = M % 2 ^ 23 := by
  rw [BitVec.extractLsb'_toNat, signMagnitude_toNat s hM, Nat.shiftRight_zero]
  omega

theorem signMagnitude_lsb_of_even (s : Bool) {M : Nat} (hM : M < 2 ^ 31) (h : M % 2 = 0) :
    (signMagnitude s M).getLsbD 0 = false := by
  rw [BitVec.getLsbD, signMagnitude_toNat s hM, Nat.testBit_zero]
  simp only [decide_eq_false_iff_not]
  omega

theorem signFactor_cases (s : Bool) : signFactor s = 1 ∨ signFactor s = -1 := by
  cases s <;> simp [signFactor]

@[simp] theorem signFactor_mul_signFactor_mul (s : Bool) (y : ℚ) : signFactor s * (signFactor s * y) = y := by
  obtain h | h := signFactor_cases s <;> rw [h] <;> ring

/-- A sign moves across a distance. -/
theorem abs_signFactor_mul_sub (s : Bool) (x y : ℚ) : |signFactor s * x - y| = |x - signFactor s * y| := by
  obtain h | h := signFactor_cases s <;> rw [h]
  · rw [one_mul, one_mul]
  · rw [← abs_neg]; congr 1; ring

/-- The value of the magnitude bits that `fl32` assembles, a carry out of the significand included. -/
theorem binary32Value_signMagnitude (s : Bool) {m : Nat} {k : Int} (hk : -149 ≤ k) (hk' : k ≤ 103) (hm : m ≤ 2 ^ 24)
    (hn : -149 < k → 2 ^ 23 ≤ m) :
    binary32Value (signMagnitude s ((k + 149).toNat * 2 ^ 23 + m)) = signFactor s * (m * 2 ^ k) := by
  obtain ⟨e, rfl⟩ : ∃ e : Nat, k = e - 149 := ⟨(k + 149).toNat, by omega⟩
  have he : ((e : Int) - 149 + 149).toNat = e := by omega
  have hM : e * 2 ^ 23 + m < 2 ^ 31 := by omega
  rw [he, binary32Value, signMagnitude_msb, signMagnitude_exponent s hM, signMagnitude_fraction s hM, signFactor]
  congr 1
  obtain hsub | hnorm | hcarry : m < 2 ^ 23 ∨ (2 ^ 23 ≤ m ∧ m < 2 ^ 24) ∨ m = 2 ^ 24 := by omega
  · -- a subnormal result or zero
    obtain rfl : e = 0 := by omega
    have hd : (0 * 2 ^ 23 + m) / 2 ^ 23 = 0 := by omega
    have hr : (0 * 2 ^ 23 + m) % 2 ^ 23 = m := by omega
    rw [hd, hr]
    simp
  · have hd : (e * 2 ^ 23 + m) / 2 ^ 23 = e + 1 := by omega
    have hr : (e * 2 ^ 23 + m) % 2 ^ 23 = m - 2 ^ 23 := by omega
    rw [hd, hr, if_neg (by omega), Nat.cast_sub hnorm.1]
    push_cast
    rw [show (e : ℤ) + 1 - 150 = e - 149 by ring]
    ring
  · -- the carry leaves a zero fraction under the next exponent
    have hd : (e * 2 ^ 23 + m) / 2 ^ 23 = e + 2 := by omega
    have hr : (e * 2 ^ 23 + m) % 2 ^ 23 = 0 := by omega
    rw [hd, hr, if_neg (by omega), hcarry]
    push_cast
    rw [show (e : ℤ) + 2 - 150 = e - 149 + 1 by ring, zpow_add_one₀ (by norm_num)]
    ring

/-! ### The values a pattern can have -/

/-- An integer of at most 24 bits times a power of two not below the spacing of the subnormals. -/
def Binary32Grid (y : ℚ) : Prop := ∃ z j : ℤ, |z| < 2 ^ 24 ∧ -149 ≤ j ∧ y = z * 2 ^ j

theorem Binary32Grid.signFactor_mul {y : ℚ} (h : Binary32Grid y) (s : Bool) : Binary32Grid (signFactor s * y) := by
  obtain ⟨z, j, hz, hj, rfl⟩ := h
  obtain hs | hs := signFactor_cases s <;> rw [hs]
  · exact ⟨z, j, hz, hj, one_mul _⟩
  · exact ⟨-z, j, by rwa [abs_neg], hj, by push_cast; ring⟩

/-- A value of the grid is a multiple of the unit `2 ^ k`, or lies below the leading bit of a significand at it. -/
theorem Binary32Grid.multiple_or_below {y : ℚ} (hy : Binary32Grid y) (k : Int) :
    (∃ z : ℤ, y = z * 2 ^ k) ∨ (-149 < k ∧ y < 2 ^ (k + 23)) := by
  obtain ⟨z, j, hz, hj, rfl⟩ := hy
  obtain hkj | hjk := le_or_gt k j
  · refine .inl ⟨z * 2 ^ (j - k).toNat, ?_⟩
    push_cast
    rw [mul_assoc, ← zpow_natCast, ← zpow_add₀ (by norm_num)]
    congr 2
    omega
  · refine .inr ⟨by omega, ?_⟩
    have hz' : (z : ℚ) < 2 ^ 24 := by exact_mod_cast (abs_lt.1 hz).2
    calc (z : ℚ) * 2 ^ j < 2 ^ 24 * 2 ^ j := mul_lt_mul_of_pos_right hz' (by positivity)
      _ = 2 ^ (24 + j) := by rw [zpow_add₀ (by norm_num)]; norm_num
      _ ≤ 2 ^ (k + 23) := zpow_le_zpow_right₀ (by norm_num) (by omega)

theorem binary32Grid_binary32Value (g : Binary32) : Binary32Grid (binary32Value g) := by
  have hf := (g.extractLsb' 0 23).isLt
  refine Binary32Grid.signFactor_mul ?_ g.msb
  split
  · exact ⟨(g.extractLsb' 0 23).toNat, -149, by rw [Nat.abs_cast]; omega, le_rfl, by push_cast; rfl⟩
  · exact ⟨2 ^ 23 + (g.extractLsb' 0 23).toNat, (g.extractLsb' 23 8).toNat - 150, by rw [abs_lt]; omega, by omega,
      by push_cast; rfl⟩

/-! ### The nearest of them -/

/-- `m * 2 ^ k` is `x` rounded to the unit in the last place `2 ^ k` that binary32 has at `x`, ties to even. -/
structure IsRounding (x : ℚ) (m : Nat) (k : Int) : Prop where
  exponent_ge : -149 ≤ k
  exponent_le : k ≤ 103
  significand_le : m ≤ 2 ^ 24
  normal : -149 < k → 2 ^ 23 ≤ m ∧ (2 : ℚ) ^ (k + 23) ≤ x
  near : |x / 2 ^ k - m| ≤ 1 / 2
  even : |x / 2 ^ k - m| = 1 / 2 → m % 2 = 0

theorem fl32Magnitude_isRounding {num den : Nat} (hn : 0 < num) (hd : 0 < den) (hb : num < 2 ^ 127 * den) :
    ∃ m k, IsRounding ((num : ℚ) / den) m k ∧ fl32Magnitude num den = (k + 149).toNat * 2 ^ 23 + m := by
  obtain ⟨m, k, hk, hk', hM, hm, hnormal, hnear, heven⟩ := fl32Magnitude_eq hn hd hb
  exact ⟨m, k, ⟨hk, hk', hm, hnormal, hnear, heven⟩, hM⟩

/-- An integer other than one within a half is at least a half away. -/
theorem half_le_abs_sub_of_ne {t : ℚ} {m z : ℤ} (h : |t - m| ≤ 1 / 2) (hz : z ≠ m) : 1 / 2 ≤ |t - z| := by
  have h1 : (1 : ℚ) ≤ |(z : ℚ) - m| := by exact_mod_cast Int.one_le_abs (sub_ne_zero.2 hz)
  have h2 : |(z : ℚ) - m| ≤ |t - z| + |t - m| := by
    rw [abs_sub_comm t z]; exact abs_sub_le _ _ _
  linarith

/-- Distances in units of the last place. -/
theorem abs_sub_mul_zpow (x y : ℚ) (k : Int) : |x - y * 2 ^ k| = |x / 2 ^ k - y| * 2 ^ k := by
  have hk : (0 : ℚ) < 2 ^ k := by positivity
  rw [← abs_of_pos hk, ← abs_mul, abs_of_pos hk, sub_mul, div_mul_cancel₀ _ hk.ne']

namespace IsRounding

variable {x : ℚ} {m : Nat} {k : Int}

/-- Another multiple of the unit is no nearer, and is as near on a tie only. -/
theorem nearest_multiple (h : IsRounding x m k) {z : ℤ} (hz : z ≠ m) :
    |x - m * 2 ^ k| ≤ |x - z * 2 ^ k| ∧ (|x - z * 2 ^ k| = |x - m * 2 ^ k| → m % 2 = 0) := by
  have hk : (0 : ℚ) < 2 ^ k := by positivity
  have hfar : 1 / 2 ≤ |x / 2 ^ k - z| := half_le_abs_sub_of_ne (by exact_mod_cast h.near) hz
  rw [abs_sub_mul_zpow, abs_sub_mul_zpow]
  refine ⟨mul_le_mul_of_nonneg_right (h.near.trans hfar) hk.le, fun heq => h.even ?_⟩
  exact h.near.antisymm (hfar.trans (mul_right_cancel₀ hk.ne' heq).le)

/-- A value below the leading bit of `x` is farther. -/
theorem lt_of_below (h : IsRounding x m k) (hk : -149 < k) {y : ℚ} (hy : y < 2 ^ (k + 23)) :
    |x - m * 2 ^ k| < |x - y| := by
  have hx := (h.normal hk).2
  have hlead : (2 : ℚ) ^ (k + 23) = (2 ^ 23 : ℤ) * 2 ^ k := by
    rw [zpow_add₀ (by norm_num), mul_comm]; norm_num
  have hle : |x - m * 2 ^ k| ≤ |x - (2 ^ 23 : ℤ) * 2 ^ k| := by
    by_cases hm : (2 ^ 23 : ℤ) = m
    · rw [hm, Int.cast_natCast]
    · exact (h.nearest_multiple hm).1
  calc |x - m * 2 ^ k| ≤ |x - (2 ^ 23 : ℤ) * 2 ^ k| := hle
    _ = x - 2 ^ (k + 23) := by rw [← hlead, abs_of_nonneg (by linarith)]
    _ < x - y := by linarith
    _ ≤ |x - y| := le_abs_self _

/-- Another value of the grid is no nearer, and is as near on a tie only. -/
theorem nearest_grid (h : IsRounding x m k) {y : ℚ} (hy : Binary32Grid y) (hne : y ≠ m * 2 ^ k) :
    |x - m * 2 ^ k| ≤ |x - y| ∧ (|x - y| = |x - m * 2 ^ k| → m % 2 = 0) := by
  obtain ⟨z, rfl⟩ | ⟨hk, hlt⟩ := hy.multiple_or_below k
  · exact h.nearest_multiple fun hz => hne (by rw [hz, Int.cast_natCast])
  · have hfar := h.lt_of_below hk hlt
    exact ⟨hfar.le, fun heq => absurd heq hfar.ne'⟩

/-- The assembled magnitude bits stay below the exponent field of infinity. -/
theorem magnitude_lt (h : IsRounding x m k) : (k + 149).toNat * 2 ^ 23 + m < 255 * 2 ^ 23 := by
  have hk := h.exponent_le
  have hm := h.significand_le
  omega

/-- The pattern assembled from a rounding of a positive `x` is the binary32 value of `x` under either sign. -/
theorem isFl32 (h : IsRounding x m k) (hx : 0 < x) (s : Bool) :
    IsFl32 (signFactor s * x) (signMagnitude s ((k + 149).toNat * 2 ^ 23 + m)) := by
  have hM := h.magnitude_lt
  have hM31 : (k + 149).toNat * 2 ^ 23 + m < 2 ^ 31 := by omega
  have hv := binary32Value_signMagnitude s h.exponent_ge h.exponent_le h.significand_le fun hk => (h.normal hk).1
  have hgrid : ∀ g, binary32Value g ≠ signFactor s * (m * 2 ^ k) →
      |x - m * 2 ^ k| ≤ |x - signFactor s * binary32Value g| ∧
        (|x - signFactor s * binary32Value g| = |x - m * 2 ^ k| → m % 2 = 0) := fun g hne =>
    h.nearest_grid ((binary32Grid_binary32Value g).signFactor_mul s) fun heq =>
      hne (by rw [← heq, signFactor_mul_signFactor_mul])
  refine ⟨?_, fun g _ => ?_, fun g _ hne heq => ?_, fun h0 => ?_⟩
  · rw [FiniteBinary32, signMagnitude_exponent s hM31]
    omega
  · rw [hv, abs_signFactor_mul_sub, abs_signFactor_mul_sub, signFactor_mul_signFactor_mul]
    by_cases hg : binary32Value g = signFactor s * (m * 2 ^ k)
    · rw [hg, signFactor_mul_signFactor_mul]
    · exact (hgrid g hg).1
  · rw [hv] at hne heq
    rw [abs_signFactor_mul_sub, abs_signFactor_mul_sub, signFactor_mul_signFactor_mul] at heq
    have hm := (hgrid g hne).2 heq
    exact signMagnitude_lsb_of_even s hM31 (by omega)
  · obtain hs | hs := signFactor_cases s <;> rw [hs] at h0 <;> linarith

end IsRounding

/-! ### Zero, and the statement -/

theorem binary32Value_zero : binary32Value 0 = 0 := by simp [binary32Value]

/-- `+0.0` is 0 rounded. -/
theorem isFl32_zero : IsFl32 0 0 where
  finite := by simp [FiniteBinary32]
  nearest g _ := by rw [binary32Value_zero, sub_zero, abs_zero]; exact abs_nonneg _
  tie_even g _ _ _ := by simp
  zero _ := rfl

theorem fl32_zero (den : Nat) : fl32 0 den = 0 := by
  simp [fl32, fl32Magnitude]

/-- A quotient is its sign's factor times its magnitude. -/
theorem signFactor_mul_natAbs_div (num : Int) (den : Nat) :
    signFactor (decide (num < 0)) * ((num.natAbs : ℚ) / den) = (num : ℚ) / den := by
  rw [← mul_div_assoc, Nat.cast_natAbs, signFactor]
  obtain h | h := lt_or_ge num 0
  · rw [if_pos (decide_eq_true h), abs_of_neg h]; push_cast; ring
  · rw [if_neg (by simpa using h), abs_of_nonneg h, one_mul]

/-- Settles O49: the magnitude bits are a rounding to the unit in the last place (`fl32Magnitude_isRounding`), which
no other binary32 value is nearer than (`IsRounding.nearest_grid`). -/
theorem fl32RoundsToNearestEven : Obligations.Fl32RoundsToNearestEven := by
  unfold Obligations.Fl32RoundsToNearestEven
  intro num den hd hb
  obtain rfl | hn := eq_or_ne num 0
  · rw [fl32_zero, Int.cast_zero, zero_div]
    exact isFl32_zero
  · have hpos : 0 < num.natAbs := Int.natAbs_pos.2 hn
    obtain ⟨m, k, hround, hM⟩ := fl32Magnitude_isRounding hpos hd hb
    rw [fl32_eq_signMagnitude, hM, ← signFactor_mul_natAbs_div]
    exact hround.isFl32 (by positivity) _

end Sys2Proof.Machine
end

