-- ==== Sys2Proof/Proofs/StepRules.lean ====
section
/-!
What a command and a step do, one outcome at a time, and how a property of states follows for every step and every run:
the rules the proofs of 10_state.md stand on.
-/
namespace Sys2Proof.Machine

open Sys2Proof Sys2Proof.Reference

/-! ### What a command does, one outcome at a time -/

/-- All a command that ends in success can be. -/
theorem exec_of_ok {i : Instr} {s t : State} (h : exec i s = .next t) (hok : t.status.err = .ok) :
    checkOf i s.status = none ∧ t = (bodyOf i s).succeed := by
  obtain ⟨e, he, rfl⟩ | hbody := exec_cases h
  · exact absurd (hok ▸ he) (checkOf_ne_ok i s.status)
  · exact hbody

/-- All a command that ends in an error can be. -/
theorem exec_of_error {i : Instr} {s t : State} (h : exec i s = .next t) (herr : t.status.err ≠ .ok) :
    ∃ e, checkOf i s.status = some e ∧ t = s.raise e := by
  obtain hraise | ⟨-, rfl⟩ := exec_cases h
  · exact hraise
  · exact absurd rfl herr

theorem exec_of_checkOf_none {i : Instr} {s : State} (h : checkOf i s.status = none) :
    exec i s = .next (bodyOf i s).succeed := by
  rw [exec_eq_command, h, command_none]

theorem exec_of_checkOf_some {i : Instr} {s : State} {e : ErrCode} (h : checkOf i s.status = some e) :
    exec i s = .next (s.raise e) := by
  rw [exec_eq_command, h, command_some]

/-- `exec` advances the frame index by one, whether the command succeeds or not (R21). -/
theorem exec_fi {i : Instr} {s t : State} (h : exec i s = .next t) : t.fi = s.fi + 1 := by
  obtain ⟨e, -, rfl⟩ | ⟨-, rfl⟩ := exec_cases h <;> simp

theorem raises_of_checkOf {i : Instr} {s : State} {e : ErrCode} (h : checkOf i s.status = some e) : Raises i s e :=
  exec_of_checkOf_some h

/-! ### The checks, error by error (R206) -/

section Checks

variable {st : Status}

theorem Status.needCal_noCal (hc : st.calv = false) : st.needCal = some .noCal := by
  simp [Status.needCal, hc]

theorem Status.needRaw_noCal (hc : st.calv = false) : st.needRaw = some .noCal := by
  simp [Status.needRaw, hc]

theorem Status.needTfine_noCal (hc : st.calv = false) : st.needTfine = some .noCal := by
  simp [Status.needTfine, hc]

theorem Status.needRaw_noRaw (hc : st.calv = true) (hr : st.rawv = false) : st.needRaw = some .noRaw := by
  simp [Status.needRaw, hc, hr]

theorem Status.needTfine_noRaw (hc : st.calv = true) (hr : st.rawv = false) : st.needTfine = some .noRaw := by
  simp [Status.needTfine, hc, hr]

theorem Status.needTfine_noTfine (hc : st.calv = true) (hr : st.rawv = true) (ht : st.tfv = false) :
    st.needTfine = some .noTfine := by
  simp [Status.needTfine, hc, hr, ht]

end Checks

/-! ### What a step does, by what the host presents -/

theorem step_of_host_nil {s : State} (hs : s.host = []) : step s = .next s :=
  step_of_goesOn (by simp [fetch, hs])

theorem step_of_host_reset {s : State} {rest : List HostInput} (hs : s.host = .reset :: rest) :
    step s = .next s.takeReset :=
  step_of_goesOn (by simp [fetch, hs])

theorem step_of_host_contend {s : State} {rest : List HostInput} (hs : s.host = .contend :: rest) :
    step s = .refused .contendingHost :=
  step_of_stuck (by simp [fetch, hs])

/-- Where the input begins with a byte, the engine looks for a frame. -/
theorem fetch_of_frameBytes_ne_nil {s : State} (h : frameBytes s.host ≠ []) : fetch s = fetchFrame s := by
  unfold fetch
  split
  case h_4 => rfl
  all_goals simp_all

theorem step_of_decode_instr {s : State} {i : Instr} {bs : List Byte} (hd : decode (frameBytes s.host) = .instr i bs) :
    step s = exec i (s.consume (frameLength i)) := by
  apply step_of_run
  rw [fetch_of_frameBytes_ne_nil (fun h0 => by simp [h0] at hd), fetchFrame, hd]

theorem step_of_decode_illegal {s : State} {b : Byte}
    (hd : decode (frameBytes s.host) = .rejected (.illegalOpcode b)) : step s = .next s.takeIllegal := by
  apply step_of_goesOn
  rw [fetch_of_frameBytes_ne_nil (fun h0 => by simp [h0] at hd), fetchFrame, hd]

theorem step_of_decode_incomplete {s : State} (hd : decode (frameBytes s.host) = .rejected .incompleteFrame) :
    step s = .refused .incompleteFrame := by
  apply step_of_stuck
  rw [fetch_of_frameBytes_ne_nil (fun h0 => by simp [h0] at hd), fetchFrame, hd]

/-- The decoder rejects what the opcode table does not list. -/
theorem decode_of_not_legalOpcode {b : Byte} (hb : legalOpcode b = false) (bs : List Byte) :
    decode (b :: bs) = .rejected (.illegalOpcode b) := by
  simp only [decode]
  split
  case h_8 => rfl
  all_goals exact absurd hb (by decide)

theorem step_of_not_legalOpcode {s : State} {b : Byte} {rest : List HostInput} (hb : legalOpcode b = false)
    (hs : s.host = .byte b :: rest) : step s = .next s.takeIllegal := by
  apply step_of_decode_illegal
  rw [hs]
  exact decode_of_not_legalOpcode hb _

/-- The values R75 lists are not in R73's table. -/
theorem legalOpcode_of_illegalRange {b : Byte} (hb : IllegalRange b) : legalOpcode b = false := by
  rw [← Bool.not_eq_true]
  intro hlegal
  obtain ⟨r, hr⟩ := Option.isSome_iff_exists.1 hlegal
  have hopc : r.opc = b := by simpa using List.find?_some hr
  have hmem : r ∈ opcodeTable := List.mem_of_find?_eq_some hr
  have hall : ∀ r ∈ opcodeTable, ¬ IllegalRange r.opc := by simp [opcodeTable, IllegalRange]
  exact hall r hmem (hopc ▸ hb)

/-! ### What every step keeps -/

@[simp] theorem State.takeReset_status (s : State) : s.takeReset.status = Status.zero := (rfl)
@[simp] theorem State.takeReset_cal (s : State) : s.takeReset.cal = Calibration.zero := (rfl)

/-- `step_cases` with the command taken apart: an idle engine, the reset input, an error, or the success of a body.
Errors and bodies run on the state whose frame is consumed. -/
theorem step_effects {s t : State} (h : step s = .next t) :
    t = s ∨
    (s.host.head? = some .reset ∧ t = s.takeReset) ∨
    (∃ n e, t = (s.consume n).raise e) ∨
    (∃ n i, checkOf i s.status = none ∧ t = (bodyOf i (s.consume n)).succeed) := by
  obtain ⟨-, ht⟩ | ⟨rest, hs, ht⟩ | ⟨-, ht⟩ | ⟨-, i, hi⟩ := step_cases h
  · exact .inl ht
  · exact .inr (.inl ⟨by rw [hs]; rfl, ht⟩)
  · exact .inr (.inr (.inl ⟨1, .illegal, ht⟩))
  · obtain ⟨e, -, ht⟩ | ⟨hnone, ht⟩ := exec_cases hi
    · exact .inr (.inr (.inl ⟨_, e, ht⟩))
    · exact .inr (.inr (.inr ⟨_, i, hnone, ht⟩))

/-- A property of states that reset establishes, and that taking a frame, an error and the success of each body keep,
is kept by every step. -/
theorem step_keeps {Inv : State → Prop} (hreset : ∀ s : State, Inv s.takeReset)
    (hconsume : ∀ s n, Inv s → Inv (s.consume n)) (hraise : ∀ s e, Inv s → Inv (s.raise e))
    (hbody : ∀ s i, Inv s → checkOf i s.status = none → Inv (bodyOf i s).succeed)
    {s t : State} (hs : Inv s) (h : step s = .next t) : Inv t := by
  obtain rfl | ⟨-, rfl⟩ | ⟨n, e, rfl⟩ | ⟨n, i, hi, rfl⟩ := step_effects h
  · exact hs
  · exact hreset s
  · exact hraise _ e (hconsume s n hs)
  · exact hbody _ i (hconsume s n hs) hi

/-- What every step keeps holds at the end of every run. -/
theorem run_keeps {Inv : State → Prop} (hstep : ∀ s t, Inv s → step s = .next t → Inv t) (k : Nat) {s t : State}
    (hs : Inv s) (h : Host.Core.run Sys2Proof.core k s = .next t) : Inv t := by
  induction k generalizing s with
  | zero => exact Host.Outcome.next.inj h ▸ hs
  | succ k ih =>
    cases hu : step s with
    | next u => exact ih (hstep s u hs hu) (core_run_succ k hu ▸ h)
    | fault r => exact nomatch r
    | refused r =>
      have hc : Sys2Proof.core.step s = .refused r := hu
      simp [Host.Core.run, hc] at h

/-- A flag that errors and bodies keep set is cleared by the reset input only. -/
theorem step_clears_flag {flag : Status → Bool} (hfail : ∀ st e, flag st = true → flag (st.fail e) = true)
    (hbody : ∀ i s, flag s.status = true → flag (bodyOf i s).status.succeed = true)
    {s t : State} (h : step s = .next t) (hs : flag s.status = true) (ht : flag t.status = false) :
    s.host.head? = some .reset := by
  obtain rfl | ⟨hreset, -⟩ | ⟨n, e, rfl⟩ | ⟨n, i, -, rfl⟩ := step_effects h
  · simp [hs] at ht
  · exact hreset
  · simp [hfail _ e hs] at ht
  · have := hbody i (s.consume n) hs
    simp [this] at ht

/-- Only CAL_LOAD writes the coefficients (R23). -/
theorem bodyOf_cal (i : Instr) (s : State) :
    (bodyOf i s).cal = match i with
      | .calLoad a b => decodeCalibration a b
      | _ => s.cal := by
  cases i <;> simp [bodyOf, measureBody_eq]

end Sys2Proof.Machine
end

