-- ==== Sys2Proof/Proofs/Invariants.lean ====
section
/-!
PROOFS of O41, O42, O43 and O3: the invariants of R36 and R22, first for each register write, then for each command,
then for every step and every run.
-/
namespace Sys2Proof.Machine

open Sys2Proof

/-! ### The ranges that the clamp (R156, R157) and `sext_12` (R106) leave -/

theorem clamp_toInt_mem {n : Nat} (v : BitVec n) {lo hi : BitVec n} (h : lo.toInt ≤ hi.toInt) :
    lo.toInt ≤ (clamp v lo hi).toInt ∧ (clamp v lo hi).toInt ≤ hi.toInt := by
  rw [clamp_toInt]
  split
  · exact ⟨le_rfl, h⟩
  · split <;> omega

theorem trunc32_toNat_le {n : Nat} {v : BitVec n} {b : Nat} (h0 : 0 ≤ v.toInt) (hb : v.toInt ≤ b) :
    (trunc32 v).toNat ≤ b := by
  have htrunc : (trunc32 v).toNat ≤ v.toNat := by
    rw [trunc32, BitVec.toNat_setWidth]
    exact Nat.mod_le _ _
  have hv : v.toInt = v.toNat := by
    have hlt := v.isLt
    rw [BitVec.toInt_eq_toNat_cond] at h0 ⊢
    split at h0 <;> omega
  omega

/-- The clamp and the shift by 12 keep `H_OUT` within 100.0 %RH, at either width. -/
theorem humidity_toNat_le (w : Width) (adcH : Half) (tfine : Word) (c : Calibration) :
    (humidity w.bits adcH tfine c).toNat ≤ 102400 := by
  have hlo : (0 : BitVec w.bits).toInt = 0 := by cases w <;> rfl
  have hhi : (419430400 : BitVec w.bits).toInt = 419430400 := by cases w <;> rfl
  have hclamp := clamp_toInt_mem (humUnclamped w.bits adcH tfine c)
    (lo := (0 : BitVec w.bits)) (hi := 419430400) (by omega)
  rw [humidity]
  apply trunc32_toNat_le <;> rw [asr_toInt] <;> omega

theorem sext12_toInt_mem (v : BitVec 12) : -2048 ≤ (sext12 v).toInt ∧ (sext12 v).toInt ≤ 2047 := by
  rw [sext12, BitVec.toInt_signExtend_of_le (by decide)]
  have hlo := BitVec.le_toInt v
  have hhi := BitVec.toInt_lt (x := v)
  omega

end Sys2Proof.Machine

namespace Sys2Proof.Safety

open Sys2Proof Sys2Proof.Machine

/-! ### The invariants of R36, write by write -/

section Writes

variable {s : State}

theorem flagsOrdered_of_status_zero (h : s.status = Status.zero) : FlagsOrdered s := by
  constructor <;> simp [h, Status.zero]

theorem FlagsOrdered.consume (h : FlagsOrdered s) (n : Nat) : FlagsOrdered (s.consume n) := { h with }

theorem FlagsOrdered.raise (h : FlagsOrdered s) (e : ErrCode) : FlagsOrdered (s.raise e) := { h with }

theorem FlagsOrdered.succeed (h : FlagsOrdered s) : FlagsOrdered s.succeed := { h with }

theorem FlagsOrdered.loadCal (h : FlagsOrdered s) (c : Calibration) : FlagsOrdered (s.loadCal c) :=
  { h with rawv_needs_calv := fun _ => rfl }

theorem FlagsOrdered.loadRaw (hc : s.status.calv = true) (r : RawSample) : FlagsOrdered (s.loadRaw r) where
  tfv_needs_rawv := nofun
  rawv_needs_calv _ := hc
  tv_needs_tfv := nofun
  pv_needs_tfv := nofun
  hv_needs_tfv := nofun
  hOut_in_range := nofun

theorem FlagsOrdered.writeTemp (h : FlagsOrdered s) (hr : s.status.rawv = true) (x y : Word) (z : Binary32) :
    FlagsOrdered (s.writeTemp x y z) :=
  { h with
    tfv_needs_rawv := fun _ => hr
    tv_needs_tfv := fun _ => rfl
    pv_needs_tfv := fun _ => rfl
    hv_needs_tfv := fun _ => rfl }

theorem FlagsOrdered.writePres (h : FlagsOrdered s) (ht : s.status.tfv = true) (x : Word) (z : Binary32) :
    FlagsOrdered (s.writePres x z) :=
  { h with pv_needs_tfv := fun _ => ht }

theorem FlagsOrdered.writeHum (h : FlagsOrdered s) (ht : s.status.tfv = true) {x : Word} (hx : x.toNat ≤ 102400)
    (z : Binary32) : FlagsOrdered (s.writeHum x z) :=
  { h with hv_needs_tfv := fun _ => ht, hOut_in_range := fun _ => hx }

end Writes

/-! ### Every command keeps the invariants of R36 -/

section Commands

variable {s : State}

theorem FlagsOrdered.compTBody (h : FlagsOrdered s) (hr : s.status.rawv = true) (P : Params) :
    FlagsOrdered (compTBody P s) := by
  rw [compTBody_eq]
  exact h.writeTemp hr _ _ _

theorem FlagsOrdered.compPBody (h : FlagsOrdered s) (ht : s.status.tfv = true) (P : Params) :
    FlagsOrdered (compPBody P s) := by
  rw [compPBody_eq]
  exact h.writePres ht _ _

theorem FlagsOrdered.compHBody (h : FlagsOrdered s) (ht : s.status.tfv = true) (P : Params) :
    FlagsOrdered (compHBody P s) := by
  rw [compHBody_eq]
  exact h.writeHum ht (humidity_toNat_le P.humWidth _ _ _) _

theorem FlagsOrdered.measureBody (hc : s.status.calv = true) (P : Params) (v : Vector Byte 8) :
    FlagsOrdered (measureBody P v s) := by
  have hraw : FlagsOrdered (rawLoadBody v s) := .loadRaw hc _
  have htemp := hraw.compTBody (by simp) P
  have hpres := htemp.compPBody (by simp) P
  exact hpres.compHBody (by simp) P

/-- The order of R36 is kept because a command's check asks for the flags its body's flags depend on. -/
theorem FlagsOrdered.bodyOf (h : FlagsOrdered s) {i : Instr} (hi : checkOf i s.status = none) :
    FlagsOrdered (bodyOf i s) := by
  cases i with
  | nop => exact h
  | calLoad a b => exact h.loadCal _
  | rawLoad v => exact .loadRaw (Status.needCal_eq_none.1 hi) _
  | compT => exact h.compTBody (Status.needRaw_eq_none.1 hi).2 _
  | compP =>
    obtain ⟨-, -, ht⟩ := Status.needTfine_eq_none.1 hi
    exact h.compPBody ht _
  | compH =>
    obtain ⟨-, -, ht⟩ := Status.needTfine_eq_none.1 hi
    exact h.compHBody ht _
  | measure v => exact .measureBody (Status.needCal_eq_none.1 hi) _ v

end Commands

/-- Settles O41: a command's check asks for the flags that its body's flags depend on (`FlagsOrdered.bodyOf`), and
nothing else in a step sets a flag. -/
theorem stepKeepsFlagsOrdered : Obligations.StepKeepsFlagsOrdered := by
  unfold Obligations.StepKeepsFlagsOrdered
  intro s t hs h
  refine step_keeps (fun s => ?_) (fun _ n h => h.consume n) (fun _ e h => h.raise e)
    (fun _ _ h hi => (h.bodyOf hi).succeed) hs h
  exact flagsOrdered_of_status_zero s.takeReset_status

/-- Settles O42: `State.reset` meets R36 under any input, and every step keeps it (O41). -/
theorem reachableStatesKeepFlagsOrdered : Obligations.ReachableStatesKeepFlagsOrdered := by
  unfold Obligations.ReachableStatesKeepFlagsOrdered
  intro input k t h
  exact run_keeps stepKeepsFlagsOrdered k (flagsOrdered_of_status_zero rfl) h

/-! ### The range of `dig_H4` and `dig_H5` (R106) -/

theorem packedInRange_of_cal_eq {s t : State} (hs : PackedInRange s) (h : t.cal = s.cal) : PackedInRange t := by
  obtain ⟨h4_low, h4_high, h5_low, h5_high⟩ := hs
  exact ⟨h ▸ h4_low, h ▸ h4_high, h ▸ h5_low, h ▸ h5_high⟩

theorem packedInRange_of_cal_zero {s : State} (h : s.cal = Calibration.zero) : PackedInRange s := by
  constructor <;> rw [h] <;> decide

/-- The coefficients that CAL_LOAD decodes are in range, whatever the bytes. -/
theorem packedInRange_calLoadBody (a : Vector Byte 26) (b : Vector Byte 7) (s : State) :
    PackedInRange (calLoadBody a b s) where
  h4_low := (sext12_toInt_mem _).1
  h4_high := (sext12_toInt_mem _).2
  h5_low := (sext12_toInt_mem _).1
  h5_high := (sext12_toInt_mem _).2

theorem PackedInRange.bodyOf {s : State} (h : PackedInRange s) (i : Instr) : PackedInRange (bodyOf i s) := by
  cases i with
  | calLoad a b => exact packedInRange_calLoadBody a b s
  | _ => exact packedInRange_of_cal_eq h (bodyOf_cal _ s)

/-- Settles O43: CAL_LOAD alone writes coefficients, and what it decodes into these two is sign-extended from 12 bits.
-/
theorem stepKeepsPackedCoefficientsInRange : Obligations.StepKeepsPackedCoefficientsInRange := by
  unfold Obligations.StepKeepsPackedCoefficientsInRange
  intro s t hs h
  refine step_keeps (fun s => ?_) (fun s n h => ?_) (fun s e h => ?_) (fun s i h _ => ?_) hs h
  · exact packedInRange_of_cal_zero s.takeReset_cal
  · exact packedInRange_of_cal_eq h (s.consume_cal n)
  · exact packedInRange_of_cal_eq h (s.raise_cal e)
  · exact packedInRange_of_cal_eq (h.bodyOf i) (State.succeed_cal _)

/-- Settles O3: every flag is 0 at reset, and `dig_H4` and `dig_H5` are the model's 0. -/
theorem resetMeetsEveryInvariant : Obligations.ResetMeetsEveryInvariant := by
  unfold Obligations.ResetMeetsEveryInvariant
  refine ⟨flagsOrdered_of_status_zero rfl, packedInRange_of_cal_zero rfl, ?_⟩
  exact ⟨nofun, nofun, nofun, nofun, nofun, nofun, nofun⟩

end Sys2Proof.Safety
end

