-- ==== Sys2Proof/Proofs/Noninterference.lean ====
section
/-!
PROOF of O46. Two states the host cannot tell apart are two states that agree in every register whose validity flag is
1. Every register write keeps that agreement, and a body reads only registers whose flags its command has checked.
-/
namespace Sys2Proof.Machine

open Sys2Proof Sys2Proof.Reference

/-- Two states agree in `fi`, STATUS and input, and in every register whose validity flag is 1 (R38). -/
structure AgreeWhereValid (s t : State) : Prop where
  fi : s.fi = t.fi
  status : s.status = t.status
  host : s.host = t.host
  cal : s.status.calv = true → s.cal = t.cal
  raw : s.status.rawv = true → s.raw = t.raw
  tfine : s.status.tfv = true → s.tfine = t.tfine
  temp : s.status.tv = true → s.tOut = t.tOut ∧ s.tempC = t.tempC
  pres : s.status.pv = true → s.pOut = t.pOut ∧ s.presHpa = t.presHpa
  hum : s.status.hv = true → s.hOut = t.hOut ∧ s.humPct = t.humPct

section Agree

variable {s t : State}

/-! ### Agreement is what the host can see -/

/-- A read under the draw of zeros shows no more than a read under every draw. -/
theorem register_eq_of_sameToHost (h : SameToHost s t) {p : Port} (hp : p.holdsValue s.status = true) :
    p.register s = p.register t := by
  have hread := h.ports (fun _ => 0) p
  rwa [readPort, readPort, if_pos hp, if_pos (h.status ▸ hp)] at hread

theorem cal_eq_of_sameToHost (h : SameToHost s t) (hc : s.status.calv = true) : s.cal = t.cal := by
  have hreg : ∀ p : Port, p.holdsValue s.status = true → p.register s = p.register t :=
    fun p => register_eq_of_sameToHost h
  exact (Calibration.mk.injEq ..).mpr ⟨hreg .digT1 hc, hreg .digT2 hc, hreg .digT3 hc, hreg .digP1 hc, hreg .digP2 hc,
    hreg .digP3 hc, hreg .digP4 hc, hreg .digP5 hc, hreg .digP6 hc, hreg .digP7 hc, hreg .digP8 hc, hreg .digP9 hc,
    hreg .digH1 hc, hreg .digH2 hc, hreg .digH3 hc, hreg .digH4 hc, hreg .digH5 hc, hreg .digH6 hc⟩

theorem agreeWhereValid_of_sameToHost (h : SameToHost s t) : AgreeWhereValid s t := by
  have hreg : ∀ p : Port, p.holdsValue s.status = true → p.register s = p.register t :=
    fun p => register_eq_of_sameToHost h
  exact
    { h with
      cal := cal_eq_of_sameToHost h
      raw := fun hr => (RawSample.mk.injEq ..).mpr ⟨hreg .adcP hr, hreg .adcT hr, hreg .adcH hr⟩
      tfine := hreg .tfine
      temp := fun hv => ⟨hreg .tOut hv, hreg .tempC hv⟩
      pres := fun hv => ⟨hreg .pOut hv, hreg .presHpa hv⟩
      hum := fun hv => ⟨hreg .hOut hv, hreg .humPct hv⟩ }

theorem AgreeWhereValid.register_eq (h : AgreeWhereValid s t) {p : Port} (hp : p.holdsValue s.status = true) :
    p.register s = p.register t := by
  cases p
  case tfine => exact h.tfine hp
  case tOut => exact (h.temp hp).1
  case tempC => exact (h.temp hp).2
  case pOut => exact (h.pres hp).1
  case presHpa => exact (h.pres hp).2
  case hOut => exact (h.hum hp).1
  case humPct => exact (h.hum hp).2
  case status => exact congrArg Status.word h.status
  case adcP | adcT | adcH => rw [Port.register, Port.register, h.raw hp]
  all_goals rw [Port.register, Port.register, h.cal hp]

theorem AgreeWhereValid.sameToHost (h : AgreeWhereValid s t) : SameToHost s t where
  fi := h.fi
  status := h.status
  host := h.host
  ports draw p := by
    unfold readPort
    rw [← h.status]
    split
    case isTrue hp => exact h.register_eq hp
    case isFalse => rfl

/-! ### Every write keeps the agreement -/

theorem AgreeWhereValid.consume (h : AgreeWhereValid s t) (n : Nat) : AgreeWhereValid (s.consume n) (t.consume n) :=
  { h with host := congrArg (List.drop n) h.host }

theorem AgreeWhereValid.raise (h : AgreeWhereValid s t) (e : ErrCode) : AgreeWhereValid (s.raise e) (t.raise e) :=
  { h with fi := congrArg (· + 1) h.fi, status := congrArg (Status.fail e) h.status }

theorem AgreeWhereValid.succeed (h : AgreeWhereValid s t) : AgreeWhereValid s.succeed t.succeed :=
  { h with fi := congrArg (· + 1) h.fi, status := congrArg Status.succeed h.status }

theorem AgreeWhereValid.loadCal (h : AgreeWhereValid s t) (c : Calibration) :
    AgreeWhereValid (s.loadCal c) (t.loadCal c) :=
  { h with status := congrArg Status.markCal h.status, cal := fun _ => rfl }

theorem AgreeWhereValid.loadRaw (h : AgreeWhereValid s t) (r : RawSample) :
    AgreeWhereValid (s.loadRaw r) (t.loadRaw r) :=
  { h with
    status := congrArg Status.startCycle h.status
    raw := fun _ => rfl
    tfine := nofun
    temp := nofun
    pres := nofun
    hum := nofun }

theorem AgreeWhereValid.writeTemp (h : AgreeWhereValid s t) (x y : Word) (z : Binary32) :
    AgreeWhereValid (s.writeTemp x y z) (t.writeTemp x y z) :=
  { h with status := congrArg Status.markTemp h.status, tfine := fun _ => rfl, temp := fun _ => ⟨rfl, rfl⟩ }

theorem AgreeWhereValid.writePres (h : AgreeWhereValid s t) (x : Word) (z : Binary32) :
    AgreeWhereValid (s.writePres x z) (t.writePres x z) :=
  { h with status := congrArg Status.markPres h.status, pres := fun _ => ⟨rfl, rfl⟩ }

theorem AgreeWhereValid.writeHum (h : AgreeWhereValid s t) (x : Word) (z : Binary32) :
    AgreeWhereValid (s.writeHum x z) (t.writeHum x z) :=
  { h with status := congrArg Status.markHum h.status, hum := fun _ => ⟨rfl, rfl⟩ }

/-! ### The datapath reads what holds a value only -/

theorem AgreeWhereValid.compTBody (h : AgreeWhereValid s t) (hc : s.status.calv = true) (hr : s.status.rawv = true)
    (P : Params) : AgreeWhereValid (compTBody P s) (compTBody P t) := by
  rw [compTBody_eq, compTBody_eq, h.cal hc, h.raw hr]
  exact h.writeTemp _ _ _

theorem AgreeWhereValid.compPBody (h : AgreeWhereValid s t) (hc : s.status.calv = true) (hr : s.status.rawv = true)
    (ht : s.status.tfv = true) (P : Params) : AgreeWhereValid (compPBody P s) (compPBody P t) := by
  rw [compPBody_eq, compPBody_eq, h.cal hc, h.raw hr, h.tfine ht]
  exact h.writePres _ _

theorem AgreeWhereValid.compHBody (h : AgreeWhereValid s t) (hc : s.status.calv = true) (hr : s.status.rawv = true)
    (ht : s.status.tfv = true) (P : Params) : AgreeWhereValid (compHBody P s) (compHBody P t) := by
  rw [compHBody_eq, compHBody_eq, h.cal hc, h.raw hr, h.tfine ht]
  exact h.writeHum _ _

theorem AgreeWhereValid.measureBody (h : AgreeWhereValid s t) (hc : s.status.calv = true) (P : Params)
    (v : Vector Byte 8) : AgreeWhereValid (measureBody P v s) (measureBody P v t) := by
  have hraw : AgreeWhereValid (rawLoadBody v s) (rawLoadBody v t) := h.loadRaw _
  have htemp := hraw.compTBody (by simpa using hc) (by simp) P
  have hpres := htemp.compPBody (by simpa using hc) (by simp) (by simp) P
  exact hpres.compHBody (by simpa using hc) (by simp) (by simp) P

/-- A command's check asks for the flags of every register its body reads. -/
theorem AgreeWhereValid.bodyOf (h : AgreeWhereValid s t) {i : Instr} (hi : checkOf i s.status = none) :
    AgreeWhereValid (bodyOf i s) (bodyOf i t) := by
  cases i with
  | nop => exact h
  | calLoad a b => exact h.loadCal _
  | rawLoad v => exact h.loadRaw _
  | compT =>
    obtain ⟨hc, hr⟩ := Status.needRaw_eq_none.1 hi
    exact h.compTBody hc hr _
  | compP =>
    obtain ⟨hc, hr, ht⟩ := Status.needTfine_eq_none.1 hi
    exact h.compPBody hc hr ht _
  | compH =>
    obtain ⟨hc, hr, ht⟩ := Status.needTfine_eq_none.1 hi
    exact h.compHBody hc hr ht _
  | measure v => exact h.measureBody (Status.needCal_eq_none.1 hi) _ v

/-! ### Commands and steps from states that agree -/

theorem AgreeWhereValid.exec (h : AgreeWhereValid s t) (i : Instr) :
    ∃ s' t', exec i s = .next s' ∧ exec i t = .next t' ∧ AgreeWhereValid s' t' := by
  have hstatus := h.status
  cases hi : checkOf i s.status with
  | none => exact ⟨_, _, exec_of_checkOf_none hi, exec_of_checkOf_none (hstatus ▸ hi), (h.bodyOf hi).succeed⟩
  | some e => exact ⟨_, _, exec_of_checkOf_some hi, exec_of_checkOf_some (hstatus ▸ hi), h.raise e⟩

theorem AgreeWhereValid.takeReset_eq (h : AgreeWhereValid s t) : s.takeReset = t.takeReset := by
  rw [State.takeReset, State.takeReset, h.host]

theorem agreeWhereValid_rfl (s : State) : AgreeWhereValid s s :=
  ⟨rfl, rfl, rfl, fun _ => rfl, fun _ => rfl, fun _ => rfl, fun _ => ⟨rfl, rfl⟩, fun _ => ⟨rfl, rfl⟩,
    fun _ => ⟨rfl, rfl⟩⟩

theorem AgreeWhereValid.step (h : AgreeWhereValid s t) :
    (∃ s' t', step s = .next s' ∧ step t = .next t' ∧ AgreeWhereValid s' t') ∨
    (∃ r, step s = .refused r ∧ step t = .refused r) := by
  have hhost := h.host
  cases hs : s.host with
  | nil => exact .inl ⟨s, t, step_of_host_nil hs, step_of_host_nil (hhost ▸ hs), h⟩
  | cons x rest =>
    have ht : t.host = x :: rest := hhost ▸ hs
    cases x with
    | reset => exact .inl ⟨_, _, step_of_host_reset hs, h.takeReset_eq ▸ step_of_host_reset ht, agreeWhereValid_rfl _⟩
    | contend => exact .inr ⟨_, step_of_host_contend hs, step_of_host_contend ht⟩
    | byte b =>
      cases hd : decode (frameBytes s.host) with
      | instr i bs =>
        rw [step_of_decode_instr hd, step_of_decode_instr (hhost ▸ hd)]
        exact .inl ((h.consume _).exec i)
      | rejected e =>
        cases e with
        | noFrame =>
          rw [hs] at hd
          exact absurd hd (decode_cons_ne_noFrame _ _)
        | illegalOpcode opc =>
          exact .inl ⟨_, _, step_of_decode_illegal hd, step_of_decode_illegal (hhost ▸ hd),
            (h.consume 1).raise .illegal⟩
        | incompleteFrame =>
          exact .inr ⟨_, step_of_decode_incomplete hd, step_of_decode_incomplete (hhost ▸ hd)⟩

end Agree

/-- Settles O46: the host sees exactly the registers whose flag is 1 (`AgreeWhereValid`), and a command's check asks for
the flags of every register its body reads (`AgreeWhereValid.bodyOf`). -/
theorem unwrittenRegistersReachNoResult : Obligations.UnwrittenRegistersReachNoResult := by
  unfold Obligations.UnwrittenRegistersReachNoResult
  intro s t h
  obtain ⟨s', t', hs, ht, h'⟩ | hrefused := (agreeWhereValid_of_sameToHost h).step
  · exact .inl ⟨s', t', hs, ht, h'.sameToHost⟩
  · exact .inr hrefused

end Sys2Proof.Machine
end

