-- ==== Sys2Proof/Proofs/StateRules.lean ====
section
/-!
PROOFS of the rules of 10_state.md for single fields: the frame index, the ports, the STATUS word, each flag and each
register.
-/
namespace Sys2Proof.Machine

open Sys2Proof Sys2Proof.Reference

/-! ### The frame index (R21) -/

/-- Settles O11: a body leaves `fi` and the input alone and the end of a command adds one (`exec_fi`); an illegal opcode
ends as an error does. -/
theorem everyCommandAdvancesTheFrameIndex : Obligations.EveryCommandAdvancesTheFrameIndex := by
  unfold Obligations.EveryCommandAdvancesTheFrameIndex
  constructor
  · intro i s
    obtain ⟨t, ht⟩ := exec_completes i s
    exact ⟨t, ht, exec_fi ht, exec_host ht⟩
  · intro s b rest hb hs
    exact ⟨s.takeIllegal, step_of_not_legalOpcode hb hs, rfl, by simp [State.takeIllegal, hs]⟩

/-! ### Port reads (R37, R38) -/

theorem readPort_of_holdsValue {s : State} {p : Port} (draw : Draw) (h : p.holdsValue s.status = true) :
    readPort draw s p = p.register s := if_pos h

theorem readPort_of_not_holdsValue {s : State} {p : Port} (draw : Draw) (h : p.holdsValue s.status = false) :
    readPort draw s p = draw p := if_neg (by simp [h])

theorem Port.holdsValue_zero {p : Port} (hp : p ≠ .status) : p.holdsValue Status.zero = false := by
  cases p
  case status => exact absurd rfl hp
  all_goals rfl

theorem Port.holdsValue_of_all_flags {st : Status} (hc : st.calv = true) (hr : st.rawv = true) (hf : st.tfv = true)
    (ht : st.tv = true) (hp : st.pv = true) (hh : st.hv = true) (p : Port) : p.holdsValue st = true := by
  cases p
  case status => rfl
  all_goals assumption

/-- Settles O45: port by port, by the definitions of the register and of the flag behind it. -/
theorem portsAnswerUnderTheirFlags : Obligations.PortsAnswerUnderTheirFlags := by
  unfold Obligations.PortsAnswerUnderTheirFlags
  intro draw s p
  cases p <;> rfl

/-- Settles O1: with STATUS 0 no port but STATUS holds a value. -/
theorem resetLeavesNoDataValue : Obligations.ResetLeavesNoDataValue := by
  unfold Obligations.ResetLeavesNoDataValue
  exact ⟨rfl, rfl, fun draw _ hp => readPort_of_not_holdsValue draw (Port.holdsValue_zero hp)⟩

/-- Settles O32: CALV is asked for, and the body of MEASURE sets the five other flags. -/
theorem measureMakesEveryPortReadable : Obligations.MeasureMakesEveryPortReadable := by
  unfold Obligations.MeasureMakesEveryPortReadable
  intro v s hc
  refine ⟨_, exec_of_checkOf_none (Status.needCal_eq_none.2 hc), fun draw p => readPort_of_holdsValue draw ?_⟩
  rw [State.succeed_status, bodyOf_status]
  apply Port.holdsValue_of_all_flags
  · exact hc
  all_goals rfl

/-! ### The STATUS word (R28, R35) -/

theorem Status.word_bits (st : Status) :
    st.word.getLsbD 0 = st.calv ∧ st.word.getLsbD 1 = st.rawv ∧ st.word.getLsbD 2 = st.tfv ∧
    st.word.getLsbD 3 = st.tv ∧ st.word.getLsbD 4 = st.pv ∧ st.word.getLsbD 5 = st.hv ∧
    st.word.getLsbD 6 = false ∧ st.word.getLsbD 7 = st.estky := by
  simp only [Status.word, BitVec.getLsbD_append, BitVec.getLsbD_ofBool]
  simp

/-- Above bit 7 STATUS is the outcome code. -/
theorem Status.word_toNat_div (st : Status) : st.word.toNat / 256 = st.err.code.toNat := by
  have hword : st.word.toNat = st.err.code.toNat * 256 + st.estky.toNat * 128 + st.hv.toNat * 32 + st.pv.toNat * 16
      + st.tv.toNat * 8 + st.tfv.toNat * 4 + st.rawv.toNat * 2 + st.calv.toNat := by
    simp only [Status.word, append_toNat, BitVec.toNat_ofBool, BitVec.toNat_ofNat]
    omega
  have := st.estky.toNat_lt
  have := st.hv.toNat_lt
  have := st.pv.toNat_lt
  have := st.tv.toNat_lt
  have := st.tfv.toNat_lt
  have := st.rawv.toNat_lt
  have := st.calv.toNat_lt
  omega

theorem ErrCode.code_toNat_le (e : ErrCode) : e.code.toNat ≤ 5 := by
  cases e <;> decide

/-- Settles O34: bit by bit below the code (`Status.word_bits`), and the code alone above (`Status.word_toNat_div`). -/
theorem statusWordLayout : Obligations.StatusWordLayout := by
  unfold Obligations.StatusWordLayout
  intro s
  obtain ⟨h0, h1, h2, h3, h4, h5, h6, h7⟩ := s.status.word_bits
  have hdiv := s.status.word_toNat_div
  have hle := s.status.err.code_toNat_le
  refine ⟨h0, h1, h2, h3, h4, h5, h6, h7, by omega, by omega, ?_⟩
  rw [hdiv]
  cases s.status.err <;> rfl

/-! ### The flags (R29 to R33) -/

theorem bodyOf_keeps_calv {s : State} (h : s.status.calv = true) (i : Instr) : (bodyOf i s).status.calv = true := by
  rw [bodyOf_status]
  cases i <;> simp [h]

theorem bodyOf_keeps_rawv {s : State} (h : s.status.rawv = true) (i : Instr) : (bodyOf i s).status.rawv = true := by
  rw [bodyOf_status]
  cases i <;> simp [h]

/-- Settles O35: by CAL_LOAD's own write, by `step_clears_flag`, and by the checks' first branch. -/
theorem calvRule : Obligations.CalvRule := by
  unfold Obligations.CalvRule
  refine ⟨fun a b s hc => ?_, fun s t h hs ht => ?_, fun s v hc => ?_⟩
  · exact ⟨_, exec_of_checkOf_none (Status.needUnlocked_eq_none.2 hc), rfl⟩
  · exact step_clears_flag (flag := Status.calv) (fun _ _ h => h) (fun i _ h => bodyOf_keeps_calv h i) h hs ht
  · have hcal := Status.needCal_noCal hc
    have htfine := Status.needTfine_noCal hc
    exact ⟨raises_of_checkOf hcal, raises_of_checkOf (Status.needRaw_noCal hc), raises_of_checkOf htfine,
      raises_of_checkOf htfine, raises_of_checkOf hcal⟩

/-- Settles O36: by the two commands' own writes, by `step_clears_flag`, and by the checks' second branch. -/
theorem rawvRule : Obligations.RawvRule := by
  unfold Obligations.RawvRule
  refine ⟨fun s v i hc hi => ?_, fun s t h hs ht => ?_, fun s hc hr => ?_⟩
  · have hcheck := Status.needCal_eq_none.2 hc
    obtain rfl | rfl := hi
    · exact ⟨_, exec_of_checkOf_none hcheck, rfl⟩
    · exact ⟨_, exec_of_checkOf_none hcheck, rfl⟩
  · exact step_clears_flag (flag := Status.rawv) (fun _ _ h => h) (fun i _ h => bodyOf_keeps_rawv h i) h hs ht
  · have htfine := Status.needTfine_noRaw hc hr
    exact ⟨raises_of_checkOf (Status.needRaw_noRaw hc hr), raises_of_checkOf htfine, raises_of_checkOf htfine⟩

/-- Settles O37: what each body does to the flag is `bodyOf_status`; an error writes no flag but ESTKY. -/
theorem tfvRule : Obligations.TfvRule := by
  unfold Obligations.TfvRule
  refine ⟨fun i s t h hok => ?_, fun i s t h herr => ?_, fun s t rest hs h => ?_, fun s hc hr ht => ?_⟩
  · obtain ⟨-, rfl⟩ := exec_of_ok h hok
    rw [State.succeed_status, bodyOf_status]
    cases i <;> rfl
  · obtain ⟨e, -, rfl⟩ := exec_of_error h herr
    rfl
  · cases (step_of_host_reset hs).symm.trans h
    rfl
  · have htfine := Status.needTfine_noTfine hc hr ht
    exact ⟨raises_of_checkOf htfine, raises_of_checkOf htfine⟩

/-- Settles O38: what each body does to the flags is `bodyOf_status`; a port whose flag is 0 answers the draw. -/
theorem resultFlagsRule : Obligations.ResultFlagsRule := by
  unfold Obligations.ResultFlagsRule
  refine ⟨fun i s t h hok => ?_, fun s t rest hs h => ?_, fun draw s => ⟨?_, ?_, ?_⟩⟩
  · obtain ⟨-, rfl⟩ := exec_of_ok h hok
    rw [State.succeed_status, bodyOf_status]
    cases i <;> rfl
  · cases (step_of_host_reset hs).symm.trans h
    rfl
  all_goals exact fun h => ⟨readPort_of_not_holdsValue draw h, readPort_of_not_holdsValue draw h⟩

/-- Settles O39: an error sets ESTKY with a code that is not OK, and a success leaves ESTKY alone and writes OK. -/
theorem estkyRecordsEveryError : Obligations.EstkyRecordsEveryError := by
  unfold Obligations.EstkyRecordsEveryError
  refine ⟨fun i s t h => ?_, fun s b rest hb hs => ?_, fun s t h hs ht => ?_⟩
  · obtain ⟨e, he, rfl⟩ | ⟨-, rfl⟩ := exec_cases h
    · have hne : e ≠ .ok := fun hok => checkOf_ne_ok i s.status (hok ▸ he)
      simp [hne]
    · simp
  · exact ⟨_, step_of_not_legalOpcode (legalOpcode_of_illegalRange hb) hs, rfl⟩
  · refine step_clears_flag (flag := Status.estky) (fun _ _ _ => rfl) (fun i s h => ?_) h hs ht
    simpa using h

/-! ### The registers (R23 to R27) -/

/-- Settles O40: an error writes no data register, and a success writes those of its body. -/
theorem onlyItsWritersChangeARegister : Obligations.OnlyItsWritersChangeARegister := by
  unfold Obligations.OnlyItsWritersChangeARegister
  intro i s t h
  obtain ⟨e, -, rfl⟩ | ⟨hcheck, rfl⟩ := exec_cases h
  · simp
  · cases i with
    | calLoad a b => simp [bodyOf, Status.needUnlocked_eq_none.1 hcheck]
    | measure v => simp [bodyOf, measureBody_eq]
    | _ => simp [bodyOf]

end Sys2Proof.Machine
end

