-- ==== Sys2Proof/Proofs/Schedule.lean ====
section
/-!
The order in which the host presents frames (20_memory.md).
-/
namespace Sys2Proof.Machine

open Sys2Proof

/-- Settles O9: the engine's fetch is stuck on a contending entry (`step_of_host_contend`), whatever else it holds. -/
theorem contendingFrameHasNoStep : Obligations.ContendingFrameHasNoStep := by
  unfold Obligations.ContendingFrameHasNoStep
  exact fun _ _ hs => step_of_host_contend hs

end Sys2Proof.Machine
end

