-- ==== Sys2Proof/Proofs/Encoding.lean ====
section
/-!
The encoding of commands (30_encoding.md): `decode` and `encode` undo each other, the decoder agrees with the opcode
table of R73, and what a step does with the bytes presented follows from what they decode to.
-/
namespace Sys2Proof

/-! ### The decoder's blocks on whole operands -/

theorem decodeCalLoad_append (a : Vector Byte 26) (b : Vector Byte 7) (rest : List Byte) :
    decodeCalLoad (a.toList ++ b.toList ++ rest) = .instr (.calLoad a b) rest := by
  simp [decodeCalLoad, List.append_assoc, takeBytes_append]

theorem decodeBurst_append (mk : Vector Byte 8 → Instr) (v : Vector Byte 8) (rest : List Byte) :
    decodeBurst mk (v.toList ++ rest) = .instr (mk v) rest := by
  simp [decodeBurst, takeBytes_append]

/-- All a CAL_LOAD frame can be read as: the two blocks its operand bytes are. -/
theorem decodeCalLoad_eq_instr {bs rest : List Byte} {i : Instr} (h : decodeCalLoad bs = .instr i rest) :
    ∃ a b, i = .calLoad a b ∧ bs = a.toList ++ b.toList ++ rest := by
  unfold decodeCalLoad at h
  split at h
  · cases h
  · next a bs' ha =>
    split at h
    · cases h
    · next b rest' hb =>
      cases h
      exact ⟨a, b, rfl, by rw [takeBytes_eq_some ha, takeBytes_eq_some hb, List.append_assoc]⟩

/-- All a RAW_LOAD or MEASURE frame can be read as: the burst its operand bytes are. -/
theorem decodeBurst_eq_instr {mk : Vector Byte 8 → Instr} {bs rest : List Byte} {i : Instr}
    (h : decodeBurst mk bs = .instr i rest) : ∃ v, i = mk v ∧ bs = v.toList ++ rest := by
  unfold decodeBurst at h
  split at h
  · cases h
  · next v rest' hv =>
    cases h
    exact ⟨v, rfl, takeBytes_eq_some hv⟩

/-! ### Decoding and encoding undo each other -/

theorem decode_encode_append (i : Instr) (rest : List Byte) : decode (encode i ++ rest) = .instr i rest := by
  cases i with
  | calLoad a b => exact decodeCalLoad_append a b rest
  | rawLoad v => exact decodeBurst_append .rawLoad v rest
  | measure v => exact decodeBurst_append .measure v rest
  | nop | compT | compP | compH => rfl

theorem eq_encode_append_of_decode {bs rest : List Byte} {i : Instr} (h : decode bs = .instr i rest) :
    bs = encode i ++ rest := by
  cases bs with
  | nil => cases h
  | cons opc bs =>
    simp only [decode] at h
    split at h
    case h_2 =>
      obtain ⟨a, b, rfl, rfl⟩ := decodeCalLoad_eq_instr h
      rfl
    case h_3 | h_7 =>
      obtain ⟨v, rfl, rfl⟩ := decodeBurst_eq_instr h
      rfl
    case h_8 => cases h
    all_goals
      cases h
      rfl

theorem decode_eq_instr_iff {bs rest : List Byte} {i : Instr} : decode bs = .instr i rest ↔ bs = encode i ++ rest :=
  ⟨eq_encode_append_of_decode, fun h => h ▸ decode_encode_append i rest⟩

/-- Settles O13: opcode by opcode, the operand bytes are taken back whole (`takeBytes_append`). -/
theorem decodeInvertsEncode : Obligations.DecodeInvertsEncode := by
  unfold Obligations.DecodeInvertsEncode
  exact decode_encode_append

/-- Settles O14: opcode by opcode, what `takeBytes` takes and leaves makes up the bytes (`takeBytes_eq_some`). -/
theorem encodeInvertsDecode : Obligations.EncodeInvertsDecode := by
  unfold Obligations.EncodeInvertsDecode
  exact fun _ _ _ => eq_encode_append_of_decode

/-! ### The decoder and R73's table -/

/-- The row a byte selects is one of the table's, and the byte is its opcode. -/
theorem opcodeRow_eq_some {opc : Byte} {r : OpcodeRow} (h : opcodeRow opc = some r) :
    r ∈ opcodeTable ∧ r.opc = opc :=
  ⟨List.mem_of_find?_eq_some h, by simpa using List.find?_some h⟩

theorem exists_vector_toList_eq {n : Nat} {bs : List Byte} (h : bs.length = n) : ∃ v : Vector Byte n, bs = v.toList :=
  ⟨⟨bs.toArray, by simpa using h⟩, by simp [Vector.toList]⟩

/-- A well-formed frame's first byte is the opcode of a row, and the row's number of operand bytes follows. -/
theorem wellFormedFrame_cons {opc : Byte} {bs : List Byte} (h : wellFormedFrame (opc :: bs) = true) :
    ∃ r ∈ opcodeTable, opc = r.opc ∧ bs.length = r.operandBytes := by
  simp only [wellFormedFrame] at h
  split at h
  · cases h
  · next r hr =>
    obtain ⟨hmem, hopc⟩ := opcodeRow_eq_some hr
    exact ⟨r, hmem, hopc.symm, by simpa using h⟩

/-- Operand bytes as many as a row of the table asks for make, after its opcode, the frame of a command. -/
theorem exists_encode_eq_of_mem_opcodeTable {r : OpcodeRow} (hr : r ∈ opcodeTable) {bs : List Byte}
    (hlen : bs.length = r.operandBytes) : ∃ i, r.opc :: bs = encode i := by
  simp only [opcodeTable, List.mem_cons, List.not_mem_nil, or_false] at hr
  obtain rfl | rfl | rfl | rfl | rfl | rfl | rfl := hr
  · exact ⟨.nop, by simpa using hlen⟩
  · obtain ⟨a, ha⟩ := exists_vector_toList_eq (n := 26) (bs := bs.take 26) (by simp [hlen])
    obtain ⟨b, hb⟩ := exists_vector_toList_eq (n := 7) (bs := bs.drop 26) (by simp [hlen])
    exact ⟨.calLoad a b, by simp [← ha, ← hb]⟩
  · obtain ⟨v, rfl⟩ := exists_vector_toList_eq hlen
    exact ⟨.rawLoad v, rfl⟩
  · exact ⟨.compT, by simpa using hlen⟩
  · exact ⟨.compP, by simpa using hlen⟩
  · exact ⟨.compH, by simpa using hlen⟩
  · obtain ⟨v, rfl⟩ := exists_vector_toList_eq hlen
    exact ⟨.measure v, rfl⟩

theorem wellFormedFrame_encode (i : Instr) : wellFormedFrame (encode i) = true := by
  cases i with
  | calLoad a b => simp [wellFormedFrame, opcodeRow_calLoad]
  | rawLoad v => simp [wellFormedFrame, opcodeRow_rawLoad]
  | measure v => simp [wellFormedFrame, opcodeRow_measure]
  | nop | compT | compP | compH => rfl

/-- The well-formed byte strings are the frames of commands. -/
theorem wellFormedFrame_iff_exists_encode (bs : List Byte) : wellFormedFrame bs = true ↔ ∃ i, bs = encode i := by
  constructor
  · intro h
    cases bs with
    | nil => cases h
    | cons opc bs =>
      obtain ⟨r, hr, rfl, hlen⟩ := wellFormedFrame_cons h
      exact exists_encode_eq_of_mem_opcodeTable hr hlen
  · rintro ⟨i, rfl⟩
    exact wellFormedFrame_encode i

/-- Settles O15: both sides say that the bytes are the frame of a command. -/
theorem decoderAcceptsExactlyWellFormedFrames : Obligations.DecoderAcceptsExactlyWellFormedFrames := by
  unfold Obligations.DecoderAcceptsExactlyWellFormedFrames
  intro bs
  simp only [decode_eq_instr_iff, List.append_nil]
  exact (wellFormedFrame_iff_exists_encode bs).symm

/-- Settles O12: each word is evaluated. -/
theorem sampleWordsDecode : Obligations.SampleWordsDecode := by
  unfold Obligations.SampleWordsDecode
  decide

/-! ### Frames that end early (R82) -/

theorem decode_take_encode (i : Instr) {k : Nat} (hpos : 0 < k) (hk : k < (encode i).length) :
    decode ((encode i).take k) = .rejected .incompleteFrame := by
  obtain ⟨k, rfl⟩ := Nat.exists_eq_add_one_of_ne_zero hpos.ne'
  cases i with
  | calLoad a b => exact decodeCalLoad_short (by simp at hk ⊢; omega)
  | rawLoad v => exact decodeBurst_short (by simp at hk ⊢; omega)
  | measure v => exact decodeBurst_short (by simp at hk ⊢; omega)
  | nop | compT | compP | compH => simp at hk

end Sys2Proof

namespace Sys2Proof.Machine

open Sys2Proof Sys2Proof.Reference

/-! ### What a step does with the bytes presented -/

/-- Settles O4: the fetch consumes the decoded command's frame length (`step_of_decode_instr`). -/
theorem stepRunsTheDecodedCommand : Obligations.StepRunsTheDecodedCommand := by
  unfold Obligations.StepRunsTheDecodedCommand
  exact fun _ _ _ => step_of_decode_instr

/-- Settles O5: the bytes decode to the command (`decode_encode_append`), and its frame is as long as its bytes. -/
theorem presentedFrameIsExecuted : Obligations.PresentedFrameIsExecuted := by
  unfold Obligations.PresentedFrameIsExecuted
  intro s i rest hs
  have hd : decode (frameBytes s.host) = .instr i (frameBytes rest) := by
    rw [hs, frameBytes_map_append, decode_encode_append]
  have hdrop : s.host.drop (frameLength i) = rest := by simp [hs, frameLength]
  rw [step_of_decode_instr hd, State.consume, hdrop]

/-- Settles O7: a frame cut short decodes as incomplete (`decode_take_encode`). -/
theorem incompleteFrameHasNoStep : Obligations.IncompleteFrameHasNoStep := by
  unfold Obligations.IncompleteFrameHasNoStep
  intro s i k hpos hk hs
  have hbytes : frameBytes s.host = (encode i).take k := by
    simpa [hs] using frameBytes_map_append ((encode i).take k) []
  exact step_of_decode_incomplete (hbytes ▸ decode_take_encode i hpos hk)

/-- Settles O8: the engine's fetch goes on with the state it finds (`step_of_host_nil`). -/
theorem idleEngineHoldsItsState : Obligations.IdleEngineHoldsItsState := by
  unfold Obligations.IdleEngineHoldsItsState
  exact fun _ => step_of_host_nil

/-! ### Illegal opcodes (R75, R202) -/

/-- R75's ranges are what R73's table leaves. -/
theorem illegalRange_iff_not_mem_opcodeTable (b : Byte) : IllegalRange b ↔ b ∉ opcodeTable.map OpcodeRow.opc := by
  simp only [IllegalRange, opcodeTable, List.map_cons, List.map_nil, List.mem_cons, List.not_mem_nil, or_false,
    ← BitVec.toNat_inj, BitVec.reduceToNat]
  have hb : b.toNat < 256 := b.isLt
  omega

/-- What an illegal opcode at the front of the input does: its byte is consumed, and the three writes of R201. -/
theorem State.takeIllegal_of_host {s : State} {x : HostInput} {rest : List HostInput} (hs : s.host = x :: rest) :
    s.takeIllegal =
      { s with host := rest, fi := s.fi + 1, status := { s.status with err := .illegal, estky := true } } := by
  simp [State.takeIllegal, State.consume, State.raise, Status.fail, hs]

/-- Settles O6: the table leaves R75's ranges, whose bytes are counted, and the step takes such a byte as illegal. -/
theorem illegalOpcodeRaisesIllegal : Obligations.IllegalOpcodeRaisesIllegal := by
  unfold Obligations.IllegalOpcodeRaisesIllegal
  refine ⟨illegalRange_iff_not_mem_opcodeTable, by decide +kernel, fun s b rest hb hs => ?_⟩
  rw [step_of_not_legalOpcode (legalOpcode_of_illegalRange hb) hs, State.takeIllegal_of_host hs]

end Sys2Proof.Machine
end

