-- ==== Sys2Proof/Proofs/Calibration.lean ====
section
/-!
The calibration register file (40_calibration.md): the value CAL_LOAD gives each coefficient, that byte 24 of block A
has no part in it, and that a loaded set stays as it is until reset.
-/
namespace Sys2Proof.Machine

open Sys2Proof Sys2Proof.Reference

/-! ### The operand forms of a coefficient -/

/-- A signed little-endian word (R53, R103). -/
theorem le16_toInt (lo hi : Byte) : (le16 lo hi).toInt = wrap 16 (lo.toNat + 256 * hi.toNat) := by
  rw [BitVec.toInt_eq_toNat_bmod, le16_toNat, wrap, Nat.add_comm]
  push_cast
  rfl

/-- `sext_12` keeps the value of its field (R106). -/
theorem sext12_toInt (v : BitVec 12) : (sext12 v).toInt = v.toInt :=
  BitVec.toInt_signExtend_of_le (by decide)

/-- A 12-bit field of a byte above a nibble, read modulo `2^12`. -/
theorem sext12_append_toInt_eq_wrap (hi : Byte) (lo : BitVec 4) :
    (sext12 (hi ++ lo)).toInt = wrap 12 (16 * hi.toNat + lo.toNat) := by
  rw [sext12_toInt, BitVec.toInt_eq_toNat_bmod, append_toNat, wrap, Nat.mul_comm]
  push_cast
  rfl

/-- A 12-bit field of a byte above a nibble has the sign of its byte. -/
theorem sext12_append_toInt (hi : Byte) (lo : BitVec 4) : (sext12 (hi ++ lo)).toInt = 16 * hi.toInt + lo.toNat := by
  rw [sext12_toInt, BitVec.toInt_append]
  rfl

theorem lowNibble_toNat (b : Byte) : (b.extractLsb' 0 4).toNat = b.toNat % 16 := by
  rw [BitVec.extractLsb'_toNat, Nat.shiftRight_zero]

theorem highNibble_toNat (b : Byte) : (b.extractLsb' 4 4).toNat = b.toNat / 16 := by
  rw [BitVec.extractLsb'_toNat, Nat.shiftRight_eq_div_pow]
  have hb := b.isLt
  omega

theorem packedH4_toInt_eq_wrap (b3 b4 : Byte) : (packedH4 b3 b4).toInt = wrap 12 (16 * b3.toNat + b4.toNat % 16) := by
  rw [packedH4, sext12_append_toInt_eq_wrap, lowNibble_toNat, Int.natCast_emod, Nat.cast_ofNat]

theorem packedH4_toInt (b3 b4 : Byte) : (packedH4 b3 b4).toInt = 16 * b3.toInt + b4.toNat % 16 := by
  rw [packedH4, sext12_append_toInt, lowNibble_toNat, Int.natCast_emod, Nat.cast_ofNat]

theorem packedH5_toInt_eq_wrap (b5 b4 : Byte) : (packedH5 b5 b4).toInt = wrap 12 (16 * b5.toNat + b4.toNat / 16) := by
  rw [packedH5, sext12_append_toInt_eq_wrap, highNibble_toNat, Int.natCast_ediv, Nat.cast_ofNat]

theorem packedH5_toInt (b5 b4 : Byte) : (packedH5 b5 b4).toInt = 16 * b5.toInt + b4.toNat / 16 := by
  rw [packedH5, sext12_append_toInt, highNibble_toNat, Int.natCast_ediv, Nat.cast_ofNat]

/-! ### CAL_LOAD (R101 to R108) -/

/-- Settles O19: CAL_LOAD writes what `decodeCalibration` makes of the two blocks, one operand form a coefficient. -/
theorem calLoadDecodesTheCoefficients : Obligations.CalLoadDecodesTheCoefficients := by
  unfold Obligations.CalLoadDecodesTheCoefficients
  intro a b s hc
  refine ⟨_, exec_of_checkOf_none (Status.needUnlocked_eq_none.2 hc), rfl, ?_⟩
  simp only [bodyOf, State.succeed_cal, calLoadBody_cal, decodeCalibration, le16_toNat, le16_toInt, Nat.add_comm,
    Nat.cast_ofNat, true_and, and_true]
  exact ⟨packedH4_toInt_eq_wrap _ _, packedH4_toInt _ _, packedH5_toInt_eq_wrap _ _, packedH5_toInt _ _⟩

/-- No coefficient is read from byte 24 of block A (R108). -/
theorem decodeCalibration_set_byte24 (a : Vector Byte 26) (b : Vector Byte 7) (x : Byte) :
    decodeCalibration (a.set 24 x) b = decodeCalibration a b := by
  simp [decodeCalibration]

/-- Settles O21: what CAL_LOAD does with its blocks goes through `decodeCalibration`, which does not read byte 24. -/
theorem calLoadIgnoresByte24 : Obligations.CalLoadIgnoresByte24 := by
  unfold Obligations.CalLoadIgnoresByte24
  intro a b x s
  have hbody : bodyOf (.calLoad (a.set 24 x) b) = bodyOf (.calLoad a b) :=
    funext fun s => congrArg s.loadCal (decodeCalibration_set_byte24 a b x)
  rw [exec_eq_command, exec_eq_command, hbody]
  rfl

/-! ### A loaded set (R102) -/

/-- With CALV set, no command that passes its check writes a coefficient: CAL_LOAD does not pass (R102). -/
theorem bodyOf_keeps_cal {i : Instr} {s : State} (hc : s.status.calv = true) (hi : checkOf i s.status = none) :
    (bodyOf i s).cal = s.cal := by
  rw [bodyOf_cal]
  cases i with
  | calLoad a b => simp [Status.needUnlocked_eq_none.1 hi] at hc
  | _ => rfl

/-- Settles O20: CAL_LOAD fails its check, an error writes no coefficient and no CALV, and neither does a body. -/
theorem loadedCalibrationIsImmutable : Obligations.LoadedCalibrationIsImmutable := by
  unfold Obligations.LoadedCalibrationIsImmutable
  refine ⟨fun a b s hc => raises_of_checkOf (Status.needUnlocked_eq_some.2 ⟨hc, rfl⟩), fun s t hc hreset h => ?_⟩
  obtain rfl | ⟨hs, -⟩ | ⟨n, e, rfl⟩ | ⟨n, i, hi, rfl⟩ := step_effects h
  · exact ⟨rfl, hc⟩
  · exact absurd hs hreset
  · exact ⟨rfl, hc⟩
  · have hc' : (s.consume n).status.calv = true := hc
    exact ⟨bodyOf_keeps_cal hc' hi, bodyOf_keeps_calv hc' i⟩

end Sys2Proof.Machine
end

