-- ==== Sys2Proof/Proofs/Currency.lean ====
section
/-!
PROOF of O44: no valid register is stale. A new sample, a new calibration and a reset leave no result flag set, so that
no register is claimed to be current; each computing command writes its own registers from what its inputs then hold;
and COMP_T, which also writes an input of the two others, writes it back as it was wherever they had read it.
-/
namespace Sys2Proof.Safety

open Sys2Proof Sys2Proof.Machine

/-! ### Every write of what is current leaves every valid register current -/

section Writes

variable {s : State}

/-- With TFV 0 there is no result to be stale: R36 has the other flags 0 too. -/
theorem FlagsOrdered.resultsCurrent_of_tfv_eq_false (hf : FlagsOrdered s) (ht : s.status.tfv = false) :
    ResultsCurrent s := by
  have hno : ¬ s.status.tfv = true := Bool.eq_false_iff.1 ht
  have htv := mt hf.tv_needs_tfv hno
  have hpv := mt hf.pv_needs_tfv hno
  have hhv := mt hf.hv_needs_tfv hno
  exact ⟨(absurd · hno), (absurd · htv), (absurd · htv), (absurd · hpv), (absurd · hpv), (absurd · hhv),
    (absurd · hhv)⟩

theorem ResultsCurrent.consume (h : ResultsCurrent s) (n : Nat) : ResultsCurrent (s.consume n) := { h with }

theorem ResultsCurrent.raise (h : ResultsCurrent s) (e : ErrCode) : ResultsCurrent (s.raise e) := { h with }

theorem ResultsCurrent.succeed (h : ResultsCurrent s) : ResultsCurrent s.succeed := { h with }

/-- Without calibration there is no result that a new one could make stale (R36). -/
theorem FlagsOrdered.resultsCurrent_loadCal (hf : FlagsOrdered s) (hc : s.status.calv = false) (c : Calibration) :
    ResultsCurrent (s.loadCal c) :=
  (hf.loadCal c).resultsCurrent_of_tfv_eq_false (Bool.eq_false_iff.2 fun ht =>
    Bool.eq_false_iff.1 hc (hf.rawv_needs_calv (hf.tfv_needs_rawv ht)))

/-- A new sample invalidates every result of the old one (R120). -/
theorem resultsCurrent_loadRaw (hc : s.status.calv = true) (r : RawSample) : ResultsCurrent (s.loadRaw r) :=
  (FlagsOrdered.loadRaw hc r).resultsCurrent_of_tfv_eq_false rfl

/-- A temperature computed from the current sample leaves the pressure and the humidity current: where one of them is
valid the fine temperature it was computed from was too, and it is the one written again (R137). -/
theorem ResultsCurrent.writeTemp (h : ResultsCurrent s) (hf : FlagsOrdered s) {fine centi : Word} {c : Binary32}
    (hfine : fine = trunc32 (tempFine Config.hardware.tempWidth.bits s.raw.adcT s.cal))
    (hcenti : centi = trunc32 (tempCenti (tempFine Config.hardware.tempWidth.bits s.raw.adcT s.cal)))
    (hc : c = cvtT Config.hardware.floatConv centi) : ResultsCurrent (s.writeTemp fine centi c) := by
  have hsame : s.status.tfv = true → s.tfine = fine := fun ht => (h.tfine_current ht).trans hfine.symm
  exact
    { h with
      tfine_current := fun _ => hfine
      tOut_current := fun _ => hcenti
      tempC_current := fun _ => hc
      pOut_current := fun hp => hsame (hf.pv_needs_tfv hp) ▸ h.pOut_current hp
      hOut_current := fun hh => hsame (hf.hv_needs_tfv hh) ▸ h.hOut_current hh }

theorem ResultsCurrent.writePres (h : ResultsCurrent s) {p : Word} {hpa : Binary32}
    (hp : p = trunc32 (pressure s.raw.adcP s.tfine s.cal)) (hhpa : hpa = cvtP Config.hardware.floatConv p) :
    ResultsCurrent (s.writePres p hpa) :=
  { h with pOut_current := fun _ => hp, presHpa_current := fun _ => hhpa }

theorem ResultsCurrent.writeHum (h : ResultsCurrent s) {x : Word} {pct : Binary32}
    (hx : x = humidity Config.hardware.humWidth.bits s.raw.adcH s.tfine s.cal)
    (hpct : pct = cvtH Config.hardware.floatConv x) : ResultsCurrent (s.writeHum x pct) :=
  { h with hOut_current := fun _ => hx, humPct_current := fun _ => hpct }

end Writes

/-! ### Every command leaves every valid register current -/

section Commands

variable {s : State}

theorem ResultsCurrent.compTBody (h : ResultsCurrent s) (hf : FlagsOrdered s) :
    ResultsCurrent (compTBody Config.hardware s) := by
  rw [compTBody_eq]
  exact h.writeTemp hf rfl rfl rfl

theorem ResultsCurrent.compPBody (h : ResultsCurrent s) : ResultsCurrent (compPBody Config.hardware s) := by
  rw [compPBody_eq]
  exact h.writePres rfl rfl

theorem ResultsCurrent.compHBody (h : ResultsCurrent s) : ResultsCurrent (compHBody Config.hardware s) := by
  rw [compHBody_eq]
  exact h.writeHum rfl rfl

theorem resultsCurrent_measureBody (hc : s.status.calv = true) (v : Vector Byte 8) :
    ResultsCurrent (measureBody Config.hardware v s) := by
  have hraw : ResultsCurrent (rawLoadBody v s) := resultsCurrent_loadRaw hc _
  exact (hraw.compTBody (.loadRaw hc _)).compPBody.compHBody

theorem ResultsCurrent.bodyOf (h : ResultsCurrent s) (hf : FlagsOrdered s) {i : Instr}
    (hi : checkOf i s.status = none) : ResultsCurrent (bodyOf i s) := by
  cases i with
  | nop => exact h
  | calLoad a b => exact hf.resultsCurrent_loadCal (Status.needUnlocked_eq_none.1 hi) _
  | rawLoad v => exact resultsCurrent_loadRaw (Status.needCal_eq_none.1 hi) _
  | compT => exact h.compTBody hf
  | compP => exact h.compPBody
  | compH => exact h.compHBody
  | measure v => exact resultsCurrent_measureBody (Status.needCal_eq_none.1 hi) v

end Commands

/-- Settles O44: whatever a body writes is current (`ResultsCurrent.bodyOf`), and nothing else in a step writes a result
or what it is computed from, but reset, which leaves no flag set. -/
theorem stepKeepsResultsCurrent : Obligations.StepKeepsResultsCurrent := by
  unfold Obligations.StepKeepsResultsCurrent
  intro s t hf h hstep
  obtain rfl | ⟨-, rfl⟩ | ⟨n, e, rfl⟩ | ⟨n, i, hi, rfl⟩ := step_effects hstep
  · exact h
  · exact (flagsOrdered_of_status_zero s.takeReset_status).resultsCurrent_of_tfv_eq_false rfl
  · exact (h.consume n).raise e
  · exact ((h.consume n).bodyOf (hf.consume n) hi).succeed

end Sys2Proof.Safety
end

