-- ==== Sys2Proof/Proofs/Sample.lean ====
section
/-!
The raw sample (41_sample.md): the codes RAW_LOAD makes of a burst, the two nibbles that have no part in them, and that
a new sample leaves no result of an earlier one to read.
-/
namespace Sys2Proof.Machine

open Sys2Proof Sys2Proof.Reference

/-- Settles O22: RAW_LOAD asks for CALV, and writes what `decodeRaw` makes of the burst. -/
theorem rawLoadDecodesTheCodes : Obligations.RawLoadDecodesTheCodes := by
  unfold Obligations.RawLoadDecodesTheCodes
  refine fun v s => ⟨fun hc => raises_of_checkOf (Status.needCal_noCal hc), fun hc => ?_⟩
  refine ⟨_, exec_of_checkOf_none (Status.needCal_eq_none.2 hc), rfl, ?_⟩
  exact ⟨code20_toNat _ _ _, code20_toNat _ _ _, code16_toNat _ _⟩

/-! ### The discarded nibbles (R125) -/

/-- A 20-bit code reads the high nibble of its third byte only. -/
theorem code20_eq_of_div_eq (b0 b1 : Byte) {b2 b2' : Byte} (h : b2.toNat / 16 = b2'.toNat / 16) :
    code20 b0 b1 b2 = code20 b0 b1 b2' := by
  apply BitVec.eq_of_toNat_eq
  rw [code20_toNat, code20_toNat]
  omega

theorem decodeRaw_set_lowNibbles {v : Vector Byte 8} {x y : Byte} (hx : x.toNat / 16 = v[2].toNat / 16)
    (hy : y.toNat / 16 = v[5].toNat / 16) : decodeRaw ((v.set 2 x).set 5 y) = decodeRaw v := by
  simp [decodeRaw, code20_eq_of_div_eq _ _ hx, code20_eq_of_div_eq _ _ hy]

/-- Two instructions with one check and one body are one command. -/
theorem exec_eq_of_bodyOf_eq {i j : Instr} {s : State} (hcheck : checkOf i s.status = checkOf j s.status)
    (hbody : bodyOf i = bodyOf j) : exec i s = exec j s := by
  rw [exec_eq_command, exec_eq_command, hcheck, hbody]

/-- Settles O23: what RAW_LOAD and MEASURE do with the burst goes through `decodeRaw`, which reads only the high nibbles
of these bytes. -/
theorem burstLowNibblesAreDiscarded : Obligations.BurstLowNibblesAreDiscarded := by
  unfold Obligations.BurstLowNibblesAreDiscarded
  intro v x y s hx hy
  have hraw : rawLoadBody ((v.set 2 x).set 5 y) = rawLoadBody v :=
    funext fun s => congrArg s.loadRaw (decodeRaw_set_lowNibbles hx hy)
  have hmeasure : measureBody Config.hardware ((v.set 2 x).set 5 y) = measureBody Config.hardware v := by
    funext s
    rw [measureBody_eq, measureBody_eq, hraw]
  exact ⟨exec_eq_of_bodyOf_eq rfl hraw, exec_eq_of_bodyOf_eq rfl hmeasure⟩

/-! ### Results of an earlier cycle (R120) -/

/-- Settles O24: RAW_LOAD's write starts a cycle, which leaves the flags of these ports 0. -/
theorem rawLoadInvalidatesOldResults : Obligations.RawLoadInvalidatesOldResults := by
  unfold Obligations.RawLoadInvalidatesOldResults
  intro v s hc
  refine ⟨_, exec_of_checkOf_none (Status.needCal_eq_none.2 hc), fun draw p hp => ?_⟩
  apply readPort_of_not_holdsValue
  rw [State.succeed_status, bodyOf_status]
  simp only [List.mem_cons, List.not_mem_nil, or_false] at hp
  obtain rfl | rfl | rfl | rfl | rfl | rfl | rfl := hp <;> rfl

end Sys2Proof.Machine
end

