-- ==== Sys2Proof/Proofs/Temperature.lean ====
section
/-!
The temperature (42_temperature.md): COMP_T's datapath read over the integers, where its width has no part in the
result (R130), and that COMP_T, COMP_P and COMP_H write the same values again when they are repeated (R137).
-/
namespace Sys2Proof.Machine

open Sys2Proof Sys2Proof.Reference

/-! ### The stages as integer arithmetic at width `w` (R133 to R135) -/

theorem tempVar1_toInt {w : Nat} (a t1 t2 : BitVec w) :
    (tempVar1 a t1 t2).toInt = Reference.tempVar1 w a.toInt t1.toInt t2.toInt := by
  rw [tempVar1, asr_toInt, BitVec.toInt_mul, BitVec.toInt_sub, asr_toInt, shiftLeft_toInt]
  rfl

theorem tempVar2_toInt {w : Nat} (a t1 t3 : BitVec w) :
    (tempVar2 a t1 t3).toInt = Reference.tempVar2 w a.toInt t1.toInt t3.toInt := by
  rw [tempVar2, asr_toInt, BitVec.toInt_mul, asr_toInt, BitVec.toInt_mul, BitVec.toInt_sub, asr_toInt]
  rfl

theorem tempFine_toInt (w : Width) (adcT : Code20) (c : Calibration) :
    (tempFine w.bits adcT c).toInt =
      Reference.tempFine w.bits adcT.toNat c.digT1.toNat c.digT2.toInt c.digT3.toInt := by
  have hw : 32 ≤ w.bits := by cases w <;> decide
  rw [tempFine, BitVec.toInt_add, tempVar1_toInt, tempVar2_toInt, zext_toInt _ (by omega), zext_toInt _ (by omega),
    sext_toInt _ (by omega), sext_toInt _ (by omega)]
  rfl

theorem tempCenti_toInt (w : Width) (tf : BitVec w.bits) :
    (tempCenti tf).toInt = Reference.tempCenti w.bits tf.toInt := by
  have h5 : (5 : BitVec w.bits).toInt = 5 := by cases w <;> rfl
  have h128 : (128 : BitVec w.bits).toInt = 128 := by cases w <;> rfl
  rw [tempCenti, asr_toInt, BitVec.toInt_add, BitVec.toInt_mul, h5, h128]
  rfl

theorem trunc32_word (v : Word) : trunc32 v = v := BitVec.setWidth_eq v

/-! ### COMP_T's next state (R132) -/

/-- COMP_T's success is three registers, their flags, and the end of every command. Said of any values, so that the
comparison of the two states evaluates no datapath. -/
theorem State.succeed_writeTemp (s : State) (x y : Word) (z : Binary32) :
    (s.writeTemp x y z).succeed =
      { s with tfine := x, tOut := y, tempC := z, fi := s.fi + 1,
               status := { s.status with tfv := true, tv := true, err := .ok } } := rfl

/-- Settles O25: the checks are `needRaw`'s, and the values written are the rules' by `tempFine_toInt` and
`tempCenti_toInt` at width 32. -/
theorem compTComputesTheTemperature : Obligations.CompTComputesTheTemperature := by
  unfold Obligations.CompTComputesTheTemperature
  refine fun s => ⟨fun hc => raises_of_checkOf (Status.needRaw_noCal hc),
    fun hc hr => raises_of_checkOf (Status.needRaw_noRaw hc hr), fun hc hr => ?_⟩
  refine ⟨_, exec_of_checkOf_none (Status.needRaw_eq_none.2 ⟨hc, hr⟩), ?frame, ?fine, ?centi, ?celsius⟩
  case frame => exact State.succeed_writeTemp s _ _ _
  case fine =>
    rw [State.succeed_tfine, bodyOf, compTBody_tfine]
    exact (congrArg BitVec.toInt (trunc32_word _)).trans (tempFine_toInt .w32 _ _)
  case centi =>
    rw [State.succeed_tOut, State.succeed_tfine, bodyOf, compTBody_tOut, compTBody_tfine]
    exact (congrArg BitVec.toInt (trunc32_word _)).trans (tempCenti_toInt .w32 _)
  case celsius =>
    rw [State.succeed_tempC, State.succeed_tOut, bodyOf, compTBody_tempC, compTBody_tOut, hardware_floatConv]

/-! ### Where the width has no part in the result (R130) -/

/-- Wrapping is the identity on the s32 range, at each legal width (R9). -/
theorem wrap_bits_of_fitsS32 (w : Width) {x : Int} (h : FitsS32 x) : wrap w.bits x = x := by
  obtain ⟨hlo, hhi⟩ := h
  apply Int.bmod_eq_of_le <;> cases w <;> simp only [bits_w32, bits_w64] <;> omega

/-- The fine temperature with no operation reduced to a width. -/
def exactTempFine (a t1 t2 t3 : Int) : Int :=
  sar 11 ((sar 3 a - 2 * t1) * t2) + sar 14 (sar 12 ((sar 4 a - t1) * (sar 4 a - t1)) * t3)

/-- The temperature with no operation reduced to a width. -/
def exactTempCenti (tf : Int) : Int := sar 8 (tf * 5 + 128)

section Exact

variable {a t1 t2 t3 : Int} (h : ∀ x ∈ tempTerms a t1 t2 t3, FitsS32 x) (w : Width)

include h

theorem tempFine_eq_exactTempFine : Reference.tempFine w.bits a t1 t2 t3 = exactTempFine a t1 t2 t3 := by
  simp only [tempTerms, List.forall_mem_cons] at h
  obtain ⟨ht1, he, het2, hd, hdd, hdt3, hfine, -⟩ := h
  have hshl : shl w.bits 1 t1 = 2 * t1 := by rw [shl, pow_one, mul_comm, wrap_bits_of_fitsS32 w ht1]
  have hvar1 : Reference.tempVar1 w.bits a t1 t2 = sar 11 ((sar 3 a - 2 * t1) * t2) := by
    rw [Reference.tempVar1, hshl, wrap_bits_of_fitsS32 w he, wrap_bits_of_fitsS32 w het2]
  have hvar2 : Reference.tempVar2 w.bits a t1 t3 = sar 14 (sar 12 ((sar 4 a - t1) * (sar 4 a - t1)) * t3) := by
    rw [Reference.tempVar2, wrap_bits_of_fitsS32 w hd, wrap_bits_of_fitsS32 w hdd, wrap_bits_of_fitsS32 w hdt3]
  rw [Reference.tempFine, hvar1, hvar2, wrap_bits_of_fitsS32 w hfine, exactTempFine]

theorem tempCenti_eq_exactTempCenti :
    Reference.tempCenti w.bits (exactTempFine a t1 t2 t3) = exactTempCenti (exactTempFine a t1 t2 t3) := by
  simp only [tempTerms, List.forall_mem_cons] at h
  obtain ⟨-, -, -, -, -, -, -, hmul, hadd, -⟩ := h
  rw [Reference.tempCenti, exactTempFine, wrap_bits_of_fitsS32 w hmul, wrap_bits_of_fitsS32 w hadd, exactTempCenti]

end Exact

/-- `trunc_32` of a signed value depends on the value alone, not on its width (R11). -/
theorem trunc32_eq_ofInt {n : Nat} (v : BitVec n) (h : 32 ≤ n) : trunc32 v = BitVec.ofInt 32 v.toInt :=
  (BitVec.signExtend_eq_setWidth_of_le v h).symm

/-- Where the exact intermediates fit in s32, COMP_T's registers are the exact ones, at each legal width. -/
theorem compTBody_eq_exact {s : State}
    (h : ∀ x ∈ tempTerms s.raw.adcT.toNat s.cal.digT1.toNat s.cal.digT2.toInt s.cal.digT3.toInt, FitsS32 x)
    (P : Params) :
    let tf := exactTempFine s.raw.adcT.toNat s.cal.digT1.toNat s.cal.digT2.toInt s.cal.digT3.toInt
    let t := BitVec.ofInt 32 (exactTempCenti tf)
    compTBody P s = s.writeTemp (BitVec.ofInt 32 tf) t (cvtT P.floatConv t) := by
  have hw : 32 ≤ P.tempWidth.bits := by cases P.tempWidth <;> decide
  rw [compTBody_eq, trunc32_eq_ofInt _ hw, trunc32_eq_ofInt _ hw, tempCenti_toInt, tempFine_toInt,
    tempFine_eq_exactTempFine h, tempCenti_eq_exactTempCenti h]

/-- A command depends on its body only through the writes to the state it runs on. -/
theorem command_congr {body body' : State → State} {s : State} (failed : Option ErrCode) (h : body s = body' s) :
    command failed body s = command failed body' s := by
  cases failed with
  | none => rw [command_none, command_none, h]
  | some e => rfl

/-- Settles O47: at each width the registers written are the exact ones (`compTBody_eq_exact`), and the checks have no
width. -/
theorem tempWidthMattersOnlyOnOverflow : Obligations.TempWidthMattersOnlyOnOverflow := by
  unfold Obligations.TempWidthMattersOnlyOnOverflow
  intro s h
  exact command_congr _ ((compTBody_eq_exact h _).trans (compTBody_eq_exact h Config.hardware).symm)

/-! ### Repeating a compensation (R137, R149, R159) -/

section Rewrite

variable {s : State} {x y : Word} {z : Binary32}

/-- Writing what stands in the registers, under flags that are set, changes nothing. -/
theorem State.writeTemp_eq_self (hx : s.tfine = x) (hy : s.tOut = y) (hz : s.tempC = z)
    (hflags : s.status.markTemp = s.status) : s.writeTemp x y z = s := by
  subst hx hy hz
  rw [State.writeTemp, hflags]

theorem State.writePres_eq_self (hx : s.pOut = x) (hz : s.presHpa = z) (hflags : s.status.markPres = s.status) :
    s.writePres x z = s := by
  subst hx hz
  rw [State.writePres, hflags]

theorem State.writeHum_eq_self (hx : s.hOut = x) (hz : s.humPct = z) (hflags : s.status.markHum = s.status) :
    s.writeHum x z = s := by
  subst hx hz
  rw [State.writeHum, hflags]

end Rewrite

section Repeat

variable {P : Params} {s t : State}

/-- COMP_T reads `ADC_T` and the coefficients, which it does not write (R137). -/
theorem compTBody_eq_self (ht : t = (compTBody P s).succeed) : compTBody P t = t := by
  have hraw : t.raw = s.raw := by rw [ht, State.succeed_raw, compTBody_raw]
  have hcal : t.cal = s.cal := by rw [ht, State.succeed_cal, compTBody_cal]
  rw [compTBody_eq, hraw, hcal]
  apply State.writeTemp_eq_self
  · rw [ht, State.succeed_tfine, compTBody_tfine]
  · rw [ht, State.succeed_tOut, compTBody_tOut]
  · rw [ht, State.succeed_tempC, compTBody_tempC]
  · rw [ht, State.succeed_status, compTBody_status]
    rfl

/-- COMP_P reads `ADC_P`, `TFINE` and the coefficients, which it does not write (R149). -/
theorem compPBody_eq_self (ht : t = (compPBody P s).succeed) : compPBody P t = t := by
  have hraw : t.raw = s.raw := by rw [ht, State.succeed_raw, compPBody_raw]
  have hcal : t.cal = s.cal := by rw [ht, State.succeed_cal, compPBody_cal]
  have hfine : t.tfine = s.tfine := by rw [ht, State.succeed_tfine, compPBody_tfine]
  rw [compPBody_eq, hraw, hcal, hfine]
  apply State.writePres_eq_self
  · rw [ht, State.succeed_pOut, compPBody_pOut]
  · rw [ht, State.succeed_presHpa, compPBody_presHpa]
  · rw [ht, State.succeed_status, compPBody_status]
    rfl

/-- COMP_H reads `ADC_H`, `TFINE` and the coefficients, which it does not write (R159). -/
theorem compHBody_eq_self (ht : t = (compHBody P s).succeed) : compHBody P t = t := by
  have hraw : t.raw = s.raw := by rw [ht, State.succeed_raw, compHBody_raw]
  have hcal : t.cal = s.cal := by rw [ht, State.succeed_cal, compHBody_cal]
  have hfine : t.tfine = s.tfine := by rw [ht, State.succeed_tfine, compHBody_tfine]
  rw [compHBody_eq, hraw, hcal, hfine]
  apply State.writeHum_eq_self
  · rw [ht, State.succeed_hOut, compHBody_hOut]
  · rw [ht, State.succeed_humPct, compHBody_humPct]
  · rw [ht, State.succeed_status, compHBody_status]
    rfl

/-- A success recorded again advances the frame index only. -/
theorem State.succeed_of_err_ok (h : t.status.err = .ok) : t.succeed = { t with fi := t.fi + 1 } := by
  have hstatus : t.status.succeed = t.status := by rw [Status.succeed, ← h]
  rw [State.succeed, hstatus]

/-- A command whose check passes and whose body has nothing left to write advances the frame index only. -/
theorem exec_of_bodyOf_eq_self {i : Instr} (hcheck : checkOf i t.status = none) (hbody : bodyOf i t = t)
    (hok : t.status.err = .ok) : exec i t = .next { t with fi := t.fi + 1 } := by
  rw [exec_of_checkOf_none hcheck, hbody, State.succeed_of_err_ok hok]

end Repeat

/-- Settles O33: none of the three writes a flag that its check asks for or a register that its body reads
(`compTBody_eq_self`, `compPBody_eq_self`, `compHBody_eq_self`). -/
theorem repeatedCompensationChangesNothing : Obligations.RepeatedCompensationChangesNothing := by
  unfold Obligations.RepeatedCompensationChangesNothing
  intro i s t hi h hok
  obtain ⟨hcheck, ht⟩ := exec_of_ok h hok
  have hstatus : t.status = (bodyOf i s).status.succeed := by rw [ht, State.succeed_status]
  rw [bodyOf_status] at hstatus
  simp only [List.mem_cons, List.not_mem_nil, or_false] at hi
  obtain rfl | rfl | rfl := hi
  · exact exec_of_bodyOf_eq_self (hstatus ▸ hcheck) (compTBody_eq_self ht) hok
  · exact exec_of_bodyOf_eq_self (hstatus ▸ hcheck) (compPBody_eq_self ht) hok
  · exact exec_of_bodyOf_eq_self (hstatus ▸ hcheck) (compHBody_eq_self ht) hok

end Sys2Proof.Machine
end

