-- ==== Sys2Proof/Proofs/Pressure.lean ====
section
/-!
The pressure (43_pressure.md): COMP_P's datapath read over the integers, stage by stage, and the sentinel of a zero
divisor.
-/
namespace Sys2Proof.Machine

open Sys2Proof Sys2Proof.Reference

/-! ### The stages as integer arithmetic at s64 (R142, R145, R146) -/

theorem presFine_toInt (tfine : Word) : (presFine tfine).toInt = wrap 64 (tfine.toInt - 128000) := by
  have hoffset : (128000 : BitVec 64).toInt = 128000 := rfl
  rw [presFine, BitVec.toInt_sub, sext_toInt _ (by decide), hoffset]
  rfl

theorem presVar2_toInt (v : BitVec 64) (c : Calibration) :
    (presVar2 v c).toInt = Reference.presVar2 v.toInt c := by
  rw [presVar2, BitVec.toInt_add, BitVec.toInt_add, BitVec.toInt_mul, BitVec.toInt_mul, shiftLeft_toInt,
    shiftLeft_toInt, BitVec.toInt_mul, sext_toInt _ (by decide), sext_toInt _ (by decide), sext_toInt _ (by decide)]
  rfl

theorem presPoly_toInt (v : BitVec 64) (c : Calibration) :
    (presPoly v c).toInt =
      wrap 64 (sar 8 (wrap 64 (wrap 64 (v.toInt * v.toInt) * c.digP3.toInt))
        + shl 64 12 (wrap 64 (v.toInt * c.digP2.toInt))) := by
  rw [presPoly, BitVec.toInt_add, asr_toInt, BitVec.toInt_mul, BitVec.toInt_mul, shiftLeft_toInt, BitVec.toInt_mul,
    sext_toInt _ (by decide), sext_toInt _ (by decide)]
  rfl

theorem presDivisor_toInt (v : BitVec 64) (c : Calibration) :
    (presDivisor v c).toInt = Reference.presDivisor v.toInt c := by
  have hone : ((1 : BitVec 64) <<< 47).toInt = 2 ^ 47 := rfl
  rw [presDivisor, asr_toInt, BitVec.toInt_mul, BitVec.toInt_add, presPoly_toInt, zext_toInt _ (by decide), hone]
  rfl

/-- `sdiv` is the truncated division of R145, and wraps `(-2^63) / (-1)` as R11 does. -/
theorem presQuotient_toInt (adcP : Code20) (var1 var2 : BitVec 64) :
    (presQuotient adcP var1 var2).toInt = Reference.presQuotient adcP.toNat var1.toInt var2.toInt := by
  have hbase : (1048576 - zext 64 adcP).toInt = 1048576 - (adcP.toNat : Int) := by
    have hlt := adcP.isLt
    have h : (1048576 : BitVec 64).toInt = 1048576 := rfl
    rw [BitVec.toInt_sub, zext_toInt _ (by decide), h]
    apply Int.bmod_eq_of_le <;> omega
  have hscale : (3125 : BitVec 64).toInt = 3125 := rfl
  rw [presQuotient, BitVec.toInt_sdiv, BitVec.toInt_mul, BitVec.toInt_sub, shiftLeft_toInt, hbase, hscale]
  rfl

theorem presCorrect_toInt (p : BitVec 64) (c : Calibration) :
    (presCorrect p c).toInt = Reference.presCorrect p.toInt c := by
  rw [presCorrect, BitVec.toInt_add, asr_toInt, BitVec.toInt_add, BitVec.toInt_add, asr_toInt, asr_toInt,
    BitVec.toInt_mul, BitVec.toInt_mul, BitVec.toInt_mul, asr_toInt, shiftLeft_toInt, sext_toInt _ (by decide),
    sext_toInt _ (by decide), sext_toInt _ (by decide)]
  rfl

/-- The whole datapath: the divisor is the bit vector 0 exactly where the rules' divisor is 0, so both take the
sentinel together (R144). -/
theorem pressure_toInt (adcP : Code20) (tfine : Word) (c : Calibration) :
    (pressure adcP tfine c).toInt = Reference.pressure adcP.toNat tfine.toInt c := by
  have hzero : presDivisor (presFine tfine) c = 0 ↔ Reference.presDivisor (wrap 64 (tfine.toInt - 128000)) c = 0 := by
    rw [← presFine_toInt, ← presDivisor_toInt, ← BitVec.toInt_inj]
    rfl
  rw [pressure, Reference.pressure]
  by_cases hdiv : presDivisor (presFine tfine) c = 0
  · rw [if_pos hdiv, if_pos (hzero.1 hdiv)]
    rfl
  · rw [if_neg hdiv, if_neg (mt hzero.2 hdiv), presCorrect_toInt, presQuotient_toInt, presVar2_toInt,
      presDivisor_toInt, presFine_toInt]

/-- `trunc_32` read as unsigned is the value modulo `2^32` (R147). -/
theorem trunc32_toNat {n : Nat} (v : BitVec n) (h : 32 ≤ n) : ((trunc32 v).toNat : Int) = v.toInt % 2 ^ 32 := by
  rw [trunc32_eq_ofInt v h, BitVec.toNat_ofInt]
  exact Int.toNat_of_nonneg (Int.emod_nonneg _ (by decide))

/-! ### COMP_P's next state (R143) -/

/-- COMP_P's success is two registers, their flag, and the end of every command. Said of any values, so that the
comparison of the two states evaluates no datapath. -/
theorem State.succeed_writePres (s : State) (x : Word) (z : Binary32) :
    (s.writePres x z).succeed =
      { s with pOut := x, presHpa := z, fi := s.fi + 1, status := { s.status with pv := true, err := .ok } } := rfl

/-- Settles O26: the checks are `needTfine`'s, and the value written is the low half of the rules' pressure by
`pressure_toInt`. -/
theorem compPComputesThePressure : Obligations.CompPComputesThePressure := by
  unfold Obligations.CompPComputesThePressure
  refine fun s => ⟨fun hc => raises_of_checkOf (Status.needTfine_noCal hc),
    fun hc hr => raises_of_checkOf (Status.needTfine_noRaw hc hr),
    fun hc hr ht => raises_of_checkOf (Status.needTfine_noTfine hc hr ht), fun hc hr ht => ?_⟩
  refine ⟨_, exec_of_checkOf_none (Status.needTfine_eq_none.2 ⟨hc, hr, ht⟩), ?frame, ?pascal, ?hectopascal⟩
  case frame => exact State.succeed_writePres s _ _
  case pascal => rw [State.succeed_pOut, bodyOf, compPBody_pOut, trunc32_toNat _ (by decide), pressure_toInt]
  case hectopascal =>
    rw [State.succeed_presHpa, State.succeed_pOut, bodyOf, compPBody_presHpa, compPBody_pOut, hardware_floatConv]

/-! ### The sentinel (R144) -/

/-- `dig_P1` is a factor of the divisor. -/
theorem presDivisor_eq_zero_of_digP1 {c : Calibration} (h : c.digP1 = 0) (v : Int) :
    Reference.presDivisor v c = 0 := by
  have hP1 : (c.digP1.toNat : Int) = 0 := by rw [h]; rfl
  rw [Reference.presDivisor, hP1, mul_zero]
  rfl

theorem pressure_eq_zero {tfine : Word} {c : Calibration}
    (h : Reference.presDivisor (wrap 64 (tfine.toInt - 128000)) c = 0) (adcP : Code20) :
    pressure adcP tfine c = 0 := by
  rw [← BitVec.toInt_inj, pressure_toInt, Reference.pressure, if_pos h]
  rfl

/-- Settles O27: either way the divisor is 0, and the pressure with it; 0 Pa converts to `+0.0`. -/
theorem zeroDivisorGivesTheSentinel : Obligations.ZeroDivisorGivesTheSentinel := by
  unfold Obligations.ZeroDivisorGivesTheSentinel
  intro s hc hr ht h
  have hdiv : Reference.presDivisor (wrap 64 (s.tfine.toInt - 128000)) s.cal = 0 :=
    h.elim id (presDivisor_eq_zero_of_digP1 · _)
  have hpOut : trunc32 (pressure s.raw.adcP s.tfine s.cal) = 0 := by
    rw [pressure_eq_zero hdiv]
    rfl
  have hpresHpa : cvtP .single 0 = 0 := fl32_zero 25600
  have hcheck : checkOf .compP s.status = none := Status.needTfine_eq_none.2 ⟨hc, hr, ht⟩
  rw [exec_of_checkOf_none hcheck, bodyOf, compPBody_eq, hardware_floatConv, hpOut, hpresHpa, State.succeed_writePres]

end Sys2Proof.Machine
end

