-- ==== Sys2Proof/Proofs/Humidity.lean ====
section
/-!
The humidity (44_humidity.md): COMP_H's datapath read over the integers at each legal width, the two bounds of its
clamp, and where the width has no part in the result (R150).
-/
namespace Sys2Proof.Machine

open Sys2Proof Sys2Proof.Reference

/-! ### The stages as integer arithmetic at width `w` (R153 to R157) -/

theorem thirtyTwo_le_bits (w : Width) : 32 ≤ w.bits := by cases w <;> decide

/-- A constant of the datapath has the value it is written with, at each legal width. -/
theorem ofNat_bits_toInt (w : Width) {n : Nat} (h : n < 2 ^ 31) : (BitVec.ofNat w.bits n).toInt = n := by
  rw [BitVec.toInt_ofNat']
  apply Int.bmod_eq_of_le <;> cases w <;> simp only [bits_w32, bits_w64] <;> omega

theorem humFine_toInt (w : Width) (tfine : Word) :
    (humFine w.bits tfine).toInt = wrap w.bits (tfine.toInt - 76800) := by
  have hoffset : (76800 : BitVec w.bits).toInt = 76800 := ofNat_bits_toInt w (by decide)
  rw [humFine, BitVec.toInt_sub, sext_toInt _ (thirtyTwo_le_bits w), hoffset]
  rfl

theorem humU_toInt (w : Width) (x : BitVec w.bits) (adcH : Half) (c : Calibration) :
    (humU x adcH c).toInt = Reference.humU w.bits x.toInt adcH.toNat c := by
  have hw := thirtyTwo_le_bits w
  have hround : (16384 : BitVec w.bits).toInt = 16384 := ofNat_bits_toInt w (by decide)
  rw [humU, asr_toInt, BitVec.toInt_add, BitVec.toInt_sub, BitVec.toInt_sub, BitVec.toInt_mul, shiftLeft_toInt,
    shiftLeft_toInt, zext_toInt _ (by omega), sext_toInt _ (by omega), sext_toInt _ (by omega), hround]
  rfl

theorem humV_toInt (w : Width) (x : BitVec w.bits) (c : Calibration) :
    (humV x c).toInt = Reference.humV w.bits x.toInt c := by
  have hw := thirtyTwo_le_bits w
  have hunit : (32768 : BitVec w.bits).toInt = 32768 := ofNat_bits_toInt w (by decide)
  have hscale : (2097152 : BitVec w.bits).toInt = 2097152 := ofNat_bits_toInt w (by decide)
  have hround : (8192 : BitVec w.bits).toInt = 8192 := ofNat_bits_toInt w (by decide)
  rw [humV, asr_toInt, BitVec.toInt_add, BitVec.toInt_mul, BitVec.toInt_add, asr_toInt, BitVec.toInt_mul, asr_toInt,
    BitVec.toInt_mul, BitVec.toInt_add, asr_toInt, BitVec.toInt_mul, zext_toInt _ (by omega), sext_toInt _ (by omega),
    sext_toInt _ (by omega), hunit, hscale, hround]
  rfl

theorem humCorrect_toInt (w : Width) (y : BitVec w.bits) (c : Calibration) :
    (humCorrect y c).toInt =
      wrap w.bits (y.toInt -
        sar 4 (wrap w.bits (sar 7 (wrap w.bits (sar 15 y.toInt * sar 15 y.toInt)) * c.digH1.toNat))) := by
  have hw := thirtyTwo_le_bits w
  rw [humCorrect, BitVec.toInt_sub, asr_toInt, BitVec.toInt_mul, asr_toInt, BitVec.toInt_mul, asr_toInt,
    zext_toInt _ (by omega)]
  rfl

theorem humUnclamped_toInt (w : Width) (adcH : Half) (tfine : Word) (c : Calibration) :
    (humUnclamped w.bits adcH tfine c).toInt = Reference.humUnclamped w.bits adcH.toNat tfine.toInt c := by
  rw [humUnclamped, humCorrect_toInt, BitVec.toInt_mul, humU_toInt, humV_toInt, humFine_toInt]
  rfl

/-- The clamp of R156 as a maximum and a minimum. -/
theorem clamp_toInt_eq_max_min {n : Nat} (v : BitVec n) {lo hi : BitVec n} (h : lo.toInt ≤ hi.toInt) :
    (clamp v lo hi).toInt = max lo.toInt (min hi.toInt v.toInt) := by
  rw [clamp_toInt]
  split
  · omega
  · split <;> omega

/-- The whole datapath: `H_OUT` is the rules' humidity, which a word holds exactly. -/
theorem humidity_eq_ofInt (w : Width) (adcH : Half) (tfine : Word) (c : Calibration) :
    humidity w.bits adcH tfine c = BitVec.ofInt 32 (Reference.humidity w.bits adcH.toNat tfine.toInt c) := by
  have hlo : (0 : BitVec w.bits).toInt = 0 := ofNat_bits_toInt w (by decide)
  have hhi : (419430400 : BitVec w.bits).toInt = 419430400 := ofNat_bits_toInt w (by decide)
  rw [humidity, trunc32_eq_ofInt _ (thirtyTwo_le_bits w), asr_toInt, clamp_toInt_eq_max_min _ (by omega),
    humUnclamped_toInt, hlo, hhi]
  rfl

/-! ### The clamp's bounds (R156, R157) -/

section Bounds

variable {w : Nat} {adcH tfine : Int} {c : Calibration}

theorem humidity_mem (w : Nat) (adcH tfine : Int) (c : Calibration) :
    0 ≤ Reference.humidity w adcH tfine c ∧ Reference.humidity w adcH tfine c ≤ 102400 := by
  rw [Reference.humidity, sar]
  omega

theorem humidity_eq_zero (h : Reference.humUnclamped w adcH tfine c ≤ 0) : Reference.humidity w adcH tfine c = 0 := by
  rw [Reference.humidity, sar]
  omega

theorem humidity_eq_hundred (h : 419430400 ≤ Reference.humUnclamped w adcH tfine c) :
    Reference.humidity w adcH tfine c = 102400 := by
  rw [Reference.humidity, sar]
  omega

end Bounds

theorem humidity_toNat (w : Width) (adcH : Half) (tfine : Word) (c : Calibration) :
    ((humidity w.bits adcH tfine c).toNat : Int) = Reference.humidity w.bits adcH.toNat tfine.toInt c := by
  have hmem := humidity_mem w.bits adcH.toNat tfine.toInt c
  rw [humidity_eq_ofInt, BitVec.toNat_ofInt]
  omega

/-! ### COMP_H's next state (R152) -/

/-- COMP_H's success is two registers, their flag, and the end of every command. Said of any values, so that the
comparison of the two states evaluates no datapath. -/
theorem State.succeed_writeHum (s : State) (x : Word) (z : Binary32) :
    (s.writeHum x z).succeed =
      { s with hOut := x, humPct := z, fi := s.fi + 1, status := { s.status with hv := true, err := .ok } } := rfl

/-- Settles O28: the checks are `needTfine`'s, and the value written is the rules' by `humidity_toNat` at width 32. -/
theorem compHComputesTheHumidity : Obligations.CompHComputesTheHumidity := by
  unfold Obligations.CompHComputesTheHumidity
  refine fun s => ⟨fun hc => raises_of_checkOf (Status.needTfine_noCal hc),
    fun hc hr => raises_of_checkOf (Status.needTfine_noRaw hc hr),
    fun hc hr ht => raises_of_checkOf (Status.needTfine_noTfine hc hr ht), fun hc hr ht => ?_⟩
  refine ⟨_, exec_of_checkOf_none (Status.needTfine_eq_none.2 ⟨hc, hr, ht⟩), ?frame, ?humidity, ?percent⟩
  case frame => exact State.succeed_writeHum s _ _
  case humidity =>
    rw [State.succeed_hOut, bodyOf, compHBody_hOut]
    exact humidity_toNat .w32 _ _ _
  case percent =>
    rw [State.succeed_humPct, State.succeed_hOut, bodyOf, compHBody_humPct, compHBody_hOut, hardware_floatConv]

theorem cvtH_single_zero : cvtH .single 0 = 0 := fl32_zero 1024

theorem cvtH_single_hundred : cvtH .single 102400 = 0x42C80000#32 := by decide

/-- Settles O29: COMP_H's registers are the rules' (`compHComputesTheHumidity`), the clamp leaves the bounds there
(`humidity_eq_zero`, `humidity_eq_hundred`), and these convert to `+0.0` and 100.0. -/
theorem humidityClampsToZeroAndHundred : Obligations.HumidityClampsToZeroAndHundred := by
  unfold Obligations.HumidityClampsToZeroAndHundred
  intro s hc hr ht
  obtain ⟨-, -, -, hsuccess⟩ := compHComputesTheHumidity s
  obtain ⟨t, hexec, hframe, hhOut, hhumPct⟩ := hsuccess hc hr ht
  have hmem := humidity_mem 32 s.raw.adcH.toNat s.tfine.toInt s.cal
  refine ⟨t, hexec, by rw [hframe], by omega, fun hlow => ?_, fun hhigh => ?_⟩
  · have hzero : t.hOut = 0 := BitVec.eq_of_toNat_eq (by exact_mod_cast hhOut.trans (humidity_eq_zero hlow))
    exact ⟨hzero, by rw [hhumPct, hzero, cvtH_single_zero]; rfl⟩
  · have hhundred : t.hOut = 102400 :=
      BitVec.eq_of_toNat_eq (by exact_mod_cast hhOut.trans (humidity_eq_hundred hhigh))
    exact ⟨hhundred, by rw [hhumPct, hhundred, cvtH_single_hundred]⟩

/-! ### Where the width has no part in the result (R150) -/

/-- `u` of stage 2 with no operation reduced to a width. -/
def exactHumU (x adcH : Int) (c : Calibration) : Int :=
  sar 15 (adcH * 2 ^ 14 - c.digH4.toInt * 2 ^ 20 - c.digH5.toInt * x + 16384)

/-- `v` of stage 2 with no operation reduced to a width. -/
def exactHumV (x : Int) (c : Calibration) : Int :=
  sar 14 ((sar 10 (sar 10 (x * c.digH6.toInt) * (sar 11 (x * c.digH3.toNat) + 32768)) + 2097152) * c.digH2.toInt + 8192)

/-- The value before the clamp with no operation reduced to a width. -/
def exactHumUnclamped (adcH tfine : Int) (c : Calibration) : Int :=
  let y := exactHumU (tfine - 76800) adcH c * exactHumV (tfine - 76800) c
  y - sar 4 (sar 7 (sar 15 y * sar 15 y) * c.digH1.toNat)

section Exact

variable {adcH tfine : Int} {c : Calibration} (h : ∀ x ∈ humTerms adcH tfine c, FitsS32 x) (w : Width)

include h

theorem humU_eq_exactHumU : Reference.humU w.bits (tfine - 76800) adcH c = exactHumU (tfine - 76800) adcH c := by
  simp only [humTerms, List.forall_mem_cons] at h
  obtain ⟨-, hadc, hh4, hu1, hh5, hu2, hround, -⟩ := h
  rw [Reference.humU, shl, shl, wrap_bits_of_fitsS32 w hadc, wrap_bits_of_fitsS32 w hh4, wrap_bits_of_fitsS32 w hu1,
    wrap_bits_of_fitsS32 w hh5, wrap_bits_of_fitsS32 w hu2, wrap_bits_of_fitsS32 w hround, exactHumU]

theorem humV_eq_exactHumV : Reference.humV w.bits (tfine - 76800) c = exactHumV (tfine - 76800) c := by
  simp only [humTerms, List.forall_mem_cons] at h
  obtain ⟨-, -, -, -, -, -, -, hh6, hh3, hunit, hprod, hscaled, hh2, hround, -⟩ := h
  rw [Reference.humV, wrap_bits_of_fitsS32 w hh6, wrap_bits_of_fitsS32 w hh3, wrap_bits_of_fitsS32 w hunit,
    wrap_bits_of_fitsS32 w hprod, wrap_bits_of_fitsS32 w hscaled, wrap_bits_of_fitsS32 w hh2,
    wrap_bits_of_fitsS32 w hround, exactHumV]

theorem humUnclamped_eq_exactHumUnclamped :
    Reference.humUnclamped w.bits adcH tfine c = exactHumUnclamped adcH tfine c := by
  have hu := humU_eq_exactHumU h w
  have hv := humV_eq_exactHumV h w
  simp only [humTerms, List.forall_mem_cons] at h
  obtain ⟨hx, -, -, -, -, -, -, -, -, -, -, -, -, -, hy, hsquare, hh1, hlast, -⟩ := h
  rw [Reference.humUnclamped, wrap_bits_of_fitsS32 w hx, hu, hv, exactHumUnclamped, exactHumU, exactHumV,
    wrap_bits_of_fitsS32 w hy, wrap_bits_of_fitsS32 w hsquare, wrap_bits_of_fitsS32 w hh1, wrap_bits_of_fitsS32 w hlast]

end Exact

/-- Where the exact intermediates fit in s32, `H_OUT` is that of the exact value, at each legal width. -/
theorem humidity_eq_exact {adcH : Half} {tfine : Word} {c : Calibration}
    (h : ∀ x ∈ humTerms adcH.toNat tfine.toInt c, FitsS32 x) (w : Width) :
    humidity w.bits adcH tfine c =
      BitVec.ofInt 32 (sar 12 (max 0 (min 419430400 (exactHumUnclamped adcH.toNat tfine.toInt c)))) := by
  rw [humidity_eq_ofInt, Reference.humidity, humUnclamped_eq_exactHumUnclamped h]

/-- Settles O48: at each width `H_OUT` is that of the exact value (`humidity_eq_exact`); the conversion and the checks
have no width. -/
theorem humWidthMattersOnlyOnOverflow : Obligations.HumWidthMattersOnlyOnOverflow := by
  unfold Obligations.HumWidthMattersOnlyOnOverflow
  intro s h
  apply command_congr
  rw [compHBody_eq, compHBody_eq, humidity_eq_exact h, humidity_eq_exact h]

end Sys2Proof.Machine
end

