-- ==== Sys2Proof/Proofs/Control.lean ====
section
/-!
NOP, MEASURE and CYCLE (45_control.md R160 to R163). A success end writes only ERR and the frame index, which no body
reads, so the ends of CYCLE's four commands can be moved behind their bodies (`bodyOf_succeed`); what is left are
MEASURE's writes.
-/
namespace Sys2Proof.Machine

open Sys2Proof Sys2Proof.Reference Sys2Proof.Safety

/-- Settles O18: NOP has no check and no body, so only the end of a command is left (`exec_of_checkOf_none`). -/
theorem nopClearsErr : Obligations.NopClearsErr := by
  unfold Obligations.NopClearsErr
  exact ⟨decode_nop, fun _ => exec_of_checkOf_none rfl⟩

/-! ### MEASURE's writes on this hardware (R162) -/

section MeasureBody

variable (v : Vector Byte 8) (s : State)

theorem measureBody_tfine :
    (measureBody Config.hardware v s).tfine = tempFine Width.w32.bits (decodeRaw v).adcT s.cal := by
  simp [measureBody_eq, trunc32_word]

theorem measureBody_tOut :
    (measureBody Config.hardware v s).tOut =
      tempCenti (w := Width.w32.bits) (measureBody Config.hardware v s).tfine := by
  simp [measureBody_eq, trunc32_word]

theorem measureBody_pOut :
    (measureBody Config.hardware v s).pOut =
      trunc32 (pressure (decodeRaw v).adcP (measureBody Config.hardware v s).tfine s.cal) := by
  simp [measureBody_eq]

theorem measureBody_hOut :
    (measureBody Config.hardware v s).hOut =
      humidity Width.w32.bits (decodeRaw v).adcH (measureBody Config.hardware v s).tfine s.cal := by
  simp [measureBody_eq]

theorem measureBody_tempC :
    (measureBody Config.hardware v s).tempC = cvtT .single (measureBody Config.hardware v s).tOut := by
  simp [measureBody_eq]

theorem measureBody_presHpa :
    (measureBody Config.hardware v s).presHpa = cvtP .single (measureBody Config.hardware v s).pOut := by
  simp [measureBody_eq]

theorem measureBody_humPct :
    (measureBody Config.hardware v s).humPct = cvtH .single (measureBody Config.hardware v s).hOut := by
  simp [measureBody_eq]

end MeasureBody

/-- MEASURE's success is its registers, the five flags of a whole cycle, and the end of every command. Said of any
values, so that the comparison of the two states evaluates no datapath. -/
theorem State.succeed_wholeCycle (s : State) (r : RawSample) (x y p h : Word) (c hpa pct : Binary32) :
    ((((s.loadRaw r).writeTemp x y c).writePres p hpa).writeHum h pct).succeed =
      { s with raw := r, tfine := x, tOut := y, pOut := p, hOut := h, tempC := c, presHpa := hpa, humPct := pct,
               fi := s.fi + 1,
               status := { s.status with rawv := true, tfv := true, tv := true, pv := true, hv := true, err := .ok } } :=
  rfl

/-- Settles O30: the check is `needCal`, and each register MEASURE writes is the rules' by the integer reading of its
stage (`tempFine_toInt`, `tempCenti_toInt`, `pressure_toInt`, `humidity_toNat`). -/
theorem measureComputesTheWholeCycle : Obligations.MeasureComputesTheWholeCycle := by
  unfold Obligations.MeasureComputesTheWholeCycle
  refine fun v s => ⟨fun hc => raises_of_checkOf (Status.needCal_noCal hc), fun hc => ?_⟩
  refine ⟨_, exec_of_checkOf_none (Status.needCal_eq_none.2 hc), ?frame, code20_toNat _ _ _, code20_toNat _ _ _,
    code16_toNat _ _, ?fine, ?centi, ?pascal, ?humidity, measureBody_tempC v s, measureBody_presHpa v s,
    measureBody_humPct v s⟩
  case frame => exact State.succeed_wholeCycle s _ _ _ _ _ _ _ _
  case fine => exact (congrArg BitVec.toInt (measureBody_tfine v s)).trans (tempFine_toInt .w32 _ _)
  case centi => exact (congrArg BitVec.toInt (measureBody_tOut v s)).trans (tempCenti_toInt .w32 _)
  case pascal =>
    rw [State.succeed_pOut, bodyOf, measureBody_pOut, trunc32_toNat _ (by decide), pressure_toInt]
    rfl
  case humidity =>
    rw [State.succeed_hOut, bodyOf, measureBody_hOut]
    exact humidity_toNat .w32 _ _ _

/-! ### CYCLE (R84, R163) -/

/-- No body reads what the end of an earlier command writes. -/
theorem bodyOf_succeed (i : Instr) (s : State) : bodyOf i s.succeed = (bodyOf i s).succeed := by
  apply State.ext
  case status => apply Status.ext <;> cases i <;> simp [bodyOf_status]
  all_goals cases i <;> simp [bodyOf, measureBody_eq]

/-- No body reads or writes what the host presents. -/
theorem bodyOf_presentFirst (i : Instr) (bs : List Byte) (s : State) :
    bodyOf i (s.presentFirst bs) = (bodyOf i s).presentFirst bs := by
  apply State.ext <;> cases i <;> simp [bodyOf, measureBody_eq]

theorem State.presentFirst_append (as bs : List Byte) (s : State) :
    s.presentFirst (as ++ bs) = (s.presentFirst bs).presentFirst as := by
  simp [State.presentFirst]

/-- A run whose first frame is a command that passes its check goes on behind the frame, from the command's success. -/
theorem core_run_presentFirst {i : Instr} {s : State} (hcheck : checkOf i s.status = none) (n : Nat) (bs : List Byte) :
    Host.Core.run Sys2Proof.core (n + 1) (s.presentFirst (encode i ++ bs)) =
      Host.Core.run Sys2Proof.core n ((bodyOf i s).succeed.presentFirst bs) := by
  apply core_run_succ
  calc step (s.presentFirst (encode i ++ bs))
      = exec i (s.presentFirst bs) := by
        rw [State.presentFirst_append]
        exact presentedFrameIsExecuted _ i (s.presentFirst bs).host rfl
    _ = .next (bodyOf i (s.presentFirst bs)).succeed := exec_of_checkOf_none hcheck
    _ = .next ((bodyOf i s).succeed.presentFirst bs) := by rw [bodyOf_presentFirst]; rfl

/-- The four bodies of CYCLE in order are MEASURE's (R162). -/
theorem bodyOf_cycleExpansion (v : Vector Byte 8) (s : State) :
    bodyOf .compH (bodyOf .compP (bodyOf .compT (bodyOf (.rawLoad v) s))) = bodyOf (.measure v) s :=
  (measureBody_eq s Config.hardware v).symm

/-- CYCLE's four frames are MEASURE's writes under four ends of a command. -/
theorem core_run_cycle (v : Vector Byte 8) {s : State} (hc : s.status.calv = true) :
    Host.Core.run Sys2Proof.core 4 (s.presentFirst (Assembler.assembleLine (.cycle v))) =
      .next (bodyOf (.measure v) s).succeed.succeed.succeed.succeed := by
  have hbytes : Assembler.assembleLine (.cycle v) =
      encode (.rawLoad v) ++ (encode .compT ++ (encode .compP ++ (encode .compH ++ []))) := rfl
  rw [hbytes, core_run_presentFirst, core_run_presentFirst, core_run_presentFirst, core_run_presentFirst]
  · simp only [bodyOf_succeed, bodyOf_cycleExpansion]
    rfl
  · exact Status.needTfine_eq_none.2 (by simp [bodyOf_status, hc])
  · exact Status.needTfine_eq_none.2 (by simp [bodyOf_status, hc])
  · exact Status.needRaw_eq_none.2 (by simp [bodyOf_status, hc])
  · exact Status.needCal_eq_none.2 hc

/-- Settles O31: MEASURE's frame and CYCLE's four reach the same writes (`core_run_cycle`), under one end of a command
and under four, which differ in the frame index alone. -/
theorem measureEqualsTheExpandedCycle : Obligations.MeasureEqualsTheExpandedCycle := by
  unfold Obligations.MeasureEqualsTheExpandedCycle
  intro v s rest hc
  have hmeasure := core_run_presentFirst (i := .measure v) (s := { s with host := rest })
    (Status.needCal_eq_none.2 hc) 0 []
  have hcycle := core_run_cycle v (s := { s with host := rest }) hc
  rw [List.append_nil] at hmeasure
  refine ⟨_, _, hmeasure, hcycle, rfl, ?_, ?_, ?_, ?_⟩ <;> simp

end Sys2Proof.Machine
end

