-- ==== Sys2Proof/Proofs/Conversions.lean ====
section
/-!
The conversions to binary32 (45_control.md R165, R166). `fl32` and `divide32` depend on a quotient alone, so each is one
function of the rational it rounds (`roundBinary32`), and a conversion is a chain of these. What a chain needs of each
link is that its quotient is 0 or well inside the normal range (`ZeroOrMagnitudeIn`), or exact (`Binary32Grid`).
-/
namespace Sys2Proof.Machine

open Sys2Proof Sys2Proof.Reference

/-! ### One rounding, as a function of the quotient -/

/-- The model's `fl32` of a rational. -/
def roundBinary32 (q : ℚ) : Binary32 := fl32 q.num q.den

theorem fl32_eq_roundBinary32 (num : Int) {den : Nat} (hd : 0 < den) :
    fl32 num den = roundBinary32 ((num : ℚ) / den) := by
  refine fl32_eq_of_cross hd (Rat.den_pos _) ?_
  have hden : (den : ℚ) ≠ 0 := by positivity
  have hcross : (num : ℚ) * ((num : ℚ) / den).den = ((num : ℚ) / den).num * den := by
    rw [← Rat.mul_den_eq_num, mul_right_comm, div_mul_cancel₀ _ hden]
  exact_mod_cast hcross

theorem two_zpow_eq_div (k : Int) : (2 : ℚ) ^ k = 2 ^ k.toNat / 2 ^ (-k).toNat := by
  rw [← zpow_natCast, ← zpow_natCast, ← zpow_sub₀ (by norm_num)]
  congr 1
  omega

/-- A pattern's value is the quotient that `divide32` reads it as. -/
theorem binary32Value_eq_div (f : Binary32) : binary32Value f = (numeratorOf f : ℚ) / denominatorOf f := by
  have hvalue : binary32Value f = signFactor f.msb * (significandOf f * 2 ^ scaleOf f) := by
    rw [binary32Value, significandOf, scaleOf]
    by_cases he : exponentField f = 0
    · have he' : (f.extractLsb' 23 8).toNat = 0 := he
      rw [if_pos he', if_pos he, he]
      rfl
    · have he' : ¬ (f.extractLsb' 23 8).toNat = 0 := he
      rw [if_neg he', if_neg he, max_eq_left (by omega)]
      push_cast
      rfl
  have hnum : (numeratorOf f : ℚ) = signFactor f.msb * (significandOf f * 2 ^ (scaleOf f).toNat) := by
    rw [numeratorOf, signFactor]
    split <;> push_cast <;> ring
  rw [hvalue, hnum, denominatorOf, two_zpow_eq_div]
  push_cast
  ring

theorem divide32_eq_roundBinary32 (f : Binary32) {d : Nat} (hd : 0 < d) :
    divide32 f d = roundBinary32 (binary32Value f / d) := by
  rw [divide32, fl32_eq_roundBinary32 _ (Nat.mul_pos (denominatorOf_pos f) hd), binary32Value_eq_div, Nat.cast_mul,
    div_div]

@[simp] theorem roundBinary32_zero : roundBinary32 0 = 0 := fl32_zero 1

theorem natAbs_num_div_den (q : ℚ) : (q.num.natAbs : ℚ) / q.den = |q| := by
  rw [Nat.cast_natAbs, Int.cast_abs, ← Nat.abs_cast q.den, ← abs_div, Rat.num_div_den]

theorem natAbs_num_lt {q : ℚ} (h : |q| < 2 ^ 127) : q.num.natAbs < 2 ^ 127 * q.den := by
  rw [← natAbs_num_div_den, div_lt_iff₀ (by exact_mod_cast q.den_pos)] at h
  exact_mod_cast h

/-- R11 for a rational: O49 at its lowest terms. -/
theorem isFl32_roundBinary32 {q : ℚ} (h : |q| < 2 ^ 127) : IsFl32 q (roundBinary32 q) := by
  have := fl32RoundsToNearestEven q.num q.den q.den_pos (natAbs_num_lt h)
  rwa [Rat.num_div_den] at this

theorem roundBinary32_msb (q : ℚ) : (roundBinary32 q).msb = decide (q < 0) := by
  rw [roundBinary32, fl32_eq_signMagnitude, signMagnitude_msb]
  simp

/-- All a rounding of a non-zero rational can be. -/
theorem roundBinary32_eq {q : ℚ} (hq : q ≠ 0) (h : |q| < 2 ^ 127) :
    ∃ m k, IsRounding |q| m k ∧
      roundBinary32 q = signMagnitude (decide (q < 0)) ((k + 149).toNat * 2 ^ 23 + m) := by
  have hpos : 0 < q.num.natAbs := Int.natAbs_pos.2 (Rat.num_ne_zero.2 hq)
  obtain ⟨m, k, hround, hM⟩ := fl32Magnitude_isRounding hpos q.den_pos (natAbs_num_lt h)
  refine ⟨m, k, natAbs_num_div_den q ▸ hround, ?_⟩
  rw [roundBinary32, fl32_eq_signMagnitude, hM, decide_eq_decide.2 Rat.num_neg]

/-- The value of a rounding is the significand at its unit, under the sign of what is rounded. -/
theorem IsRounding.binary32Value_eq {x : ℚ} {m : Nat} {k : Int} (h : IsRounding x m k) (s : Bool) :
    binary32Value (signMagnitude s ((k + 149).toNat * 2 ^ 23 + m)) = signFactor s * (m * 2 ^ k) :=
  binary32Value_signMagnitude s h.exponent_ge h.exponent_le h.significand_le fun hk => (h.normal hk).1

/-! ### Exact roundings -/

theorem abs_signFactor_mul (s : Bool) (y : ℚ) : |signFactor s * y| = |y| := by
  simpa using abs_signFactor_mul_sub s y 0

theorem signFactor_mul_self (q : ℚ) : signFactor (decide (q < 0)) * q = |q| := by
  obtain h | h := lt_or_ge q 0
  · simp [signFactor, h, abs_of_neg h]
  · simp [signFactor, h.not_gt, abs_of_nonneg h]

theorem signFactor_mul_abs (q : ℚ) : signFactor (decide (q < 0)) * |q| = q := by
  rw [← signFactor_mul_self, signFactor_mul_signFactor_mul]

/-- A value of the format is its own rounding. -/
theorem IsRounding.eq_of_grid {x : ℚ} {m : Nat} {k : Int} (h : IsRounding x m k) (hx : Binary32Grid x) :
    m * 2 ^ k = x := by
  by_contra hne
  obtain ⟨z, rfl⟩ | ⟨hk, hlt⟩ := hx.multiple_or_below k
  · have := (h.nearest_grid hx (Ne.symm hne)).1
    rw [sub_self, abs_zero] at this
    exact hne (sub_eq_zero.1 (abs_nonpos_iff.1 this)).symm
  · exact absurd (h.normal hk).2 hlt.not_ge

theorem binary32Value_roundBinary32_of_grid {q : ℚ} (hgrid : Binary32Grid q) (h : |q| < 2 ^ 127) :
    binary32Value (roundBinary32 q) = q := by
  obtain rfl | hq := eq_or_ne q 0
  · rw [roundBinary32_zero, binary32Value_zero]
  · obtain ⟨m, k, hround, heq⟩ := roundBinary32_eq hq h
    have habs : Binary32Grid |q| := signFactor_mul_self q ▸ hgrid.signFactor_mul _
    rw [heq, hround.binary32Value_eq, hround.eq_of_grid habs, signFactor_mul_abs]

/-! ### Roundings in the normal range -/

/-- `q` is 0, or its magnitude is between `2 ^ -a` and `2 ^ b`. -/
def ZeroOrMagnitudeIn (a b : Nat) (q : ℚ) : Prop := q = 0 ∨ (1 / 2 ^ a ≤ |q| ∧ |q| ≤ 2 ^ b)

namespace IsRounding

variable {x : ℚ} {m : Nat} {k : Int}

/-- From the least normal magnitude up the significand has its leading bit. -/
theorem significand_ge (h : IsRounding x m k) (hx : 1 / 2 ^ 126 ≤ x) : 2 ^ 23 ≤ m := by
  obtain hk | rfl := h.exponent_ge.lt_or_eq
  · exact (h.normal hk).1
  · have hunits : (2 : ℚ) ^ 23 ≤ x / 2 ^ (-149 : Int) := by
      rw [le_div_iff₀ (by positivity)]
      exact le_trans (by norm_num) hx
    have hnear := (abs_le.1 h.near).2
    have hm : (2 : ℚ) ^ 23 < m + 1 := by linarith
    exact Nat.lt_add_one_iff.1 (by exact_mod_cast hm)

/-- A normal rounding is within a factor of two. -/
theorem within_factor_two (h : IsRounding x m k) (hm : 1 ≤ m) : x / 2 ≤ m * 2 ^ k ∧ m * 2 ^ k ≤ 2 * x := by
  have hk : (0 : ℚ) < 2 ^ k := by positivity
  have hdist : |x - m * 2 ^ k| ≤ 1 / 2 * 2 ^ k := by
    rw [abs_sub_mul_zpow]
    exact mul_le_mul_of_nonneg_right h.near hk.le
  have hunit : (2 : ℚ) ^ k ≤ m * 2 ^ k := le_mul_of_one_le_left hk.le (by exact_mod_cast hm)
  obtain ⟨hlo, hhi⟩ := abs_le.1 hdist
  constructor <;> linarith

end IsRounding

namespace ZeroOrMagnitudeIn

variable {a b : Nat} {q : ℚ}

theorem of_int {z : Int} (h : |z| ≤ 2 ^ b) : ZeroOrMagnitudeIn 0 b z := by
  obtain rfl | hz := eq_or_ne z 0
  · exact .inl Int.cast_zero
  · exact .inr ⟨by rw [pow_zero, div_one]; exact_mod_cast Int.one_le_abs hz, by exact_mod_cast h⟩

theorem mono (h : ZeroOrMagnitudeIn a b q) {a' b' : Nat} (ha : a ≤ a') (hb : b ≤ b') : ZeroOrMagnitudeIn a' b' q :=
  h.imp_right fun ⟨hlo, hhi⟩ =>
    ⟨(one_div_pow_le_one_div_pow_of_le (by norm_num) ha).trans hlo, hhi.trans (pow_le_pow_right₀ (by norm_num) hb)⟩

/-- The divisors of R165 lower the magnitude by at most 15 binary places. -/
theorem div (h : ZeroOrMagnitudeIn a b q) {d : ℚ} (hd : 1 ≤ d ∧ d ≤ 2 ^ 15) : ZeroOrMagnitudeIn (a + 15) b (q / d) := by
  obtain ⟨hd1, hd15⟩ := hd
  obtain rfl | ⟨hlo, hhi⟩ := h
  · exact .inl (zero_div _)
  · refine .inr ?_
    rw [abs_div, abs_of_pos (a := d) (by linarith)]
    constructor
    · rw [pow_add, ← div_div]
      gcongr
    · exact (div_le_self (abs_nonneg q) hd1).trans hhi

variable (h : ZeroOrMagnitudeIn a b q) (ha : a ≤ 126 := by decide) (hb : b < 127 := by decide)
include h

theorem lt (hb : b < 127 := by decide) : |q| < 2 ^ 127 := by
  obtain rfl | ⟨-, hhi⟩ := h
  · norm_num
  · exact hhi.trans_lt (pow_lt_pow_right₀ (by norm_num) hb)

include ha hb

/-- A rounding of a quotient in the normal range: an assembled pattern with a leading bit. -/
theorem roundBinary32_eq (hq : q ≠ 0) :
    ∃ m k, IsRounding |q| m k ∧ 2 ^ 23 ≤ m ∧
      roundBinary32 q = signMagnitude (decide (q < 0)) ((k + 149).toNat * 2 ^ 23 + m) := by
  obtain ⟨m, k, hround, heq⟩ := Machine.roundBinary32_eq hq (h.lt hb)
  obtain hzero | ⟨hlo, -⟩ := h
  · exact absurd hzero hq
  · refine ⟨m, k, hround, hround.significand_ge (le_trans ?_ hlo), heq⟩
    gcongr
    norm_num

/-- The value of a rounding has the sign of what is rounded, and half to twice its magnitude. -/
theorem binary32Value_roundBinary32 (hq : q ≠ 0) :
    ∃ y, |q| / 2 ≤ y ∧ y ≤ 2 * |q| ∧ binary32Value (roundBinary32 q) = signFactor (decide (q < 0)) * y := by
  obtain ⟨m, k, hround, hm, heq⟩ := h.roundBinary32_eq ha hb hq
  obtain ⟨hlo, hhi⟩ := hround.within_factor_two (le_trans (by norm_num) hm)
  exact ⟨_, hlo, hhi, heq ▸ hround.binary32Value_eq _⟩

/-- The range after a rounding, for the next link of a chain. -/
theorem round : ZeroOrMagnitudeIn (a + 1) (b + 1) (binary32Value (roundBinary32 q)) := by
  obtain rfl | hq := eq_or_ne q 0
  · exact .inl (by rw [roundBinary32_zero, binary32Value_zero])
  · obtain ⟨y, hlo, hhi, hval⟩ := h.binary32Value_roundBinary32 ha hb hq
    obtain hzero | ⟨hqlo, hqhi⟩ := h
    · exact absurd hzero hq
    · have hy : |signFactor (decide (q < 0)) * y| = y := by
        rw [abs_signFactor_mul, abs_of_nonneg (le_trans (by positivity) hlo)]
      refine .inr ?_
      rw [hval, hy, pow_succ, pow_succ, ← div_div]
      constructor <;> linarith

theorem binary32Value_roundBinary32_neg_iff : binary32Value (roundBinary32 q) < 0 ↔ q < 0 := by
  obtain rfl | hq := eq_or_ne q 0
  · rw [roundBinary32_zero, binary32Value_zero]
  · obtain ⟨y, hlo, hhi, hval⟩ := h.binary32Value_roundBinary32 ha hb hq
    have hy : 0 < y := by
      have := abs_pos.2 hq
      linarith
    rw [hval, signFactor]
    by_cases hneg : q < 0 <;> simp [hneg, hy, hy.le]

/-- In the normal range the result is finite, and its exponent field is 0 for `+0.0` only. -/
theorem finite_and_normal :
    FiniteBinary32 (roundBinary32 q) ∧ (((roundBinary32 q).extractLsb' 23 8).toNat = 0 → roundBinary32 q = 0) := by
  refine ⟨(isFl32_roundBinary32 (h.lt hb)).finite, fun hexp => ?_⟩
  obtain rfl | hq := eq_or_ne q 0
  · exact roundBinary32_zero
  · obtain ⟨m, k, hround, hm, heq⟩ := h.roundBinary32_eq ha hb hq
    have hM := hround.magnitude_lt
    rw [heq, signMagnitude_exponent _ (by omega)] at hexp
    omega

end ZeroOrMagnitudeIn

/-! ### The conversions as chains of roundings (R165) -/

theorem cvtT_single_eq (t : Word) : cvtT .single t = roundBinary32 ((t.toInt : ℚ) / 100) :=
  fl32_eq_roundBinary32 _ (by decide)

theorem cvtP_single_eq (p : Word) : cvtP .single p = roundBinary32 ((p.toNat : ℚ) / 25600) :=
  fl32_eq_roundBinary32 _ (by decide)

theorem cvtH_single_eq (h : Word) : cvtH .single h = roundBinary32 ((h.toNat : ℚ) / 1024) :=
  fl32_eq_roundBinary32 _ (by decide)

/-- The first rounding of STAGED, of the integer itself. -/
theorem fl32_one_eq_roundBinary32 (z : Int) : fl32 z 1 = roundBinary32 z := by
  rw [fl32_eq_roundBinary32 z Nat.one_pos, Nat.cast_one, div_one]

theorem cvtT_staged_eq (t : Word) :
    cvtT .staged t = roundBinary32 (binary32Value (roundBinary32 t.toInt) / 100) := by
  rw [cvtT, divide32_eq_roundBinary32 _ (by decide), fl32_one_eq_roundBinary32, Nat.cast_ofNat]

theorem cvtP_staged_eq (p : Word) :
    cvtP .staged p =
      roundBinary32 (binary32Value (roundBinary32 (binary32Value (roundBinary32 p.toNat) / 256)) / 100) := by
  rw [cvtP, divide32_eq_roundBinary32 _ (by decide), divide32_eq_roundBinary32 _ (by decide),
    fl32_one_eq_roundBinary32, Int.cast_natCast, Nat.cast_ofNat, Nat.cast_ofNat]

theorem cvtH_staged_eq (h : Word) :
    cvtH .staged h = roundBinary32 (binary32Value (roundBinary32 h.toNat) / 1024) := by
  rw [cvtH, divide32_eq_roundBinary32 _ (by decide), fl32_one_eq_roundBinary32, Int.cast_natCast, Nat.cast_ofNat]

/-! ### Their links are in the normal range -/

namespace ZeroOrMagnitudeIn

theorem toInt (t : Word) : ZeroOrMagnitudeIn 0 32 (t.toInt : ℚ) := by
  apply of_int
  have hlo := t.le_toInt
  have hhi := t.toInt_lt
  rw [abs_le]
  omega

theorem toNat (p : Word) : ZeroOrMagnitudeIn 0 32 (p.toNat : ℚ) := by
  have hp : |(p.toNat : Int)| ≤ 2 ^ 32 := by
    have := p.isLt
    rw [Nat.abs_cast]
    omega
  simpa only [Int.cast_natCast] using of_int hp

/-- A rounded integer over a divisor of R165. -/
theorem round_div {q d : ℚ} (h : ZeroOrMagnitudeIn 0 32 q) (hd : 1 ≤ d ∧ d ≤ 2 ^ 15) :
    ZeroOrMagnitudeIn 16 33 (binary32Value (roundBinary32 q) / d) :=
  h.round.div hd

end ZeroOrMagnitudeIn

/-- The two quotients that STAGED makes of a pressure. -/
theorem cvtP_staged_links (p : Word) :
    ZeroOrMagnitudeIn 16 33 (binary32Value (roundBinary32 p.toNat) / 256) ∧
    ZeroOrMagnitudeIn 32 34 (binary32Value (roundBinary32 (binary32Value (roundBinary32 p.toNat) / 256)) / 100) := by
  have hfirst := (ZeroOrMagnitudeIn.toNat p).round_div (d := 256) (by norm_num)
  exact ⟨hfirst, hfirst.round.div (by norm_num)⟩

/-- Settles O50: each link of a conversion is one `roundBinary32` of a quotient in the range of O49. -/
theorem conversionsRoundAsTheTableSays : Obligations.ConversionsRoundAsTheTableSays := by
  unfold Obligations.ConversionsRoundAsTheTableSays
  refine ⟨fun t => ?_, fun p => ?_, fun h => ?_⟩
  · have hint := ZeroOrMagnitudeIn.toInt t
    rw [cvtT_single_eq, cvtT_staged_eq]
    exact ⟨isFl32_roundBinary32 (hint.div (by norm_num)).lt, _, isFl32_roundBinary32 hint.lt,
      isFl32_roundBinary32 (hint.round_div (by norm_num)).lt⟩
  · have hint := ZeroOrMagnitudeIn.toNat p
    obtain ⟨hfirst, hsecond⟩ := cvtP_staged_links p
    rw [cvtP_single_eq, cvtP_staged_eq]
    exact ⟨isFl32_roundBinary32 (hint.div (by norm_num)).lt, _, _, isFl32_roundBinary32 hint.lt,
      isFl32_roundBinary32 hfirst.lt, isFl32_roundBinary32 hsecond.lt⟩
  · have hint := ZeroOrMagnitudeIn.toNat h
    rw [cvtH_single_eq, cvtH_staged_eq]
    exact ⟨isFl32_roundBinary32 (hint.div (by norm_num)).lt, _, isFl32_roundBinary32 hint.lt,
      isFl32_roundBinary32 (hint.round_div (by norm_num)).lt⟩

/-! ### Exact links -/

/-- An integer of at most 24 bits over a power of two is exact; R165's divisors are within `2 ^ 15`. -/
theorem binary32Value_roundBinary32_div {z : Int} (hz : |z| < 2 ^ 24) {c : Nat} (hc : c ≤ 15) :
    binary32Value (roundBinary32 ((z : ℚ) / 2 ^ c)) = (z : ℚ) / 2 ^ c := by
  apply binary32Value_roundBinary32_of_grid
  · exact ⟨z, -c, hz, by omega, by rw [zpow_neg, zpow_natCast, div_eq_mul_inv]⟩
  · have hd : (1 : ℚ) ≤ 2 ^ c ∧ (2 : ℚ) ^ c ≤ 2 ^ 15 :=
      ⟨one_le_pow₀ (by norm_num), pow_le_pow_right₀ (by norm_num) hc⟩
    exact ((ZeroOrMagnitudeIn.of_int hz.le).div hd).lt

/-- The exact quotients of an unsigned register, by the exponent of the divisor. -/
theorem binary32Value_roundBinary32_toNat_div {x : Word} (hx : x.toNat < 2 ^ 24) {c : Nat} (hc : c ≤ 15) :
    binary32Value (roundBinary32 ((x.toNat : ℚ) / 2 ^ c)) = (x.toNat : ℚ) / 2 ^ c := by
  have hx' : |(x.toNat : Int)| < 2 ^ 24 := by
    rw [Nat.abs_cast]
    omega
  simpa only [Int.cast_natCast] using binary32Value_roundBinary32_div hx' hc

/-- Settles O52: up to 24 bits the links of STAGED before the last are exact, so the last rounds SINGLE's quotient. -/
theorem stagedEqualsSingleUpTo24Bits : Obligations.StagedEqualsSingleUpTo24Bits := by
  unfold Obligations.StagedEqualsSingleUpTo24Bits
  have hnat : ∀ x : Word, x.toNat < 2 ^ 24 → binary32Value (roundBinary32 x.toNat) = x.toNat := fun x hx => by
    simpa using binary32Value_roundBinary32_toNat_div hx (c := 0) (by decide)
  refine ⟨fun t ht => ?_, fun p hp => ?_, fun h hh => ?_⟩
  · have ht' : |t.toInt| < 2 ^ 24 := by rw [Int.abs_eq_natAbs]; omega
    have hexact : binary32Value (roundBinary32 t.toInt) = t.toInt := by
      simpa using binary32Value_roundBinary32_div ht' (c := 0) (by decide)
    rw [cvtT_staged_eq, cvtT_single_eq, hexact]
  · have hexact : binary32Value (roundBinary32 ((p.toNat : ℚ) / 256)) = (p.toNat : ℚ) / 256 := by
      rw [show (256 : ℚ) = 2 ^ 8 by norm_num]
      exact binary32Value_roundBinary32_toNat_div hp (by decide)
    rw [cvtP_staged_eq, cvtP_single_eq, hnat p hp, hexact, div_div]
    norm_num
  · rw [cvtH_staged_eq, cvtH_single_eq, hnat h hh]

/-! ### The range properties (R166) -/

/-- CvtT under either value of FLOAT_CONV ends in one rounding, of a quotient with the sign of the integer. -/
theorem exists_cvtT_eq_roundBinary32 (conv : FloatConv) (t : Word) :
    ∃ q, cvtT conv t = roundBinary32 q ∧ ZeroOrMagnitudeIn 32 34 q ∧ (q < 0 ↔ t.toInt < 0) := by
  have hint := ZeroOrMagnitudeIn.toInt t
  cases conv with
  | single =>
    refine ⟨_, cvtT_single_eq t, (hint.div (by norm_num)).mono (by decide) (by decide), ?_⟩
    rw [div_lt_iff₀ (by norm_num), zero_mul, Int.cast_lt_zero]
  | staged =>
    refine ⟨_, cvtT_staged_eq t, (hint.round_div (by norm_num)).mono (by decide) (by decide), ?_⟩
    rw [div_lt_iff₀ (by norm_num), zero_mul, hint.binary32Value_roundBinary32_neg_iff, Int.cast_lt_zero]

/-- CvtP under either value of FLOAT_CONV ends in one rounding. -/
theorem exists_cvtP_eq_roundBinary32 (conv : FloatConv) (p : Word) :
    ∃ q, cvtP conv p = roundBinary32 q ∧ ZeroOrMagnitudeIn 32 34 q := by
  have hint := ZeroOrMagnitudeIn.toNat p
  cases conv with
  | single => exact ⟨_, cvtP_single_eq p, (hint.div (by norm_num)).mono (by decide) (by decide)⟩
  | staged => exact ⟨_, cvtP_staged_eq p, (cvtP_staged_links p).2⟩

/-- CvtH under either value of FLOAT_CONV ends in one rounding. -/
theorem exists_cvtH_eq_roundBinary32 (conv : FloatConv) (h : Word) :
    ∃ q, cvtH conv h = roundBinary32 q ∧ ZeroOrMagnitudeIn 32 34 q := by
  have hint := ZeroOrMagnitudeIn.toNat h
  cases conv with
  | single => exact ⟨_, cvtH_single_eq h, (hint.div (by norm_num)).mono (by decide) (by decide)⟩
  | staged => exact ⟨_, cvtH_staged_eq h, (hint.round_div (by norm_num)).mono (by decide) (by decide)⟩

/-- CvtH is exact up to 24 bits, under either value of FLOAT_CONV. -/
theorem binary32Value_cvtH (conv : FloatConv) {h : Word} (hh : h.toNat < 2 ^ 24) :
    binary32Value (cvtH conv h) = (h.toNat : ℚ) / 1024 := by
  have hsingle : cvtH conv h = cvtH .single h := by
    cases conv with
    | single => rfl
    | staged => exact stagedEqualsSingleUpTo24Bits.2.2 h hh
  rw [hsingle, cvtH_single_eq, show (1024 : ℚ) = 2 ^ 10 by norm_num]
  exact binary32Value_roundBinary32_toNat_div hh (by decide)

/-- Settles O51: every conversion ends in one rounding in the normal range (`exists_cvtT_eq_roundBinary32` and its
two companions), which keeps the sign (`roundBinary32_msb`) and is finite and normal or `+0.0`
(`ZeroOrMagnitudeIn.finite_and_normal`); the range of H_OUT has at most 24 bits (`binary32Value_cvtH`). -/
theorem conversionRangeProperties : Obligations.ConversionRangeProperties := by
  unfold Obligations.ConversionRangeProperties
  refine fun conv => ⟨?zero, ?range, fun h hh => binary32Value_cvtH conv (by omega), fun t => ?sign⟩
  case zero => cases conv <;> decide
  case range =>
    rintro f ⟨x, rfl | rfl | ⟨-, rfl⟩⟩
    · obtain ⟨q, heq, hq, -⟩ := exists_cvtT_eq_roundBinary32 conv x
      exact heq ▸ hq.finite_and_normal
    · obtain ⟨q, heq, hq⟩ := exists_cvtP_eq_roundBinary32 conv x
      exact heq ▸ hq.finite_and_normal
    · obtain ⟨q, heq, hq⟩ := exists_cvtH_eq_roundBinary32 conv x
      exact heq ▸ hq.finite_and_normal
  case sign =>
    obtain ⟨q, heq, -, hsign⟩ := exists_cvtT_eq_roundBinary32 conv t
    rw [heq, roundBinary32_msb, decide_eq_true_iff, hsign]

end Sys2Proof.Machine
end

