-- ==== Sys2Proof/Proofs/Payload.lean ====
section
/-!
The wire payload (48_boundary.md R190 to R192): each field is its bytes, most significant first, and the decoder's one
pattern is the list of 20 bytes.
-/
namespace Sys2Proof.Boundary

open Sys2Proof Sys2Proof.Machine

/-! ### Fields, most significant byte first (R55) -/

/-- Reading the four bytes after those of a number `n` appends them to it. -/
theorem foldl_be32 (v : BitVec 32) (n : Nat) :
    (be32 v).foldl (fun n b => 256 * n + b.toNat) n = 2 ^ 32 * n + v.toNat := by
  simp only [be32, List.foldl_cons, List.foldl_nil, BitVec.extractLsb'_toNat, Nat.shiftRight_eq_div_pow]
  omega

theorem foldl_be32_zero (v : BitVec 32) : (be32 v).foldl (fun n b => 256 * n + b.toNat) 0 = v.toNat := by
  simp [foldl_be32]

theorem foldl_be64 (v : BitVec 64) : (be64 v).foldl (fun n b => 256 * n + b.toNat) 0 = v.toNat := by
  simp only [be64, List.foldl_append, foldl_be32, BitVec.extractLsb'_toNat, Nat.shiftRight_eq_div_pow]
  omega

/-- Settles O56: the bytes in each field's place are that field's, and read back they are its number (`foldl_be64`,
`foldl_be32_zero`). -/
theorem payloadLayout : Obligations.PayloadLayout := by
  unfold Obligations.PayloadLayout
  intro ts r
  have hts : (encodePayload ts r).take 8 = be64 ts := rfl
  have htemp : ((encodePayload ts r).drop 8).take 4 = be32 r.tempC := rfl
  have hpres : ((encodePayload ts r).drop 12).take 4 = be32 r.presHpa := rfl
  have hhum : (encodePayload ts r).drop 16 = be32 r.humPct := rfl
  rw [hts, htemp, hpres, hhum]
  exact ⟨rfl, foldl_be64 ts, foldl_be32_zero _, foldl_be32_zero _, foldl_be32_zero _⟩

/-! ### The decoder (R191, R192) -/

/-- The bytes of a 20-byte payload are the decoder's pattern. -/
theorem decodePayload_of_length {bs : List Byte} (h : bs.length = 20) : ∃ ts r, decodePayload bs = .reading ts r :=
  match bs, h with
  | [_, _, _, _, _, _, _, _, _, _, _, _, _, _, _, _, _, _, _, _], _ => ⟨_, _, rfl⟩

/-- Settles O57: any other length misses the decoder's pattern, and 20 bytes meet it (`decodePayload_of_length`). -/
theorem payloadOfAnotherLengthIsInvalid : Obligations.PayloadOfAnotherLengthIsInvalid := by
  unfold Obligations.PayloadOfAnotherLengthIsInvalid
  refine fun bs => ⟨fun hinvalid hlen => ?_, fun hlen => ?_⟩
  · obtain ⟨ts, r, hr⟩ := decodePayload_of_length hlen
    simp [hr] at hinvalid
  · unfold decodePayload
    split
    · exact absurd rfl hlen
    · rfl

theorem fromBe32_be32 (v : BitVec 32) :
    fromBe32 (v.extractLsb' 24 8) (v.extractLsb' 16 8) (v.extractLsb' 8 8) (v.extractLsb' 0 8) = v := by
  apply BitVec.eq_of_toNat_eq
  simp only [fromBe32, append_toNat, BitVec.extractLsb'_toNat, Nat.shiftRight_eq_div_pow]
  omega

theorem append_halves (v : BitVec 64) : v.extractLsb' 32 32 ++ v.extractLsb' 0 32 = v := by
  apply BitVec.eq_of_toNat_eq
  simp only [append_toNat, BitVec.extractLsb'_toNat, Nat.shiftRight_eq_div_pow]
  omega

/-- Settles O58: the payload is the decoder's pattern, and each field's bytes put together are the field. -/
theorem payloadRoundTrip : Obligations.PayloadRoundTrip := by
  unfold Obligations.PayloadRoundTrip
  intro ts r
  simp only [encodePayload, be64, be32, List.cons_append, List.nil_append, decodePayload, fromBe32_be32, append_halves]

end Sys2Proof.Boundary
end

