-- ==== Sys2Proof/Proofs/Boundary.lean ====
section
/-!
The register protocol, the initialisation and the read cycle (48_boundary.md R180 to R189). An exchange is answered or
fails, and each of the two decides what the host program goes on with; so one rule per exchange gives how each program
ends, and the iffs follow because a program is a function.
-/
namespace Sys2Proof.Boundary

open Sys2Proof Sys2Proof.Machine Sys2Proof.Reference Sys2Proof.Safety

variable {σ : Type} {bus : Bus σ} {st st' : σ} {acts : List HostAction} {addr : BitVec 7}

/-! ### The bytes of a request (R181, R182) -/

theorem readMarker_eq_ofNat (addr : BitVec 7) : readMarker addr = BitVec.ofNat 8 (128 + addr.toNat) := by
  have hor : 128 + addr.toNat = 128 ||| addr.toNat := Nat.two_pow_add_eq_or_of_lt (i := 7) addr.isLt 1
  rw [readMarker, hor, BitVec.ofNat_or, ← BitVec.ofNat_toNat]
  rfl

theorem writeAddress_eq_ofNat (addr : BitVec 7) : addr.setWidth 8 &&& 0x7F = BitVec.ofNat 8 addr.toNat := by
  have haddr : addr.toNat % 256 = addr.toNat := Nat.mod_eq_of_lt (by omega)
  have hand : addr.toNat &&& 127 = addr.toNat := Nat.and_two_pow_sub_one_of_lt_two_pow (n := 7) addr.isLt
  apply BitVec.eq_of_toNat_eq
  simp [haddr, hand]

/-- Settles O53: the request bytes are the rule's (`readMarker_eq_ofNat`, `writeAddress_eq_ofNat`), and a response of
the request's length is taken as the laws of the register protocol say. -/
theorem registerProtocolBytes : Obligations.RegisterProtocolBytes := by
  unfold Obligations.RegisterProtocolBytes
  intro σ bus st st' acts addr
  simp only [← readMarker_eq_ofNat, ← writeAddress_eq_ofNat]
  refine ⟨fun x v hb => ?_, fun v x y hb => ?_, fun n x block hb => ?_⟩
  · exact readRegister_of_answer hb rfl rfl
  · exact writeRegister_of_answer hb rfl
  · exact readBlock_of_answer hb (by simp [blockRequest]) rfl

/-! ### Each exchange is answered or fails (R180) -/

theorem answers_or_fails (bus : Bus σ) (st : σ) (request : List Byte) :
    (∃ response st', Answers bus st request response st') ∨ ∃ st', Fails bus st request st' := by
  rcases hb : bus.exchange st request with ⟨answer, st'⟩
  by_cases h : ∃ response, answer = some response ∧ response.length = request.length
  · obtain ⟨response, rfl, hl⟩ := h
    exact .inl ⟨response, st', hb, hl⟩
  · exact .inr ⟨st', answer, hb, fun response ha hl => h ⟨response, ha, hl⟩⟩

theorem writeAnswered_or_fails (bus : Bus σ) (st : σ) (addr : BitVec 7) (v : Byte) :
    (∃ st', WriteAnswered bus st addr v st') ∨ ∃ st', Fails bus st (writeRequest addr v) st' := by
  obtain ⟨response, st', h⟩ | h := answers_or_fails bus st (writeRequest addr v)
  · exact .inl ⟨st', response, h⟩
  · exact .inr h

theorem blockAnswered_or_fails (bus : Bus σ) (st : σ) (addr : BitVec 7) (n : Nat) :
    (∃ (block : Vector Byte n) (st' : σ), BlockAnswered bus st addr block st') ∨
      ∃ st', Fails bus st (blockRequest addr n) st' := by
  obtain ⟨response, st', h⟩ | h := answers_or_fails bus st (blockRequest addr n)
  · obtain ⟨block, hblock⟩ := exists_vector_toList_eq (n := n) (bs := response.drop 1) (by simp [h.2, blockRequest])
    exact .inl ⟨block, st', response, h, hblock.symm⟩
  · exact .inr h

theorem chipIdentified_or_fails (bus : Bus σ) (st : σ) :
    (∃ st', ChipIdentified bus st st') ∨
    (∃ response st', Answers bus st (readRequest Config.regChipId) response st' ∧
      response[1]? ≠ some Config.chipIdValue) ∨
    ∃ st', Fails bus st (readRequest Config.regChipId) st' := by
  obtain ⟨response, st', h⟩ | h := answers_or_fails bus st (readRequest Config.regChipId)
  · by_cases hid : response[1]? = some Config.chipIdValue
    · exact .inl ⟨st', response, h, hid⟩
    · exact .inr (.inl ⟨response, st', h, hid⟩)
  · exact .inr (.inr h)

/-! ### What each makes of a write, a block read and the identification -/

theorem writeRegister_of_answered {v : Byte} (h : WriteAnswered bus st addr v st') :
    writeRegister bus addr v (st, acts) = (.ok (), st', acts ++ [.exchange (writeRequest addr v)]) := by
  obtain ⟨response, hb, hl⟩ := h
  exact writeRegister_of_answer hb hl

theorem writeRegister_of_fails {v : Byte} (h : Fails bus st (writeRequest addr v) st') :
    writeRegister bus addr v (st, acts) = (.error .transport, st', acts ++ [.exchange (writeRequest addr v)]) := by
  obtain ⟨answer, hb, hl⟩ := h
  exact writeRegister_of_failure hb hl

theorem readBlock_of_answered {n : Nat} {block : Vector Byte n} (h : BlockAnswered bus st addr block st') :
    readBlock bus addr n (st, acts) = (.ok block, st', acts ++ [.exchange (blockRequest addr n)]) := by
  obtain ⟨response, ⟨hb, hl⟩, hv⟩ := h
  exact readBlock_of_answer hb hl hv

theorem readBlock_of_fails {n : Nat} (h : Fails bus st (blockRequest addr n) st') :
    readBlock bus addr n (st, acts) = (.error .transport, st', acts ++ [.exchange (blockRequest addr n)]) := by
  obtain ⟨answer, hb, hl⟩ := h
  exact readBlock_of_failure hb hl

theorem identify_of_identified (h : ChipIdentified bus st st') :
    identify bus (st, acts) = (.ok (), st', acts ++ [.exchange (readRequest Config.regChipId)]) := by
  obtain ⟨response, ⟨hb, hl⟩, hid⟩ := h
  simp [identify, andThen_of_ok (readRegister_of_answer hb hl hid), give]

theorem identify_of_otherId {response : List Byte}
    (h : Answers bus st (readRequest Config.regChipId) response st') (hid : response[1]? ≠ some Config.chipIdValue) :
    identify bus (st, acts) = (.error .unexpectedChipId, st', acts ++ [.exchange (readRequest Config.regChipId)]) := by
  obtain ⟨hb, hl⟩ := h
  have hlt : 1 < response.length := by simp [hl, readRequest]
  have hget : response[1]? = some response[1] := List.getElem?_eq_getElem hlt
  have hne : response[1] ≠ Config.chipIdValue := fun heq => hid (heq ▸ hget)
  simp [identify, andThen_of_ok (readRegister_of_answer hb hl hget), hne, failWith]

theorem identify_of_fails (h : Fails bus st (readRequest Config.regChipId) st') :
    identify bus (st, acts) = (.error .transport, st', acts ++ [.exchange (readRequest Config.regChipId)]) := by
  obtain ⟨answer, hb, hl⟩ := h
  exact andThen_of_error (readRegister_of_failure hb hl) _

/-! ### The steps of the initialisation (R186 to R188) -/

theorem softReset_of_answered (h : WriteAnswered bus st Config.regReset Config.resetCmd st') :
    softReset bus (st, acts) = (.ok (), st',
      acts ++ [.exchange (writeRequest Config.regReset Config.resetCmd)] ++ [.settle Config.resetSettle]) :=
  andThen_of_ok (writeRegister_of_answered h) _

theorem softReset_of_fails (h : Fails bus st (writeRequest Config.regReset Config.resetCmd) st') :
    softReset bus (st, acts) =
      (.error .transport, st', acts ++ [.exchange (writeRequest Config.regReset Config.resetCmd)]) :=
  andThen_of_error (writeRegister_of_fails h) _

/-- A block read answered, as the calibration load goes on with it. -/
theorem reportAs_readBlock_of_answered {n : Nat} {block : Vector Byte n} (e : HostError)
    (h : BlockAnswered bus st addr block st') :
    reportAs e (readBlock bus addr n) (st, acts) = (.ok block, st', acts ++ [.exchange (blockRequest addr n)]) :=
  reportAs_of_ok (readBlock_of_answered h) e

theorem reportAs_readBlock_of_fails {n : Nat} (e : HostError) (h : Fails bus st (blockRequest addr n) st') :
    reportAs e (readBlock bus addr n) (st, acts) = (.error e, st', acts ++ [.exchange (blockRequest addr n)]) :=
  reportAs_of_error (readBlock_of_fails h) e

theorem loadCalibration_of_answered {a : Vector Byte 26} {b : Vector Byte 7} {s₃ : σ}
    (ha : BlockAnswered bus st Config.regCalibA a s₃) (hb : BlockAnswered bus s₃ Config.regCalibB b st') :
    loadCalibration bus (st, acts) = (.ok (), st', acts ++ [.exchange (blockRequest Config.regCalibA 26)] ++
      [.exchange (blockRequest Config.regCalibB 7)] ++ [.issue (encode (.calLoad a b))]) :=
  (andThen_of_ok (reportAs_readBlock_of_answered .calibration ha) _).trans
    (andThen_of_ok (reportAs_readBlock_of_answered .calibration hb) _)

theorem loadCalibration_of_blockA_fails (h : Fails bus st (blockRequest Config.regCalibA 26) st') :
    loadCalibration bus (st, acts) =
      (.error .calibration, st', acts ++ [.exchange (blockRequest Config.regCalibA 26)]) :=
  andThen_of_error (reportAs_readBlock_of_fails .calibration h) _

theorem loadCalibration_of_blockB_fails {a : Vector Byte 26} {s₃ : σ}
    (ha : BlockAnswered bus st Config.regCalibA a s₃) (h : Fails bus s₃ (blockRequest Config.regCalibB 7) st') :
    loadCalibration bus (st, acts) = (.error .calibration, st',
      acts ++ [.exchange (blockRequest Config.regCalibA 26)] ++ [.exchange (blockRequest Config.regCalibB 7)]) :=
  (andThen_of_ok (reportAs_readBlock_of_answered .calibration ha) _).trans
    (andThen_of_error (reportAs_readBlock_of_fails .calibration h) _)

/-! ### How far the initialisation gets with the exchanges answered -/

theorem initialise_of_identified {s₁ : σ} (h : ChipIdentified bus st s₁) :
    initialise bus (st, []) =
      andThen (softReset bus) (fun _ => andThen (loadCalibration bus) fun _ => configure bus)
        (s₁, resetActions.take 1) :=
  andThen_of_ok (identify_of_identified h) _

theorem initialise_of_sensorReset {s₂ : σ} (h : SensorReset bus st s₂) :
    initialise bus (st, []) = andThen (loadCalibration bus) (fun _ => configure bus) (s₂, resetActions) := by
  obtain ⟨s₁, hid, hreset⟩ := h
  rw [initialise_of_identified hid]
  exact andThen_of_ok (softReset_of_answered hreset) _

theorem initialise_of_calibrationRead {a : Vector Byte 26} {b : Vector Byte 7} {s₄ : σ}
    (h : CalibrationRead bus st a b s₄) : initialise bus (st, []) = configure bus (s₄, calibrationActions a b) := by
  obtain ⟨s₂, s₃, hreset, ha, hb⟩ := h
  rw [initialise_of_sensorReset hreset]
  exact andThen_of_ok (loadCalibration_of_answered ha hb) _

theorem initialise_of_answered {a : Vector Byte 26} {b : Vector Byte 7} (h : InitialisationAnswered bus st a b st') :
    initialise bus (st, []) = (.ok (), st', calibrationActions a b ++ configActions) := by
  obtain ⟨s₄, s₅, s₆, hcal, hhum, hmeas, hconfig⟩ := h
  rw [initialise_of_calibrationRead hcal, configure, andThen_of_ok (writeRegister_of_answered hhum),
    andThen_of_ok (writeRegister_of_answered hmeas), writeRegister_of_answered hconfig]
  rfl

/-! ### How the initialisation fails, exchange by exchange (R185, R187, R207) -/

theorem initialise_of_identify_fails (h : Fails bus st (readRequest Config.regChipId) st') :
    initialise bus (st, []) = (.error .transport, st', resetActions.take 1) :=
  andThen_of_error (identify_of_fails h) _

theorem initialise_of_otherId {response : List Byte} (h : Answers bus st (readRequest Config.regChipId) response st')
    (hid : response[1]? ≠ some Config.chipIdValue) :
    initialise bus (st, []) = (.error .unexpectedChipId, st', resetActions.take 1) :=
  andThen_of_error (identify_of_otherId h hid) _

theorem initialise_of_reset_fails {s₁ : σ} (hid : ChipIdentified bus st s₁)
    (h : Fails bus s₁ (writeRequest Config.regReset Config.resetCmd) st') :
    initialise bus (st, []) = (.error .transport, st', resetActions.take 2) := by
  rw [initialise_of_identified hid]
  exact andThen_of_error (softReset_of_fails h) _

theorem initialise_of_blockA_fails {s₂ : σ} (hreset : SensorReset bus st s₂)
    (h : Fails bus s₂ (blockRequest Config.regCalibA 26) st') :
    initialise bus (st, []) =
      (.error .calibration, st', resetActions ++ [.exchange (blockRequest Config.regCalibA 26)]) := by
  rw [initialise_of_sensorReset hreset]
  exact andThen_of_error (loadCalibration_of_blockA_fails h) _

theorem initialise_of_blockB_fails {s₂ s₃ : σ} {a : Vector Byte 26} (hreset : SensorReset bus st s₂)
    (ha : BlockAnswered bus s₂ Config.regCalibA a s₃) (h : Fails bus s₃ (blockRequest Config.regCalibB 7) st') :
    initialise bus (st, []) = (.error .calibration, st', resetActions ++
      [.exchange (blockRequest Config.regCalibA 26), .exchange (blockRequest Config.regCalibB 7)]) := by
  rw [initialise_of_sensorReset hreset]
  exact andThen_of_error (loadCalibration_of_blockB_fails ha h) _

section Configure

variable {a : Vector Byte 26} {b : Vector Byte 7} {s₄ s₅ s₆ : σ}

theorem initialise_of_ctrlHum_fails (hcal : CalibrationRead bus st a b s₄)
    (h : Fails bus s₄ (writeRequest Config.regCtrlHum Config.cfgHum) st') :
    initialise bus (st, []) = (.error .transport, st', calibrationActions a b ++ configActions.take 1) := by
  rw [initialise_of_calibrationRead hcal]
  exact andThen_of_error (writeRegister_of_fails h) _

theorem initialise_of_ctrlMeas_fails (hcal : CalibrationRead bus st a b s₄)
    (hhum : WriteAnswered bus s₄ Config.regCtrlHum Config.cfgHum s₅)
    (h : Fails bus s₅ (writeRequest Config.regCtrlMeas Config.cfgMeas) st') :
    initialise bus (st, []) = (.error .transport, st', calibrationActions a b ++ configActions.take 2) := by
  rw [initialise_of_calibrationRead hcal, configure, andThen_of_ok (writeRegister_of_answered hhum)]
  exact andThen_of_error (writeRegister_of_fails h) _

theorem initialise_of_config_fails (hcal : CalibrationRead bus st a b s₄)
    (hhum : WriteAnswered bus s₄ Config.regCtrlHum Config.cfgHum s₅)
    (hmeas : WriteAnswered bus s₅ Config.regCtrlMeas Config.cfgMeas s₆)
    (h : Fails bus s₆ (writeRequest Config.regConfig Config.cfgConfig) st') :
    initialise bus (st, []) = (.error .transport, st', calibrationActions a b ++ configActions) := by
  rw [initialise_of_calibrationRead hcal, configure, andThen_of_ok (writeRegister_of_answered hhum),
    andThen_of_ok (writeRegister_of_answered hmeas)]
  exact writeRegister_of_fails h

end Configure

/-! ### Actions that leave the engine alone -/

/-- No frame is among the actions: all they do is seen by the bus and at the ports. -/
def IssuesNoFrame (acts : List HostAction) : Prop := ∀ frame, .issue frame ∉ acts

theorem IssuesNoFrame.leaves_engine (h : IssuesNoFrame acts) :
    issuedBytes acts = [] ∧ ∀ s, engineAfter s acts = some s := by
  induction acts with
  | nil => exact ⟨rfl, fun _ => rfl⟩
  | cons x acts ih =>
    have ih := ih fun frame hmem => h frame (.tail _ hmem)
    cases x with
    | issue frame => exact absurd (.head _) (h frame)
    | exchange request | settle delay | read port => exact ih

theorem IssuesNoFrame.take (h : IssuesNoFrame acts) (n : Nat) : IssuesNoFrame (acts.take n) :=
  fun frame hmem => h frame (List.mem_of_mem_take hmem)

theorem IssuesNoFrame.append {acts' : List HostAction} (h : IssuesNoFrame acts) (h' : IssuesNoFrame acts') :
    IssuesNoFrame (acts ++ acts') :=
  fun frame hmem => (List.mem_append.1 hmem).elim (h frame) (h' frame)

theorem issuesNoFrame_resetActions : IssuesNoFrame resetActions := by simp [IssuesNoFrame, resetActions]

theorem issuesNoFrame_configActions : IssuesNoFrame configActions := by simp [IssuesNoFrame, configActions]

/-! ### All the initialisation can do -/

/-- The seven exchanges are answered, one that is no block read fails, or it ends before CAL_LOAD. -/
theorem initialise_cases (bus : Bus σ) (st : σ) :
    (∃ a b st', InitialisationAnswered bus st a b st') ∨
    (∃ st' acts, initialise bus (st, []) = (.error .transport, st', acts)) ∨
    ∃ e st' acts, initialise bus (st, []) = (.error e, st', acts) ∧ IssuesNoFrame acts := by
  have hstart := issuesNoFrame_resetActions
  obtain ⟨s₁, hid⟩ | ⟨response, s₁, h, hne⟩ | ⟨s₁, h⟩ := chipIdentified_or_fails bus st
  case inr.inl => exact .inr (.inr ⟨_, _, _, initialise_of_otherId h hne, hstart.take 1⟩)
  case inr.inr => exact .inr (.inl ⟨_, _, initialise_of_identify_fails h⟩)
  obtain ⟨s₂, hwrite⟩ | ⟨s₂, h⟩ := writeAnswered_or_fails bus s₁ Config.regReset Config.resetCmd
  case inr => exact .inr (.inl ⟨_, _, initialise_of_reset_fails hid h⟩)
  have hreset : SensorReset bus st s₂ := ⟨s₁, hid, hwrite⟩
  obtain ⟨a, s₃, ha⟩ | ⟨s₃, h⟩ := blockAnswered_or_fails bus s₂ Config.regCalibA 26
  case inr =>
    exact .inr (.inr ⟨_, _, _, initialise_of_blockA_fails hreset h, hstart.append (by simp [IssuesNoFrame])⟩)
  obtain ⟨b, s₄, hb⟩ | ⟨s₄, h⟩ := blockAnswered_or_fails bus s₃ Config.regCalibB 7
  case inr =>
    exact .inr (.inr ⟨_, _, _, initialise_of_blockB_fails hreset ha h, hstart.append (by simp [IssuesNoFrame])⟩)
  have hcal : CalibrationRead bus st a b s₄ := ⟨s₂, s₃, hreset, ha, hb⟩
  obtain ⟨s₅, hhum⟩ | ⟨s₅, h⟩ := writeAnswered_or_fails bus s₄ Config.regCtrlHum Config.cfgHum
  case inr => exact .inr (.inl ⟨_, _, initialise_of_ctrlHum_fails hcal h⟩)
  obtain ⟨s₆, hmeas⟩ | ⟨s₆, h⟩ := writeAnswered_or_fails bus s₅ Config.regCtrlMeas Config.cfgMeas
  case inr => exact .inr (.inl ⟨_, _, initialise_of_ctrlMeas_fails hcal hhum h⟩)
  obtain ⟨s₇, hconfig⟩ | ⟨s₇, h⟩ := writeAnswered_or_fails bus s₆ Config.regConfig Config.cfgConfig
  case inr => exact .inr (.inl ⟨_, _, initialise_of_config_fails hcal hhum hmeas h⟩)
  exact .inl ⟨a, b, s₇, s₄, s₅, s₆, hcal, hhum, hmeas, hconfig⟩

theorem initialise_eq_ok_iff :
    initialise bus (st, []) = (.ok (), st', acts) ↔
      ∃ a b, InitialisationAnswered bus st a b st' ∧ acts = calibrationActions a b ++ configActions := by
  constructor
  · intro hok
    obtain ⟨a, b, s₇, h⟩ | ⟨_, _, herr⟩ | ⟨_, _, _, herr, -⟩ := initialise_cases bus st
    · cases (initialise_of_answered h).symm.trans hok
      exact ⟨a, b, h, rfl⟩
    · cases herr.symm.trans hok
    · cases herr.symm.trans hok
  · rintro ⟨a, b, h, rfl⟩
    exact initialise_of_answered h

/-- UnexpectedChipId and CalibrationError come before CAL_LOAD. -/
theorem issuesNoFrame_of_initialise_error {e : HostError} (he : e ≠ .transport)
    (herr : initialise bus (st, []) = (.error e, st', acts)) : IssuesNoFrame acts := by
  obtain ⟨a, b, _, h⟩ | ⟨_, _, h⟩ | ⟨_, _, _, h, hacts⟩ := initialise_cases bus st
  · cases (initialise_of_answered h).symm.trans herr
  · cases h.symm.trans herr
    exact absurd rfl he
  · cases h.symm.trans herr
    exact hacts

/-! ### The engine beside the host (R61, R70) -/

/-- An engine that has executed all presented before has a step for the next frame, the command alone. -/
theorem execute_encode {s : State} (hs : (drained s).host = []) (i : Instr) :
    ∃ t, exec i (drained s) = .next t ∧ execute (encode i) s = some t := by
  obtain ⟨t, ht⟩ := exec_completes i (drained s)
  have hhost : ((drained s).present (encode i)).host = (encode i).map HostInput.byte ++ [] := by simp [hs]
  have hself : { (drained s).present (encode i) with host := [] } = drained s := by
    simp only [State.present, ← hs]
  have hstep := presentedFrameIsExecuted _ i [] hhost
  rw [hself, ht] at hstep
  exact ⟨t, ht, execute_of_step hs hstep⟩

theorem engineAfter_calibrationActions (a : Vector Byte 26) (b : Vector Byte 7) (s : State)
    (h : IssuesNoFrame acts) :
    engineAfter s (calibrationActions a b ++ acts) = execute (encode (.calLoad a b)) s := by
  rw [engineAfter_append]
  simp [calibrationActions, resetActions, h.leaves_engine.2]

theorem exists_engineAfter_calibrationActions (a : Vector Byte 26) (b : Vector Byte 7) {s : State}
    (hs : (drained s).host = []) (h : IssuesNoFrame acts) :
    ∃ t, exec (.calLoad a b) (drained s) = .next t ∧ engineAfter s (calibrationActions a b ++ acts) = some t := by
  rw [engineAfter_calibrationActions a b s h]
  exact execute_encode hs _

/-- Settles O54: the two ends of the initialisation by its cases (`initialise_cases`), each failing exchange by the rule
for it, and the engine's part by the one frame issued (`exists_engineAfter_calibrationActions`). -/
theorem initialisationOrder : Obligations.InitialisationOrder := by
  unfold Obligations.InitialisationOrder
  intro σ bus st st'
  have hconf := issuesNoFrame_configActions
  refine ⟨fun _ => initialise_eq_ok_iff, fun a b s hs => exists_engineAfter_calibrationActions a b hs hconf,
    fun a b s hs => ?stuck, fun e acts he herr => ?noFrame, initialise_of_identify_fails,
    fun _ => initialise_of_otherId, fun _ => initialise_of_reset_fails, fun _ => initialise_of_blockA_fails,
    fun _ _ _ => initialise_of_blockB_fails, fun a b s₄ hcal => ⟨initialise_of_ctrlHum_fails hcal,
    fun _ => initialise_of_ctrlMeas_fails hcal, fun _ _ => initialise_of_config_fails hcal,
    fun n s hs => exists_engineAfter_calibrationActions a b hs (hconf.take n)⟩⟩
  case stuck => rw [engineAfter_calibrationActions a b s hconf, execute_of_stuck hs]
  case noFrame => exact (issuesNoFrame_of_initialise_error (by rintro rfl; simp at he) herr).leaves_engine

/-! ### The read cycle (R189) -/

theorem readCycle_of_answered {burst : Vector Byte 8} (check : ResultCheck) (draw : Draw) (s : State)
    (h : BlockAnswered bus st Config.regData burst st') :
    readCycle bus check draw s (st, []) =
      (.ok ((engineAfter s (readCycleActions burst)).bind (checkedReading check draw)), st',
        readCycleActions burst) := by
  rw [readCycle, andThen_of_ok (reportAs_readBlock_of_answered .read h)]
  simp [andThen, act, readOutputs, readCycleActions]

theorem readCycle_of_fails (check : ResultCheck) (draw : Draw) (s : State)
    (h : Fails bus st (blockRequest Config.regData 8) st') :
    readCycle bus check draw s (st, []) = (.error .read, st', [.exchange (blockRequest Config.regData 8)]) :=
  andThen_of_error (reportAs_readBlock_of_fails .read h) _

theorem readCycle_eq_ok_iff {check : ResultCheck} {draw : Draw} {s : State} {r : Option PhysicalReading} :
    readCycle bus check draw s (st, []) = (.ok r, st', acts) ↔
      ∃ burst, BlockAnswered bus st Config.regData burst st' ∧ acts = readCycleActions burst ∧
        r = (engineAfter s acts).bind (checkedReading check draw) := by
  constructor
  · intro hok
    obtain ⟨burst, _, h⟩ | ⟨_, h⟩ := blockAnswered_or_fails bus st Config.regData 8
    · cases (readCycle_of_answered check draw s h).symm.trans hok
      exact ⟨burst, h, rfl, rfl⟩
    · cases (readCycle_of_fails check draw s h).symm.trans hok
  · rintro ⟨burst, h, rfl, rfl⟩
    exact readCycle_of_answered check draw s h

theorem readCycle_eq_error_iff {check : ResultCheck} {draw : Draw} {s : State} {e : HostError} :
    readCycle bus check draw s (st, []) = (.error e, st', acts) ↔
      Fails bus st (blockRequest Config.regData 8) st' ∧ e = .read ∧
        acts = [.exchange (blockRequest Config.regData 8)] := by
  constructor
  · intro herr
    obtain ⟨burst, _, h⟩ | ⟨_, h⟩ := blockAnswered_or_fails bus st Config.regData 8
    · cases (readCycle_of_answered check draw s h).symm.trans herr
    · cases (readCycle_of_fails check draw s h).symm.trans herr
      exact ⟨h, rfl, rfl⟩
  · rintro ⟨h, rfl, rfl⟩
    exact readCycle_of_fails check draw s h

/-- A drain is a run of the machine. -/
theorem exists_run_eq_drain (n : Nat) (s : State) : ∃ k, Host.Core.run Sys2Proof.core k s = .next (drain n s) := by
  induction n generalizing s with
  | zero => exact ⟨0, rfl⟩
  | succ n ih =>
    cases ht : step s with
    | next t =>
      obtain ⟨k, hk⟩ := ih t
      exact ⟨k + 1, by rw [core_run_succ k ht, drain_of_step ht, hk]⟩
    | fault f => exact nomatch f
    | refused r => exact ⟨0, by simp [Host.Core.run, drain, ht]⟩

theorem engineAfter_readCycleActions (burst : Vector Byte 8) (s : State) :
    engineAfter s (readCycleActions burst) = execute (encode (.measure burst)) s := by
  simp [readCycleActions]

/-! ### What a check lets the host take after MEASURE (R241) -/

/-- After a success that left all result flags set either check passes, and no port is drawn at. -/
theorem checkedReading_eq_some (check : ResultCheck) (draw : Draw) {s : State} (herr : s.status.err = .ok)
    (hflags : s.status.tv = true ∧ s.status.pv = true ∧ s.status.hv = true) :
    checkedReading check draw s = some ⟨s.tempC, s.presHpa, s.humPct⟩ := by
  cases check with
  | flags => simp [checkedReading_flags_eq, hflags]
  | outcome => rw [checkedReading_outcome_eq, if_pos herr, reading_of_flags draw hflags]

theorem checkedReading_outcome_eq_none (draw : Draw) {s : State} (herr : s.status.err ≠ .ok) :
    checkedReading .outcome draw s = none := by
  rw [checkedReading_outcome_eq, if_neg herr]

theorem checkedReading_flags_eq_none (draw : Draw) {s : State} (htv : s.status.tv = false) :
    checkedReading .flags draw s = none := by
  simp [checkedReading_flags_eq, htv]

theorem checkedReading_of_measure (check : ResultCheck) (draw : Draw) {burst : Vector Byte 8} {s t : State}
    (ht : exec (.measure burst) s = .next t) (hc : s.status.calv = true) :
    checkedReading check draw t = some ⟨t.tempC, t.presHpa, t.humPct⟩ := by
  cases (exec_of_checkOf_none (i := .measure burst) (Status.needCal_eq_none.2 hc)).symm.trans ht
  apply checkedReading_eq_some check draw rfl
  rw [State.succeed_status, bodyOf_status]
  exact ⟨rfl, rfl, rfl⟩

theorem exec_measure_of_uncalibrated {burst : Vector Byte 8} {s t : State}
    (ht : exec (.measure burst) s = .next t) (hc : s.status.calv = false) : t = s.raise .noCal := by
  cases (exec_of_checkOf_some (i := .measure burst) (Status.needCal_noCal hc)).symm.trans ht
  rfl

/-- In an uncalibrated state whose flags are ordered no result is valid. -/
theorem tv_of_uncalibrated {s : State} (hf : FlagsOrdered s) (hc : s.status.calv = false) : s.status.tv = false := by
  rw [← Bool.not_eq_true] at hc ⊢
  exact fun htv => hc (hf.rawv_needs_calv (hf.tfv_needs_rawv (hf.tv_needs_tfv htv)))

theorem checkedReading_of_uncalibrated_measure {check : ResultCheck} (draw : Draw) {burst : Vector Byte 8}
    {s t : State} (ht : exec (.measure burst) s = .next t) (hc : s.status.calv = false)
    (hcheck : check = .outcome ∨ FlagsOrdered s) : checkedReading check draw t = none := by
  obtain rfl := exec_measure_of_uncalibrated ht hc
  have houtcome := checkedReading_outcome_eq_none draw (s := s.raise .noCal) (by simp)
  cases check with
  | outcome => exact houtcome
  | flags =>
    obtain h | hf := hcheck
    · cases h
    · exact checkedReading_flags_eq_none draw (tv_of_uncalibrated (hf.raise _) hc)

/-- Settles O55: the ends of the cycle by its one exchange (`readCycle_eq_ok_iff`, `readCycle_eq_error_iff`), the
engine's part by the one frame issued (`execute_encode`) and what the check lets the host take after it. -/
theorem readCycleIssuesOneMeasure : Obligations.ReadCycleIssuesOneMeasure := by
  unfold Obligations.ReadCycleIssuesOneMeasure
  intro σ bus st st' check draw s
  refine ⟨⟨exists_run_eq_drain _ s, drain_idle_or_stuck le_rfl, drained_of_idle⟩, fun _ _ => readCycle_eq_ok_iff,
    fun burst hs => ?idle, fun burst hs => ?stuck, fun _ _ => readCycle_eq_error_iff, fun e acts herr => ?failed⟩
  case idle =>
    obtain ⟨t, ht, hengine⟩ := execute_encode hs (.measure burst)
    refine ⟨t, ht, by rw [engineAfter_readCycleActions, hengine], checkedReading_of_measure check draw ht,
      fun hc hcheck => checkedReading_of_uncalibrated_measure draw ht hc (hcheck.imp_right fun hf => ?_)⟩
    exact drain_keeps stepKeepsFlagsOrdered hf _
  case stuck => rw [engineAfter_readCycleActions, execute_of_stuck hs]
  case failed =>
    obtain ⟨-, -, rfl⟩ := readCycle_eq_error_iff.1 herr
    exact ⟨rfl, rfl⟩

end Sys2Proof.Boundary
end

