-- ==== Sys2Proof/Proofs/Exceptions.lean ====
section
/-!
Engine errors and refusals (60_exceptions.md R200 to R206): what an error writes, which check decides its code, and that
nothing but a contending or incomplete frame is left without a step.
-/
namespace Sys2Proof.Machine

open Sys2Proof Sys2Proof.Reference

/-! ### What an error writes (R201) -/

/-- Settles O16: a command that fails does `State.raise` alone (`exec_of_error`), an illegal opcode that and the loss of
its byte (O6). -/
theorem errorsWriteOnlyErrEstkyAndIndex : Obligations.ErrorsWriteOnlyErrEstkyAndIndex := by
  unfold Obligations.ErrorsWriteOnlyErrEstkyAndIndex
  constructor
  · intro i s t ht herr
    obtain ⟨e, -, rfl⟩ := exec_of_error ht herr
    rfl
  · intro s t b rest hb hs ht
    obtain ⟨-, -, hillegal⟩ := illegalOpcodeRaisesIllegal
    exact Host.Outcome.next.inj (ht.symm.trans (hillegal s b rest hb hs))

/-! ### Which check decides the code (R206) -/

/-- `ERR` after a command is the code of its first failing check, and OK where none fails. -/
theorem exec_err {i : Instr} {s t : State} (h : exec i s = .next t) :
    t.status.err = (checkOf i s.status).getD .ok := by
  obtain ⟨e, he, rfl⟩ | ⟨hnone, rfl⟩ := exec_cases h
  · simp [he]
  · simp [hnone]

section Codes

variable (st : Status)

theorem Status.needUnlocked_getD : st.needUnlocked.getD .ok = if st.calv then .calLocked else .ok := by
  rw [needUnlocked]
  split <;> rfl

theorem Status.needCal_getD : st.needCal.getD .ok = if st.calv then .ok else .noCal := by
  rw [needCal]
  split <;> rfl

theorem Status.needRaw_getD :
    st.needRaw.getD .ok = if st.calv then (if st.rawv then .ok else .noRaw) else .noCal := by
  cases hc : st.calv <;> cases hr : st.rawv <;> simp [needRaw, hc, hr]

theorem Status.needTfine_getD :
    st.needTfine.getD .ok =
      if st.calv then (if st.rawv then (if st.tfv then .ok else .noTfine) else .noRaw) else .noCal := by
  cases hc : st.calv <;> cases hr : st.rawv <;> cases hf : st.tfv <;> simp [needTfine, hc, hr, hf]

end Codes

/-- Settles O17: an illegal opcode ends in its own error (O6); a command's code is that of its check (`exec_err`), and
each check tests its flags in the rule's order. -/
theorem firstFailingCheckDecidesTheError : Obligations.FirstFailingCheckDecidesTheError := by
  unfold Obligations.FirstFailingCheckDecidesTheError
  constructor
  · intro s b rest hb hs
    obtain ⟨-, -, hillegal⟩ := illegalOpcodeRaisesIllegal
    exact ⟨_, hillegal s b rest hb hs, rfl⟩
  · intro s t i ht
    rw [exec_err ht]
    cases i with
    | nop => rfl
    | calLoad a b => exact s.status.needUnlocked_getD
    | rawLoad v | measure v => exact s.status.needCal_getD
    | compT => exact s.status.needRaw_getD
    | compP | compH => exact s.status.needTfine_getD

/-! ### What has no step (R65, R82, R203, R204) -/

/-- Bytes the decoder finds incomplete begin as a frame of the opcode table does, and are fewer: with all the operand
bytes of the row they would decode. -/
theorem exists_encode_of_decode_incomplete {bs : List Byte} (h : decode bs = .rejected .incompleteFrame) :
    ∃ i, bs ≠ [] ∧ bs.length < (encode i).length ∧ bs.head? = (encode i).head? := by
  cases bs with
  | nil => cases h
  | cons opc bs =>
    cases hrow : opcodeRow opc with
    | none =>
      rw [decode_of_not_legalOpcode (by simp [legalOpcode, hrow])] at h
      cases h
    | some r =>
      obtain ⟨hmem, rfl⟩ := opcodeRow_eq_some hrow
      obtain hlt | hge := lt_or_ge bs.length r.operandBytes
      · obtain ⟨i, hi⟩ := exists_encode_eq_of_mem_opcodeTable hmem (bs := .replicate r.operandBytes 0) (by simp)
        exact ⟨i, by simp, by simp [← hi, hlt], by simp [← hi]⟩
      · obtain ⟨i, hi⟩ := exists_encode_eq_of_mem_opcodeTable hmem (bs := bs.take r.operandBytes) (by simp [hge])
        have hsplit : r.opc :: bs = encode i ++ bs.drop r.operandBytes := by simp [← hi]
        rw [hsplit, decode_encode_append] at h
        cases h

/-- Settles O10: by all that a fetch can find (`fetch_cases`); a command always completes, and incomplete bytes begin a
frame (`exists_encode_of_decode_incomplete`). -/
theorem onlyBrokenSchedulesAreRefused : Obligations.OnlyBrokenSchedulesAreRefused := by
  unfold Obligations.OnlyBrokenSchedulesAreRefused
  intro s
  obtain ⟨-, hf⟩ | ⟨_, -, hf⟩ | ⟨_, -, hf⟩ | ⟨i, _, -, hf⟩ | ⟨r, hf, hr⟩ := fetch_cases s
  · exact .inl ⟨_, step_of_goesOn hf⟩
  · exact .inl ⟨_, step_of_goesOn hf⟩
  · exact .inl ⟨_, step_of_goesOn hf⟩
  · rw [step_of_run hf]
    exact .inl (exec_completes i _)
  · obtain ⟨rfl, hcontend⟩ | ⟨rfl, hd⟩ := hr
    · exact .inr (.inl ⟨step_of_stuck hf, hcontend⟩)
    · exact .inr (.inr ⟨step_of_stuck hf, exists_encode_of_decode_incomplete hd⟩)

end Sys2Proof.Machine
end

