-- ==== Sys2Proof/Proofs/ResetAndHazards.lean ====
section
/-!
Reset and what a host may take of the engine (70_reset_and_hazards.md R230, R233, R241): the reset input, an
initialisation with a read cycle after it, and the two checks before a reading.
-/
namespace Sys2Proof.Machine

open Sys2Proof

/-- The flags after a command that passes its check. -/
theorem exec_status_of_checkOf_none {i : Instr} {s t : State} (h : exec i s = .next t)
    (hcheck : checkOf i s.status = none) : t.status = (bodyOf i s).status.succeed := by
  rw [← Host.Outcome.next.inj ((exec_of_checkOf_none hcheck).symm.trans h), State.succeed_status]

/-- CAL_LOAD on an engine with STATUS 0 sets CALV and nothing else. -/
theorem exec_calLoad_status {a : Vector Byte 26} {b : Vector Byte 7} {s t : State}
    (h : exec (.calLoad a b) s = .next t) (hs : s.status = Status.zero) : t.status = Status.zero.markCal := by
  rw [exec_status_of_checkOf_none h (Status.needUnlocked_eq_none.2 (by rw [hs]; rfl)), bodyOf_status, hs]
  rfl

/-- Settles O2: the step takes the reset (`step_of_host_reset`), and from STATUS 0 no port holds a value and CAL_LOAD
passes its check (`exec_calLoad_status`). -/
theorem resetInputClearsTheEngine : Obligations.ResetInputClearsTheEngine := by
  unfold Obligations.ResetInputClearsTheEngine
  intro s rest hs
  refine ⟨s.takeReset, step_of_host_reset hs, rfl, by rw [State.takeReset_status]; rfl,
    by simp [State.takeReset, hs], fun draw p hp => readPort_of_not_holdsValue draw (Port.holdsValue_zero hp),
    fun a b => ?_⟩
  obtain ⟨u, hu⟩ := exec_completes (.calLoad a b) s.takeReset
  have hstatus := exec_calLoad_status hu s.takeReset_status
  exact ⟨u, hu, by rw [hstatus]; rfl, by rw [hstatus]; rfl⟩

end Sys2Proof.Machine

namespace Sys2Proof.Boundary

open Sys2Proof Sys2Proof.Machine Sys2Proof.Reference

/-! ### Initialisation, then a read cycle (R233, R189) -/

variable {σ : Type} {bus : Bus σ} {st st₁ st' : σ} {acts : List HostAction} {a : Vector Byte 26} {b : Vector Byte 7}
  {burst : Vector Byte 8}

/-- A read cycle after other actions: the engine it reads is the one after those and its own. -/
theorem readCycle_of_answered_after (check : ResultCheck) (draw : Draw) (s : State)
    (h : BlockAnswered bus st Config.regData burst st') :
    readCycle bus check draw s (st, acts) =
      (.ok ((engineAfter s (acts ++ readCycleActions burst)).bind (checkedReading check draw)), st',
        acts ++ readCycleActions burst) := by
  rw [readCycle, andThen_of_ok (reportAs_readBlock_of_answered .read h)]
  simp [andThen, act, readOutputs, readCycleActions, engineAfter_append]

/-- The host's actions in an initialisation and a read cycle after it whose exchanges are answered. -/
def sessionActions (a : Vector Byte 26) (b : Vector Byte 7) (burst : Vector Byte 8) : List HostAction :=
  calibrationActions a b ++ configActions ++ readCycleActions burst

theorem initialise_then_readCycle_of_answered (check : ResultCheck) (draw : Draw) (s : State)
    (hinit : InitialisationAnswered bus st a b st₁) (hread : BlockAnswered bus st₁ Config.regData burst st') :
    andThen (initialise bus) (fun _ => readCycle bus check draw s) (st, []) =
      (.ok ((engineAfter s (sessionActions a b burst)).bind (checkedReading check draw)), st',
        sessionActions a b burst) := by
  rw [andThen_of_ok (initialise_of_answered hinit), readCycle_of_answered_after check draw s hread]
  rfl

/-- An idle engine executes the frame issued, and is idle again. -/
theorem execute_encode_of_idle {s : State} (hs : s.host = []) (i : Instr) :
    ∃ t, exec i s = .next t ∧ execute (encode i) s = some t ∧ t.host = [] := by
  have hdrained := drained_of_idle hs
  obtain ⟨t, ht, hexecute⟩ := execute_encode (hdrained ▸ hs) i
  rw [hdrained] at ht
  exact ⟨t, ht, hexecute, (exec_host ht).trans hs⟩

/-- Beside them an idle engine executes CAL_LOAD and then MEASURE. -/
theorem engineAfter_sessionActions (a : Vector Byte 26) (b : Vector Byte 7) (burst : Vector Byte 8) {s : State}
    (hs : s.host = []) :
    ∃ t u, exec (.calLoad a b) s = .next t ∧ exec (.measure burst) t = .next u ∧
      engineAfter s (sessionActions a b burst) = some u := by
  obtain ⟨t, ht, hcal, hidle⟩ := execute_encode_of_idle hs (.calLoad a b)
  obtain ⟨u, hu, hmeasure, -⟩ := execute_encode_of_idle hidle (.measure burst)
  refine ⟨t, u, ht, hu, ?_⟩
  rw [sessionActions, engineAfter_append, engineAfter_calibrationActions a b s issuesNoFrame_configActions, hcal,
    Option.bind_some, engineAfter_readCycleActions, hmeasure]

/-- MEASURE right after the CAL_LOAD leaves all six flags set and no error. -/
theorem exec_measure_statusWord {s t : State} (h : exec (.measure burst) s = .next t)
    (hs : s.status = Status.zero.markCal) : t.status.word = 0x003F#16 := by
  have hword : Status.zero.markCal.startCycle.markTemp.markPres.markHum.succeed.word = 0x003F#16 := by decide
  rw [exec_status_of_checkOf_none h (Status.needCal_eq_none.2 (by rw [hs]; rfl)), bodyOf_status, hs]
  exact hword

/-- Settles O59: the two programs succeed with the bus's answers (`initialise_then_readCycle_of_answered`), the engine
beside them has executed two commands (`engineAfter_sessionActions`), neither of which fails its check, and after
MEASURE either check of the host passes (`checkedReading_of_measure`). -/
theorem initialisationThenReadCycleGivesAReading : Obligations.InitialisationThenReadCycleGivesAReading := by
  unfold Obligations.InitialisationThenReadCycleGivesAReading
  intro σ bus st st₁ st' a b burst check draw s hinit hread hs hstatus
  obtain ⟨t, u, ht, hu, hengine⟩ := engineAfter_sessionActions a b burst hs
  have htstatus := exec_calLoad_status ht hstatus
  have hreading := checkedReading_of_measure check draw hu (by rw [htstatus]; rfl)
  refine ⟨t, u, sessionActions a b burst, ht, hu, ?_, hengine, exec_measure_statusWord hu htstatus, ?_⟩
  · rw [initialise_then_readCycle_of_answered check draw s hinit hread, hengine, Option.bind_some, hreading]
  · rw [exec_fi hu, exec_fi ht]

/-! ### What a check lets the host take (R241) -/

theorem checkedReading_flags_eq_some_iff {draw : Draw} {s : State} {r : PhysicalReading} :
    checkedReading .flags draw s = some r ↔
      (s.status.tv = true ∧ s.status.pv = true ∧ s.status.hv = true) ∧ r = ⟨s.tempC, s.presHpa, s.humPct⟩ := by
  rw [checkedReading_flags_eq, Option.ite_none_right_eq_some, Option.some_inj, eq_comm (b := r)]
  simp [and_assoc]

/-- Settles O60: the check of the flags by `checkedReading_flags_eq_some_iff`, with RAW_LOAD clearing them; the check of
ERR by what MEASURE leaves with CALV and without, and by the error of a command that failed. -/
theorem hostTakesOnlyCheckedResults : Obligations.HostTakesOnlyCheckedResults := by
  unfold Obligations.HostTakesOnlyCheckedResults
  refine fun draw => ⟨fun s r => checkedReading_flags_eq_some_iff, fun burst s hc => ?rawLoad,
    fun burst s t ht => ?measure, fun i s t _ herr => checkedReading_outcome_eq_none draw herr⟩
  case rawLoad =>
    obtain ⟨t, ht⟩ := exec_completes (.rawLoad burst) s
    refine ⟨t, ht, checkedReading_flags_eq_none draw ?_⟩
    rw [exec_status_of_checkOf_none ht (Status.needCal_eq_none.2 hc), bodyOf_status]
    rfl
  case measure =>
    cases hc : s.status.calv with
    | true => exact checkedReading_of_measure .outcome draw ht hc
    | false => exact checkedReading_of_uncalibrated_measure draw ht hc (.inl rfl)

end Sys2Proof.Boundary
end
